-- ==== Sys2Proof/Word.lean ====
section
/-! DEFINITION. The word types of NF64-CORE: bytes, 32-bit registers and byte strings (00_scope.md R8, 10_state.md R22).
Fields of a word are taken with the core functions of BitVec. -/

namespace Sys2Proof

/-- A byte: a field element, a buffer byte (00_scope.md R8, 44_gf256.md R155). -/
abbrev Byte := BitVec 8

/-- A 32-bit host register or command word (10_state.md R22, 30_encoding.md R70). -/
abbrev Word := BitVec 32

/-- A byte string, byte 0 first (00_scope.md R8). -/
abbrev Bytes := List Byte

/-- A byte offset in the host window of 2^20 bytes (20_memory.md R50). -/
abbrev Offset := BitVec 20

end Sys2Proof
end

