-- ==== Sys2Proof/Syntax.lean ====
section
/-! DEFINITION. The commands of NF64-CORE, one constructor per row of spec/opcode_table.json (30_encoding.md R79), each
with the selector fields its opcode uses. "Selector fields are decoded only when the command executes" (R83), so a field
holds its raw unsigned code; Machine/Operands.lean looks the codes up. -/

namespace Sys2Proof

inductive Instr where
  -- system (47_system.md)
  | nop
  | zeroize
  | clrerr
  -- bit permutation engine (40_permute.md); bo, ib: R72, R73
  | permute (bo ib : BitVec 1)
  -- GF(2^8) (44_gf256.md)
  | gfAdd
  | gfMul
  | gfInv
  | gfPow
  | gfIsIrred
  | gfListIrred
  -- DES (42_des.md)
  | desSetKey
  | desEnc
  | desDec
  | desKeyGen
  | desRoundF
  | desRound
  -- DEAL (43_deal.md)
  | dealSetKey
  | dealEnc
  | dealDec
  | dealKeyGen
  | dealRoundF
  | dealRound
  -- Rijndael (45_rijndael.md); bs: R74
  | rijSetKey (bs : BitVec 2)
  | rijEnc
  | rijDec
  | rijKeyGen (bs : BitVec 2)
  | rijSBox
  | rijInvSBox
  | rijSubBytes
  | rijInvSubBytes
  | rijShiftRows
  | rijInvShiftRows
  | rijMixColumns
  | rijInvMixColumns
  | rijAddRoundKey
  | rijRound
  | rijFinalRound
  -- chaining modes and padding (46_modes_padding.md); mode, padc, csel: R75, R76, R77
  | modeEnc (mode : BitVec 4) (padc : BitVec 4) (csel : BitVec 2)
  | modeDec (mode : BitVec 4) (padc : BitVec 4) (csel : BitVec 2)
  | pad (padc : BitVec 4)
  | unpad (padc : BitVec 4)
  deriving DecidableEq, Repr

end Sys2Proof
end

