-- ==== Sys2Proof/WellFormed.lean ====
section
/-! DEFINITION. Well-formed commands: every selector field holds a supported code (30_encoding.md R74 to R77, R81). Every
term of Instr has a command word (Decode.lean); the word of a term that is not well formed is well SHAPED, decodes, and
its meaning ends in E_UNSUPPORTED (R81). -/

namespace Sys2Proof

/-- BS: 0, 1, 2 are supported, 3 is not (30_encoding.md R74). -/
def bsSupported (bs : BitVec 2) : Bool := bs.toNat ≤ 2

/-- MODE: 0 to 4 are supported, 5 to 15 are not (30_encoding.md R75). -/
def modeSupported (mode : BitVec 4) : Bool := mode.toNat ≤ 4

/-- PAD: 0 to 3 are supported, 4 to 15 are not (30_encoding.md R76). -/
def padSupported (padc : BitVec 4) : Bool := padc.toNat ≤ 3

/-- CSEL: 0, 1, 2 are supported, 3 is not (30_encoding.md R77). -/
def cselSupported (csel : BitVec 2) : Bool := csel.toNat ≤ 2

def Instr.wellFormed : Instr → Bool
  | .nop => true
  | .zeroize => true
  | .clrerr => true
  | .permute _ _ => true            -- both values of BO and of IB are legal (R72, R73)
  | .gfAdd => true
  | .gfMul => true
  | .gfInv => true
  | .gfPow => true
  | .gfIsIrred => true
  | .gfListIrred => true
  | .desSetKey => true
  | .desEnc => true
  | .desDec => true
  | .desKeyGen => true
  | .desRoundF => true
  | .desRound => true
  | .dealSetKey => true
  | .dealEnc => true
  | .dealDec => true
  | .dealKeyGen => true
  | .dealRoundF => true
  | .dealRound => true
  | .rijSetKey bs => bsSupported bs
  | .rijEnc => true
  | .rijDec => true
  | .rijKeyGen bs => bsSupported bs
  | .rijSBox => true
  | .rijInvSBox => true
  | .rijSubBytes => true
  | .rijInvSubBytes => true
  | .rijShiftRows => true
  | .rijInvShiftRows => true
  | .rijMixColumns => true
  | .rijInvMixColumns => true
  | .rijAddRoundKey => true
  | .rijRound => true
  | .rijFinalRound => true
  | .modeEnc mode padc csel => modeSupported mode && padSupported padc && cselSupported csel
  | .modeDec mode padc csel => modeSupported mode && padSupported padc && cselSupported csel
  | .pad padc => padSupported padc
  | .unpad padc => padSupported padc

end Sys2Proof
end

