-- ==== Sys2Proof/Decode.lean ====
section
/-! DEFINITION. The decoder and the encoder of the command word (30_encoding.md R70 to R81, R85). -/

namespace Sys2Proof

/-! ### The fields of CMD32 (30_encoding.md R71) -/

def fieldOPC  (w : Word) : Byte     := w.extractLsb' 0 8
def fieldBO   (w : Word) : BitVec 1 := w.extractLsb' 8 1
def fieldIB   (w : Word) : BitVec 1 := w.extractLsb' 9 1
def fieldBS   (w : Word) : BitVec 2 := w.extractLsb' 10 2
def fieldMODE (w : Word) : BitVec 4 := w.extractLsb' 12 4
def fieldPAD  (w : Word) : BitVec 4 := w.extractLsb' 16 4
def fieldCSEL (w : Word) : BitVec 2 := w.extractLsb' 20 2

/-- Why a word is no command (30_encoding.md R78, R80); all of them are E_ILLEGAL when the word is executed (R81). -/
inductive DecodeError where
  | reservedBits              -- a bit of [31:22] is set (R78)
  | illegalOpcode (opc : Byte) -- OPC is in no row of R79 (R80)
  | unusedField (opc : Byte)   -- a field that the opcode does not use is not 0 (R78)
  deriving DecidableEq, Repr

/-- A row of the opcode map: the bits of the fields the opcode uses, and the command those fields make (R79). -/
structure OpcodeRow where
  used  : Word
  build : Word → Instr

/-- The bits of each field in the command word (30_encoding.md R71). -/
def bitsBO   : Word := 0x00000100
def bitsIB   : Word := 0x00000200
def bitsBS   : Word := 0x00000C00
def bitsMODE : Word := 0x0000F000
def bitsPAD  : Word := 0x000F0000
def bitsCSEL : Word := 0x00300000
def bitsReserved : Word := 0xFFC00000

/-- The opcode map (30_encoding.md R79): the row of each opcode, none for an illegal one (R80). -/
def opcodeRow (opc : Byte) : Option OpcodeRow :=
  match opc.toNat with
  | 0x00 => some ⟨0, fun _ => .nop⟩
  | 0x01 => some ⟨0, fun _ => .zeroize⟩
  | 0x02 => some ⟨0, fun _ => .clrerr⟩
  | 0x08 => some ⟨bitsBO ||| bitsIB, fun w => .permute (fieldBO w) (fieldIB w)⟩
  | 0x10 => some ⟨0, fun _ => .gfAdd⟩
  | 0x11 => some ⟨0, fun _ => .gfMul⟩
  | 0x12 => some ⟨0, fun _ => .gfInv⟩
  | 0x13 => some ⟨0, fun _ => .gfPow⟩
  | 0x14 => some ⟨0, fun _ => .gfIsIrred⟩
  | 0x15 => some ⟨0, fun _ => .gfListIrred⟩
  | 0x20 => some ⟨0, fun _ => .desSetKey⟩
  | 0x21 => some ⟨0, fun _ => .desEnc⟩
  | 0x22 => some ⟨0, fun _ => .desDec⟩
  | 0x23 => some ⟨0, fun _ => .desKeyGen⟩
  | 0x24 => some ⟨0, fun _ => .desRoundF⟩
  | 0x25 => some ⟨0, fun _ => .desRound⟩
  | 0x28 => some ⟨0, fun _ => .dealSetKey⟩
  | 0x29 => some ⟨0, fun _ => .dealEnc⟩
  | 0x2A => some ⟨0, fun _ => .dealDec⟩
  | 0x2B => some ⟨0, fun _ => .dealKeyGen⟩
  | 0x2C => some ⟨0, fun _ => .dealRoundF⟩
  | 0x2D => some ⟨0, fun _ => .dealRound⟩
  | 0x30 => some ⟨bitsBS, fun w => .rijSetKey (fieldBS w)⟩
  | 0x31 => some ⟨0, fun _ => .rijEnc⟩
  | 0x32 => some ⟨0, fun _ => .rijDec⟩
  | 0x33 => some ⟨bitsBS, fun w => .rijKeyGen (fieldBS w)⟩
  | 0x34 => some ⟨0, fun _ => .rijSBox⟩
  | 0x35 => some ⟨0, fun _ => .rijInvSBox⟩
  | 0x36 => some ⟨0, fun _ => .rijSubBytes⟩
  | 0x37 => some ⟨0, fun _ => .rijInvSubBytes⟩
  | 0x38 => some ⟨0, fun _ => .rijShiftRows⟩
  | 0x39 => some ⟨0, fun _ => .rijInvShiftRows⟩
  | 0x3A => some ⟨0, fun _ => .rijMixColumns⟩
  | 0x3B => some ⟨0, fun _ => .rijInvMixColumns⟩
  | 0x3C => some ⟨0, fun _ => .rijAddRoundKey⟩
  | 0x3D => some ⟨0, fun _ => .rijRound⟩
  | 0x3E => some ⟨0, fun _ => .rijFinalRound⟩
  | 0x40 => some ⟨bitsMODE ||| bitsPAD ||| bitsCSEL, fun w => .modeEnc (fieldMODE w) (fieldPAD w) (fieldCSEL w)⟩
  | 0x41 => some ⟨bitsMODE ||| bitsPAD ||| bitsCSEL, fun w => .modeDec (fieldMODE w) (fieldPAD w) (fieldCSEL w)⟩
  | 0x48 => some ⟨bitsPAD, fun w => .pad (fieldPAD w)⟩
  | 0x49 => some ⟨bitsPAD, fun w => .unpad (fieldPAD w)⟩
  | _ => none

/-- Decoding, total on every 32-bit word (30_encoding.md R70, R78 to R81): the legal words of an opcode are "OPC in bits
[7:0], the opcode's used fields free, and every other bit 0" (R78). -/
def decode (w : Word) : Except DecodeError Instr :=
  if w &&& bitsReserved ≠ 0 then .error .reservedBits
  else
    match opcodeRow (fieldOPC w) with
    | none => .error (.illegalOpcode (fieldOPC w))
    | some row =>
      if w &&& ~~~(0x000000FF ||| row.used) ≠ 0 then .error (.unusedField (fieldOPC w))
      else .ok (row.build w)

/-- The encoded word `OPC | BO<<8 | IB<<9 | BS<<10 | MODE<<12 | PAD<<16 | CSEL<<20` (30_encoding.md R85). -/
def assemble (opc : Byte) (bo ib : BitVec 1 := 0) (bs : BitVec 2 := 0) (mode padc : BitVec 4 := 0)
    (csel : BitVec 2 := 0) : Word :=
  opc.setWidth 32 ||| bo.setWidth 32 <<< 8 ||| ib.setWidth 32 <<< 9 ||| bs.setWidth 32 <<< 10
    ||| mode.setWidth 32 <<< 12 ||| padc.setWidth 32 <<< 16 ||| csel.setWidth 32 <<< 20

/-- The command word of a command (30_encoding.md R79, R85). -/
def encode : Instr → Word
  | .nop => assemble 0x00
  | .zeroize => assemble 0x01
  | .clrerr => assemble 0x02
  | .permute bo ib => assemble 0x08 (bo := bo) (ib := ib)
  | .gfAdd => assemble 0x10
  | .gfMul => assemble 0x11
  | .gfInv => assemble 0x12
  | .gfPow => assemble 0x13
  | .gfIsIrred => assemble 0x14
  | .gfListIrred => assemble 0x15
  | .desSetKey => assemble 0x20
  | .desEnc => assemble 0x21
  | .desDec => assemble 0x22
  | .desKeyGen => assemble 0x23
  | .desRoundF => assemble 0x24
  | .desRound => assemble 0x25
  | .dealSetKey => assemble 0x28
  | .dealEnc => assemble 0x29
  | .dealDec => assemble 0x2A
  | .dealKeyGen => assemble 0x2B
  | .dealRoundF => assemble 0x2C
  | .dealRound => assemble 0x2D
  | .rijSetKey bs => assemble 0x30 (bs := bs)
  | .rijEnc => assemble 0x31
  | .rijDec => assemble 0x32
  | .rijKeyGen bs => assemble 0x33 (bs := bs)
  | .rijSBox => assemble 0x34
  | .rijInvSBox => assemble 0x35
  | .rijSubBytes => assemble 0x36
  | .rijInvSubBytes => assemble 0x37
  | .rijShiftRows => assemble 0x38
  | .rijInvShiftRows => assemble 0x39
  | .rijMixColumns => assemble 0x3A
  | .rijInvMixColumns => assemble 0x3B
  | .rijAddRoundKey => assemble 0x3C
  | .rijRound => assemble 0x3D
  | .rijFinalRound => assemble 0x3E
  | .modeEnc mode padc csel => assemble 0x40 (mode := mode) (padc := padc) (csel := csel)
  | .modeDec mode padc csel => assemble 0x41 (mode := mode) (padc := padc) (csel := csel)
  | .pad padc => assemble 0x48 (padc := padc)
  | .unpad padc => assemble 0x49 (padc := padc)

/-- The instruction the decoder reads from a command word whose low `nbits` bits are those of `w` and whose other bits
are 0. A command is one 32-bit word (30_encoding.md R70), numbered as spec/opcode_table.json numbers it. -/
def decodeTableWord (nbits w : Nat) : Option Instr :=
  if nbits ≤ 32 then
    match decode (BitVec.ofNat 32 (w % 2 ^ nbits)) with
    | .ok i => some i
    | .error _ => none
  else none

end Sys2Proof
end

