-- ==== Sys2Proof/Config.lean ====
section
/-! DEFINITION. What an implementation fixes (00_scope.md R7) and the free values (46_modes_padding.md R222, 10_state.md R34). -/

namespace Sys2Proof

/-- The layout of DEAL's duplicated half, an OPEN parameter (00_scope.md R7, 92_eei_decisions.md D20). -/
inductive DealDup where
  | halfTwice   -- h || h, the default
  | byteTwice   -- h0 h0 h1 h1 h2 h2 h3 h3
  deriving DecidableEq, Repr

/-- The implementation parameters that a model "takes as arguments" (00_scope.md R7). State carries them
(notes/assumptions/2.md), so a statement about every state is one about every parameter value. -/
structure Params where
  bufBytes    : Nat
  tbufEntries : Nat
  dealDup     : DealDup
  deriving DecidableEq, Repr

/-- OBUF_BYTES is "fixed as BUF_BYTES + 32" (00_scope.md R7). -/
def Params.obufBytes (p : Params) : Nat := p.bufBytes + 32

/-- The ranges that 00_scope.md R7 gives the two capacities. -/
abbrev Params.inRange (p : Params) : Prop :=
  512 ≤ p.bufBytes ∧ p.bufBytes ≤ 0x3FFE0 ∧ 64 ≤ p.tbufEntries ∧ p.tbufEntries ≤ 4096

/-- The values that 00_scope.md R7 suggests; State.reset has them (DESIGN CHOICE, notes/assumptions/2.md). -/
def Params.suggested : Params := { bufBytes := 4096, tbufEntries := 256, dealDup := .halfTwice }

/-- The k-th free byte: an ISO 10126 filler byte (46_modes_padding.md R222: "any byte values are allowed") or what a
host read of a byte that holds no value returns (10_state.md R34). It has no body: nothing can be proved of its value
(notes/assumptions/3.md). -/
opaque Config.freeByte : Nat → Byte

end Sys2Proof
end

