-- ==== Sys2Proof/Machine/State.lean ====
section
/-! DEFINITION. The state of NF64-CORE as plain data (10_state.md), why a step can stop (60_exceptions.md R259), and the
state after reset (10_state.md R41, 70_reset_and_hazards.md R270). -/

namespace Sys2Proof.Machine

/-- The error codes of STATUS.ERR (60_exceptions.md R251); codes 7 to 15 are never produced. -/
inductive ErrCode where
  | ok
  | invalidArg
  | reducible
  | unsupported
  | illegal
  | notKeyed
  | zeroInv
  deriving DecidableEq, Repr

/-- The five byte buffers (10_state.md R33). -/
inductive Buf where
  | kbuf
  | ivbuf
  | tbuf
  | ibuf
  | obuf
  deriving DecidableEq, Repr

/-- Why the machine stops with a model fault (60_exceptions.md R259). -/
inductive Fault where
  /-- Raised by every command that reads a buffer, when its checks have passed and a byte (or TBUF entry) its rule reads
  holds no value (10_state.md R34, 20_memory.md R65). Safe: "the model records a model fault for it, never a value". -/
  | noValue (buf : Buf)
  deriving DecidableEq, Repr

/-- Why a step has no transition. Every one is safe: a refused access "errs toward unprovable" (20_memory.md R52). -/
inductive Refusal where
  /-- An arm of exec whose instruction has no meaning yet (no arm of this model: every command has its meaning). -/
  | notModelled (mnemonic : String)
  /-- A host access of 0x00000 to 0x000FF that is narrower than 32 bits, wider, or not 4-byte aligned (20_memory.md R52). -/
  | registerAccess
  /-- A host access outside the registers, wider than a byte, that is not naturally aligned (20_memory.md R53). -/
  | bufferMisaligned
  /-- A host access that straddles the end of a buffer into a reserved range (20_memory.md R53). -/
  | bufferStraddles
  /-- A 64-bit host access outside the registers (60_exceptions.md R259, 93_implementation_defined.md B4). -/
  | access64
  deriving DecidableEq, Repr

/-- The contents of the buffers: (window offset, byte) pairs with strictly rising offsets. A byte that is not listed
holds NO VALUE (10_state.md R34), so no entry can equal what an unlisted offset reads as. -/
abbrev Memory := List Host.Cell

/-- The canonical form: offsets strictly rising. -/
def Memory.wf : Memory → Bool
  | [] => true
  | [_] => true
  | c :: d :: m => decide (c.1 < d.1) && Memory.wf (d :: m)

/-- The DES instance (10_state.md R35). -/
structure DesInst where
  keyed : Bool
  rk    : List Bytes
  deriving DecidableEq, Repr

/-- The DEAL instance (10_state.md R36). -/
structure DealInst where
  keyed : Bool
  rk    : List Bytes
  deriving DecidableEq, Repr

/-- The Rijndael instance (10_state.md R37). -/
structure RijInst where
  keyed   : Bool
  bs      : Nat
  ks      : Nat
  m       : Byte
  nr      : Nat
  rk      : List Bytes
  sbox    : Bytes
  invSbox : Bytes
  deriving DecidableEq, Repr

/-- The width of a host access. -/
inductive Width where
  | w8
  | w16
  | w32
  | w64
  deriving DecidableEq, Repr

/-- What the host (or the platform) does to the block: a write, a read, or reset (10_state.md R20,
70_reset_and_hazards.md R270). -/
inductive HostAccess where
  | write8  (off : Offset) (v : BitVec 8)
  | write16 (off : Offset) (v : BitVec 16)
  | write32 (off : Offset) (v : BitVec 32)
  | write64 (off : Offset) (v : BitVec 64)
  | read    (off : Offset) (w : Width)
  | reset
  deriving DecidableEq, Repr

/-- The state. CMD "holds no state after the command" (10_state.md R23) and every field of STATUS is "a pure function of
the core's state" (R24), so neither is stored (notes/assumptions/7.md). The last three fields are the model's own. -/
structure State where
  params   : Params            -- 00_scope.md R7; no step changes it
  len      : Word              -- 10_state.md R22, as the next eight
  klen     : Word
  ivlen    : Word
  tlen     : Word
  arg0     : Word
  arg1     : Word
  arg2     : Word
  res      : Word
  outlen   : Word
  err      : ErrCode           -- STATUS.ERR (R25)
  errSeen  : Bool              -- STATUS.ERRSEEN (R27)
  mem      : Memory            -- the five buffers (R33, R34)
  des      : DesInst           -- R35
  deal     : DealInst          -- R36
  rij      : RijInst           -- R37
  host     : List HostAccess   -- the host's accesses still to come, oldest first (notes/assumptions/1.md)
  readData : Word              -- what the last host read returned (notes/assumptions/5.md)
  draws    : Nat               -- how many free bytes have been taken (notes/assumptions/3.md)
  deriving DecidableEq, Repr

/-- The answer of a meaning and of a step. -/
abbrev Result := Host.Outcome State Fault Refusal

/-- "des ← keyed: 0, rk: all zero" (70_reset_and_hazards.md R270): sixteen 48-bit keys. -/
def DesInst.cleared : DesInst := { keyed := false, rk := List.replicate 16 (List.replicate 6 0) }

/-- "deal ← keyed: 0, rk: all zero" (70_reset_and_hazards.md R270): six 8-byte keys. -/
def DealInst.cleared : DealInst := { keyed := false, rk := List.replicate 6 (List.replicate 8 0) }

/-- "rij ← keyed: 0, bs: 0, ks: 0, m: 0, Nr: 0, rk: all zero, S: all zero, IS: all zero" (70_reset_and_hazards.md
R270). DESIGN CHOICE: the zero schedule has the largest schedule's shape (notes/assumptions/6.md). -/
def RijInst.cleared : RijInst :=
  { keyed := false, bs := 0, ks := 0, m := 0, nr := 0, rk := List.replicate 15 (List.replicate 32 0),
    sbox := List.replicate 256 0, invSbox := List.replicate 256 0 }

/-- The state after reset of a machine with parameters `p` (70_reset_and_hazards.md R270, 10_state.md R41). -/
def State.resetWith (p : Params) : State :=
  { params := p
    len := 0, klen := 0, ivlen := 0, tlen := 0, arg0 := 0, arg1 := 0, arg2 := 0, res := 0, outlen := 0
    err := .ok, errSeen := false
    mem := []
    des := .cleared, deal := .cleared, rij := .cleared
    host := [], readData := 0, draws := 0 }

/-- The machine right after reset, with the suggested parameters (notes/assumptions/2.md). -/
def State.reset : State := State.resetWith Params.suggested

end Sys2Proof.Machine
end

