-- ==== Sys2Proof/Machine/Ops.lean ====
section
/-! DEFINITION. The named operations over memory and registers: reading and writing buffer bytes, ending a command in an
error (the block's only exception, 60_exceptions.md R255) or in success (R256), and the checks before it (R253). -/

namespace Sys2Proof.Machine

/-! ### Buffer bytes -/

/-- The byte at a window offset; none where nothing has been written since reset (10_state.md R34). -/
def Memory.read (m : Memory) (a : Nat) : Option Byte := List.lookup a m

/-- The `n` bytes from offset `base`; none where one of them holds no value (20_memory.md R65). -/
def Memory.readRange (m : Memory) (base n : Nat) : Option Bytes :=
  let cells := m.filter fun c => base ≤ c.1 && c.1 < base + n
  if cells.length = n ∧ cells.map (·.1) = List.range' base cells.length then some (cells.map (·.2)) else none

/-- The cells that a byte string occupies from offset `base`. -/
def Memory.cells (base : Nat) : Bytes → Memory
  | [] => []
  | b :: bs => (base, b) :: Memory.cells (base + 1) bs

/-- Writing a byte string from offset `base` on; no other byte changes. -/
def Memory.writeRange (m : Memory) (base : Nat) (bs : Bytes) : Memory :=
  match bs with
  | [] => m
  | _ :: _ =>
    m.filter (fun c => c.1 < base) ++ Memory.cells base bs ++ m.filter (fun c => base + bs.length ≤ c.1)

/-- Where a buffer begins in the window (20_memory.md R51). -/
def Buf.base : Buf → Nat
  | .kbuf => 0x00100
  | .ivbuf => 0x00140
  | .tbuf => 0x01000
  | .ibuf => 0x40000
  | .obuf => 0x80000

/-- How many bytes a buffer has (10_state.md R33, 00_scope.md R7). -/
def Buf.size (p : Params) : Buf → Nat
  | .kbuf => 32
  | .ivbuf => 32
  | .tbuf => 2 * p.tbufEntries
  | .ibuf => p.bufBytes
  | .obuf => p.obufBytes

/-- `MemRead(BUF, off, n)` (00_scope.md R10). -/
def State.memRead (s : State) (b : Buf) (off n : Nat) : Option Bytes := s.mem.readRange (b.base + off) n

/-- One byte of a buffer, none where it holds no value. -/
def State.bufByte (s : State) (b : Buf) (i : Nat) : Option Byte := s.mem.read (b.base + i)

/-- `MemWrite(OBUF, 0, n, out)` (00_scope.md R10): commands write only OBUF, from offset 0 (20_memory.md R64). -/
def State.writeObuf (s : State) (out : Bytes) : State := { s with mem := s.mem.writeRange Buf.obuf.base out }

/-! ### Ending a command -/

/-- Error entry (60_exceptions.md R255): STATUS.ERR and STATUS.ERRSEEN are written, "nothing else changes". -/
def State.raised (s : State) (e : ErrCode) : State := { s with err := e, errSeen := true }

/-- `raise Error(e)`: taking the block's only exception (60_exceptions.md R255). There is no vector, and no return from
it: "the next CMD write executes normally whatever STATUS.ERR holds" (R258). -/
def raiseError (e : ErrCode) (s : State) : Result := .next (s.raised e)

/-- The success of a command that writes bytes (60_exceptions.md R256): ERR is 0, ERRSEEN keeps its value, the output is
in OBUF from offset 0, OUTLEN is its length (10_state.md R32) and RES the scalar result (R31). -/
def State.completed (s : State) (res : Word) (out : Bytes) : State :=
  { s.writeObuf out with err := .ok, res := res, outlen := BitVec.ofNat 32 out.length }

/-- Success with a byte string as result: "every other successful command writes RES ← 0" (10_state.md R31). -/
def succeedBytes (out : Bytes) (s : State) : Result := .next (s.completed 0 out)

/-- Success with a scalar result and no bytes (10_state.md R31, R32). -/
def succeedScalar (res : Word) (s : State) : Result := .next (s.completed res [])

/-! ### The checks of a command, each written before what follows it (60_exceptions.md R253) -/

/-- The command goes on where `p` holds and ends in error `e` where it does not. -/
@[inline] def require (p : Prop) [Decidable p] (e : ErrCode) (s : State) (go : Unit → Result) : Result :=
  if p then go () else raiseError e s

/-- The command goes on with a value that it looks up, and ends in error `e` where there is none. -/
@[inline] def requireSome {α : Type} (o : Option α) (e : ErrCode) (s : State) (go : α → Result) : Result :=
  match o with
  | some a => go a
  | none => raiseError e s

/-- The command goes on with the first `n` bytes of a buffer; a byte that holds no value is a model fault (10_state.md
R34, 60_exceptions.md R259). -/
@[inline] def withBytes (b : Buf) (n : Nat) (s : State) (go : Bytes → Result) : Result :=
  match s.memRead b 0 n with
  | some bs => go bs
  | none => .fault (.noValue b)

/-! ### Free bytes -/

/-- `n` free bytes, the first of them the `k`-th (46_modes_padding.md R222: "an oracle argument filler : Nat → ByteString
with len(filler(k)) = k"). -/
def freeBytes (k n : Nat) : Bytes := (List.range' k n).map Config.freeByte

/-- The filler source of a command (46_modes_padding.md R222). -/
def State.filler (s : State) (n : Nat) : Bytes := freeBytes s.draws n

/-- `n` free bytes have been taken. -/
def State.drew (s : State) (n : Nat) : State := { s with draws := s.draws + n }

end Sys2Proof.Machine
end

