-- ==== Sys2Proof/Machine/Operands.lean ====
section
/-! DEFINITION. The operand forms (30_encoding.md R72 to R77, R82; 10_state.md R29, R30): byte arguments, table entries,
block sizes and the selector codes, looked up when the command executes (R83). -/

namespace Sys2Proof.Machine

/-- A byte operand: "the register's value must be at most 0xFF", "no command truncates an argument silently" (10_state.md
R30). -/
def byteArg (r : Word) : Option Byte := if r.toNat ≤ 0xFF then some (r.setWidth 8) else none

/-- `zext_32` (00_scope.md R10). -/
def zext32 (b : Byte) : Word := b.setWidth 32

/-- The bit-addressing convention (00_scope.md R8). -/
inductive BitOrder where
  | lsbFirst
  | msbFirst
  deriving DecidableEq, Repr

/-- BO: 0 = LSB-first, 1 = MSB-first (30_encoding.md R72). -/
def BitOrder.ofCode (bo : BitVec 1) : BitOrder := if bo = 1 then .msbFirst else .lsbFirst

/-- IB: 0 = 0-based, 1 = 1-based (30_encoding.md R73). -/
def indexBase (ib : BitVec 1) : Nat := ib.toNat

/-- BS: the Rijndael block size in bytes (30_encoding.md R74). -/
def blockSizeOf (bs : BitVec 2) : Option Nat :=
  match bs.toNat with
  | 0 => some 16
  | 1 => some 24
  | 2 => some 32
  | _ => none

/-- The chaining modes (30_encoding.md R75). -/
inductive ChainMode where
  | ecb
  | cbc
  | cfb
  | ofb
  | ctr
  deriving DecidableEq, Repr

def ChainMode.ofCode (mode : BitVec 4) : Option ChainMode :=
  match mode.toNat with
  | 0 => some .ecb
  | 1 => some .cbc
  | 2 => some .cfb
  | 3 => some .ofb
  | 4 => some .ctr
  | _ => none

/-- ECB and CBC are the block-structured modes (46_modes_padding.md R217). -/
def ChainMode.padded : ChainMode → Bool
  | .ecb => true
  | .cbc => true
  | .cfb => false
  | .ofb => false
  | .ctr => false

/-- The padding schemes (30_encoding.md R76). -/
inductive PadScheme where
  | zeros
  | pkcs7
  | ansix923
  | iso10126
  deriving DecidableEq, Repr

def PadScheme.ofCode (padc : BitVec 4) : Option PadScheme :=
  match padc.toNat with
  | 0 => some .zeros
  | 1 => some .pkcs7
  | 2 => some .ansix923
  | 3 => some .iso10126
  | _ => none

/-- The cipher selector (30_encoding.md R77). -/
inductive CipherSel where
  | des
  | deal
  | rijndael
  deriving DecidableEq, Repr

def CipherSel.ofCode (csel : BitVec 2) : Option CipherSel :=
  match csel.toNat with
  | 0 => some .des
  | 1 => some .deal
  | 2 => some .rijndael
  | _ => none

/-- The sizes of a Rijndael block, key or state in bytes (45_rijndael.md R175). -/
abbrev rijSize (n : Nat) : Prop := n = 16 ∨ n = 24 ∨ n = 32

/-- The entries that little-endian byte pairs hold (20_memory.md R51, R55). -/
def entriesOf : Bytes → List Nat
  | lo :: hi :: rest => (lo.toNat + 256 * hi.toNat) :: entriesOf rest
  | _ => []

/-- The command goes on with TBUF entries 0 to `n`-1 (30_encoding.md R82); an entry that holds no value is a model fault
(60_exceptions.md R259). -/
@[inline] def withTable (n : Nat) (s : State) (go : List Nat → Result) : Result :=
  withBytes .tbuf (2 * n) s fun bs => go (entriesOf bs)

end Sys2Proof.Machine
end

