-- ==== Sys2Proof/Machine/Feistel.lean ====
section
/-! DEFINITION. Byte strings as values, and the Feistel combiner (41_feistel.md). -/

namespace Sys2Proof.Machine

/-- `a XOR b` (00_scope.md R8); the longer string is cut to the shorter one (used so for the last keystream block,
46_modes_padding.md R232). -/
def xorBytes (a b : Bytes) : Bytes := List.zipWith (· ^^^ ·) a b

/-- `be(b)`: the unsigned integer whose big-endian byte string is `b` (00_scope.md R8). -/
def beNat (b : Bytes) : Nat := b.foldl (fun acc x => 256 * acc + x.toNat) 0

/-- `bytes_be(v, n)`: the `n`-byte big-endian string of `v` modulo 2^(8n) (00_scope.md R8). -/
def bytesBE (v : Nat) : Nat → Bytes
  | 0 => []
  | n + 1 => BitVec.ofNat 8 (v / 256 ^ n) :: bytesBE v n

/-- One round, `(L, R) ← (R, L XOR F(R, k))` (41_feistel.md R101). -/
def feistelRound (f : Bytes → Bytes → Bytes) (lr : Bytes × Bytes) (k : Bytes) : Bytes × Bytes :=
  (lr.2, xorBytes lr.1 (f lr.2 k))

/-- `feistel(block, K, F)` with 4-byte halves (41_feistel.md R101): the output is `R_R || L_R` (90_conflicts.md C1). -/
def feistel (f : Bytes → Bytes → Bytes) (keys : List Bytes) (block : Bytes) : Bytes :=
  let lr := keys.foldl (feistelRound f) (block.take 4, block.drop 4)
  lr.2 ++ lr.1

/-- Decryption: the round keys "consumed in reverse order" (41_feistel.md R102). -/
def feistelDec (f : Bytes → Bytes → Bytes) (keys : List Bytes) (block : Bytes) : Bytes := feistel f keys.reverse block

/-- `fround(L || R, k, F) = R || (L XOR F(R, k))` (41_feistel.md R105). -/
def feistelStep (f : Bytes → Bytes → Bytes) (k : Bytes) (block : Bytes) : Bytes :=
  let lr := feistelRound f (block.take 4, block.drop 4) k
  lr.1 ++ lr.2

end Sys2Proof.Machine
end

