-- ==== Sys2Proof/Machine/Permute.lean ====
section
/-! DEFINITION. The bit permutation engine (40_permute.md) and the PERMUTE command. -/

namespace Sys2Proof.Machine

/-- The place of string bit `k` inside its byte, bit 0 the least significant (00_scope.md R8). -/
def BitOrder.place (order : BitOrder) (k : Nat) : Nat :=
  match order with
  | .msbFirst => 7 - k % 8
  | .lsbFirst => k % 8

/-- `bit(b, k, order)` (40_permute.md R90); false beyond the end of the string. -/
def bitOf (order : BitOrder) (b : Bytes) (k : Nat) : Bool := (b.getD (k / 8) 0).getLsbD (order.place k)

/-- The byte whose string bits 0, 1, … are `bits` (at most eight); the bits that are not given are 0 (40_permute.md R92). -/
def packByte (order : BitOrder) (bits : List Bool) : Byte :=
  BitVec.ofNat 8 ((bits.zipIdx.map fun bk => if bk.1 then 2 ^ order.place bk.2 else 0).sum)

/-- The first `n` bytes of the string whose bits are `bits`. -/
def packBits (order : BitOrder) : Nat → List Bool → Bytes
  | 0, _ => []
  | n + 1, bits => packByte order (bits.take 8) :: packBits order n (bits.drop 8)

/-- The bit that a table entry selects: 0 for a source index out of range, also for entry 0 under base 1 (40_permute.md
R91). -/
def sourceBit (input : Bytes) (order : BitOrder) (base : Nat) (entry : Nat) : Bool :=
  if base ≤ entry ∧ entry - base < 8 * input.length then bitOf order input (entry - base) else false

/-- `permute(in, table, order, base)` (40_permute.md R90): ceil(n/8) bytes for a table of n entries. -/
def permute (input : Bytes) (table : List Nat) (order : BitOrder) (base : Nat) : Bytes :=
  packBits order ((table.length + 7) / 8) (table.map (sourceBit input order base))

/-- PERMUTE (40_permute.md R93). -/
def execPermute (bo ib : BitVec 1) (s : State) : Result :=
  require (s.len.toNat ≤ s.params.bufBytes ∧ s.tlen.toNat ≤ s.params.tbufEntries) .invalidArg s fun _ =>
  withBytes .ibuf s.len.toNat s fun input =>
  withTable s.tlen.toNat s fun table =>
  succeedBytes (permute input table (BitOrder.ofCode bo) (indexBase ib)) s

end Sys2Proof.Machine
end

