-- ==== Sys2Proof/Machine/Deal.lean ====
section
/-! DEFINITION. DEAL in this source's variant: key schedule, round transform, block cipher and the six DEAL commands
(43_deal.md). -/

namespace Sys2Proof.Machine

/-- `constant_i`: "eight zero bytes with the last byte set to i+1" (43_deal.md R141). -/
def dealConstant (i : Nat) : Bytes := [0, 0, 0, 0, 0, 0, 0, BitVec.ofNat 8 (i + 1)]

/-- `deal_keygen(mk)`: six 8-byte round keys, three under `K1 = mk[0:8]` and three under `K2 = mk[8:16]` (43_deal.md R140,
R142). -/
def dealKeygen (mk : Bytes) : List Bytes :=
  let three := fun (k : Bytes) => (List.range 3).map fun i => desEncrypt (desKeygen k) (dealConstant i)
  three (mk.take 8) ++ three (mk.drop 8)

/-- The duplicated half: the half followed by itself by default, each byte twice for the OPEN alternative (43_deal.md
R143, 92_eei_decisions.md D20). -/
def dealDuplicate (dup : DealDup) (half : Bytes) : Bytes :=
  match dup with
  | .halfTwice => half ++ half
  | .byteTwice => half.flatMap fun b => [b, b]

/-- `deal_f(hh, k)` (43_deal.md R143). -/
def dealF (dup : DealDup) (half k : Bytes) : Bytes :=
  (desEncrypt (desKeygen k) (dealDuplicate dup half)).take 4

/-- `deal_encrypt(rk, blk)` (43_deal.md R144). -/
def dealEncrypt (dup : DealDup) (rk : List Bytes) (blk : Bytes) : Bytes := feistel (dealF dup) rk blk

/-- `deal_decrypt(rk, blk)` (43_deal.md R144). -/
def dealDecrypt (dup : DealDup) (rk : List Bytes) (blk : Bytes) : Bytes := feistelDec (dealF dup) rk blk

/-! ### Commands -/

/-- DEAL_SETKEY (43_deal.md R145). -/
def execDealSetKey (s : State) : Result :=
  require (s.klen = 16) .invalidArg s fun _ =>
  withBytes .kbuf 16 s fun mk =>
  succeedScalar 0 { s with deal := { keyed := true, rk := dealKeygen mk } }

/-- DEAL_ENC (43_deal.md R146). -/
def execDealEnc (s : State) : Result :=
  require (s.deal.keyed = true) .notKeyed s fun _ =>
  require (s.len = 8) .invalidArg s fun _ =>
  withBytes .ibuf 8 s fun blk =>
  succeedBytes (dealEncrypt s.params.dealDup s.deal.rk blk) s

/-- DEAL_DEC (43_deal.md R147). -/
def execDealDec (s : State) : Result :=
  require (s.deal.keyed = true) .notKeyed s fun _ =>
  require (s.len = 8) .invalidArg s fun _ =>
  withBytes .ibuf 8 s fun blk =>
  succeedBytes (dealDecrypt s.params.dealDup s.deal.rk blk) s

/-- DEAL_KEYGEN (43_deal.md R148). -/
def execDealKeyGen (s : State) : Result :=
  require (s.klen = 16) .invalidArg s fun _ =>
  withBytes .kbuf 16 s fun mk =>
  succeedBytes (dealKeygen mk).flatten s

/-- DEAL_ROUNDF (43_deal.md R149). -/
def execDealRoundF (s : State) : Result :=
  require (s.len = 4 ∧ s.klen = 8) .invalidArg s fun _ =>
  withBytes .ibuf 4 s fun half =>
  withBytes .kbuf 8 s fun k =>
  succeedBytes (dealF s.params.dealDup half k) s

/-- DEAL_ROUND (43_deal.md R150). -/
def execDealRound (s : State) : Result :=
  require (s.len = 8 ∧ s.klen = 8) .invalidArg s fun _ =>
  withBytes .ibuf 8 s fun b =>
  withBytes .kbuf 8 s fun k =>
  succeedBytes (feistelStep (dealF s.params.dealDup) k b) s

end Sys2Proof.Machine
end

