-- ==== Sys2Proof/Machine/Gf256.lean ====
section
/-! DEFINITION. GF(2^8) with a chosen modulus: arithmetic, irreducibility and the six GF commands (44_gf256.md). A
polynomial over GF(2) is the natural number whose bit i is the coefficient of x^i (R155). -/

namespace Sys2Proof.Machine

/-! ### Polynomials over GF(2) (44_gf256.md R155) -/

/-- Carry-less long division of `p` by the nonzero `d`, with at most `fuel` subtractions: (quotient, remainder). -/
def polyDivModFuel (d : Nat) : Nat → Nat → Nat → Nat × Nat
  | 0, q, p => (q, p)
  | fuel + 1, q, p =>
    if p < 2 ^ d.log2 then (q, p)
    else
      let k := p.log2 - d.log2
      polyDivModFuel d fuel (q ^^^ 2 ^ k) (p ^^^ d <<< k)

/-- `polydivmod(p, d)`: each subtraction clears the top bit of `p`, so `log2 p + 1` of them are enough
(notes/assumptions/12.md). -/
def polyDivMod (p d : Nat) : Nat × Nat := polyDivModFuel d (p.log2 + 1) 0 p

/-- `polymod(p, d)` (44_gf256.md R155). -/
def polyMod (p d : Nat) : Nat := (polyDivMod p d).2

/-- `clmul(a, b)`: the carry-less product (44_gf256.md R159). -/
def clMul (a b : Nat) : Nat :=
  (List.range (b.log2 + 1)).foldl (fun acc i => if b.testBit i then acc ^^^ a <<< i else acc) 0

/-- The reduction polynomial `m | 0x100` (44_gf256.md R155). -/
def modulusPoly (m : Byte) : Nat := m.toNat + 0x100

/-! ### Field functions -/

/-- `gf_add(a, b)` (44_gf256.md R157). -/
def gfAdd (a b : Byte) : Byte := a ^^^ b

/-- Shift left by one and reduce on overflow of bit 7 (44_gf256.md R158). -/
def gfDouble (a m : Byte) : Byte := if a.msb then a <<< 1 ^^^ m else a <<< 1

/-- The iterations of `gf_mul` for the bits `i` and up of `b`, `n` of them (44_gf256.md R158). -/
def gfMulLoop (b m : Byte) : Nat → Nat → Byte → Byte → Byte
  | 0, _, p, _ => p
  | n + 1, i, p, a => gfMulLoop b m n (i + 1) (if b.getLsbD i then p ^^^ a else p) (gfDouble a m)

/-- `gf_mul(a, b, m)` (44_gf256.md R158). -/
def gfMul (a b m : Byte) : Byte := gfMulLoop b m 8 0 0 a

/-- The loop of `gf_inv` on (r0, r1, s0, s1), with at most `fuel` divisions (44_gf256.md R159). -/
def gfInvLoop : Nat → Nat → Nat → Nat → Nat → Nat
  | 0, _, _, s0, _ => s0
  | fuel + 1, r0, r1, s0, s1 =>
    if r1 = 0 then s0
    else
      let qr := polyDivMod r0 r1
      gfInvLoop fuel r1 qr.2 s1 (s0 ^^^ clMul qr.1 s1)

/-- `gf_inv(e, m)` for `e ≠ 0` and irreducible `m` (44_gf256.md R159). The degree of r1 falls from at most 7 at every
division, so nine rounds reach r1 = 0 (notes/assumptions/12.md). -/
def gfInv (e m : Byte) : Byte :=
  BitVec.ofNat 8 (polyMod (gfInvLoop 9 (modulusPoly m) e.toNat 0 1) (modulusPoly m))

/-- The square-and-multiply loop of `gf_pow`, for exponents below 2^fuel (44_gf256.md R160). -/
def gfPowLoop (m : Byte) : Nat → Nat → Byte → Byte → Byte
  | 0, _, r, _ => r
  | fuel + 1, k, r, e =>
    if k = 0 then r
    else gfPowLoop m fuel (k / 2) (if k % 2 = 1 then gfMul r e m else r) (gfMul e e m)

/-- `gf_pow(e, k, m)` for an unsigned 32-bit exponent (44_gf256.md R160). -/
def gfPow (e : Byte) (k : Nat) (m : Byte) : Byte := gfPowLoop m 32 k 1 e

/-- `irreducible(p)`: no candidate divisor 2 to 255 divides `p | 0x100` (44_gf256.md R161). -/
def irreducible (p : Byte) : Bool := (List.range' 2 254).all fun d => polyMod (modulusPoly p) d ≠ 0

/-- `all_irreducible()`: every irreducible byte in increasing order (44_gf256.md R162). -/
def allIrreducible : Bytes := ((List.range 256).map (BitVec.ofNat 8)).filter irreducible

/-- A command whose modulus is reducible raises E_REDUCIBLE "and computes nothing" (44_gf256.md R156). -/
@[inline] def requireIrreducible (m : Byte) (s : State) (go : Unit → Result) : Result :=
  require (irreducible m = true) .reducible s go

/-! ### Commands -/

/-- GF_ADD (44_gf256.md R163): no modulus, no check of one (90_conflicts.md C3). -/
def execGfAdd (s : State) : Result :=
  requireSome (byteArg s.arg0) .invalidArg s fun a =>
  requireSome (byteArg s.arg1) .invalidArg s fun b =>
  succeedScalar (zext32 (gfAdd a b)) s

/-- GF_MUL (44_gf256.md R164). -/
def execGfMul (s : State) : Result :=
  requireSome (byteArg s.arg0) .invalidArg s fun a =>
  requireSome (byteArg s.arg1) .invalidArg s fun b =>
  requireSome (byteArg s.arg2) .invalidArg s fun m =>
  requireIrreducible m s fun _ =>
  succeedScalar (zext32 (gfMul a b m)) s

/-- GF_INV (44_gf256.md R165): the source's "undefined" for 0 is E_ZERO_INV. -/
def execGfInv (s : State) : Result :=
  requireSome (byteArg s.arg0) .invalidArg s fun e =>
  requireSome (byteArg s.arg2) .invalidArg s fun m =>
  requireIrreducible m s fun _ =>
  require (e ≠ 0) .zeroInv s fun _ =>
  succeedScalar (zext32 (gfInv e m)) s

/-- GF_POW (44_gf256.md R166). -/
def execGfPow (s : State) : Result :=
  requireSome (byteArg s.arg0) .invalidArg s fun e =>
  requireSome (byteArg s.arg2) .invalidArg s fun m =>
  requireIrreducible m s fun _ =>
  succeedScalar (zext32 (gfPow e s.arg1.toNat m)) s

/-- GF_ISIRRED (44_gf256.md R167): a reducible operand is a result, not an error. -/
def execGfIsIrred (s : State) : Result :=
  requireSome (byteArg s.arg0) .invalidArg s fun p =>
  succeedScalar (if irreducible p then 1 else 0) s

/-- GF_LISTIRRED (44_gf256.md R168): the 30 bytes of R162 in OBUF, and RES = 30. -/
def execGfListIrred (s : State) : Result := .next (s.completed 30 allIrreducible)

end Sys2Proof.Machine
end

