-- ==== Sys2Proof/Machine/Rijndael.lean ====
section
/-! DEFINITION. Rijndael over a chosen modulus: S-box, round steps, key expansion, block cipher and the fifteen RIJ commands
(45_rijndael.md). The state is a byte string; byte `i` is the matrix cell at row `i mod 4`, column `i div 4` (R176). -/

namespace Sys2Proof.Machine

/-! ### S-box -/

/-- The affine transform (45_rijndael.md R177). -/
def affine (b : Byte) : Byte :=
  b ^^^ b.rotateLeft 1 ^^^ b.rotateLeft 2 ^^^ b.rotateLeft 3 ^^^ b.rotateLeft 4 ^^^ 0x63

/-- `S_m[x]` (45_rijndael.md R178). -/
def sboxAt (m x : Byte) : Byte := if x = 0 then 0x63 else affine (gfInv x m)

/-- `S_m[0..255]` (45_rijndael.md R178). -/
def sboxTable (m : Byte) : Bytes := (List.range 256).map fun x => sboxAt m (BitVec.ofNat 8 x)

/-- The exact inverse mapping of a table: the place at which a value stands (45_rijndael.md R179). -/
def inverseTable (table : Bytes) : Bytes := (List.range 256).map fun y => BitVec.ofNat 8 (table.idxOf (BitVec.ofNat 8 y))

/-- `IS_m[0..255]` (45_rijndael.md R179). -/
def invSboxTable (m : Byte) : Bytes := inverseTable (sboxTable m)

/-- Lookup of a byte in a table of 256. -/
def lookupByte (table : Bytes) (x : Byte) : Byte := table.getD x.toNat 0

/-! ### Round steps -/

/-- SubBytes with a given table, InvSubBytes with its inverse (45_rijndael.md R180). -/
def subBytes (table : Bytes) (st : Bytes) : Bytes := st.map (lookupByte table)

/-- A permutation of the matrix cells in which row `r`, column `c` takes the cell of row `r`, column `src r c`. -/
def moveRows (src : Nat → Nat → Nat) (st : Bytes) : Bytes :=
  (List.range st.length).map fun i => st.getD (i % 4 + 4 * src (i % 4) (i / 4)) 0

/-- ShiftRows: `out[r][c] = st[r][(c + r) mod Nb]`, for every block size (45_rijndael.md R181). -/
def shiftRows (st : Bytes) : Bytes := moveRows (fun r c => (c + r) % (st.length / 4)) st

/-- InvShiftRows: `out[r][c] = st[r][(c - r) mod Nb]` (45_rijndael.md R181). -/
def invShiftRows (st : Bytes) : Bytes := moveRows (fun r c => (c + st.length / 4 - r) % (st.length / 4)) st

/-- A function of one column applied to every column (45_rijndael.md R182: "each column is independent of the others"). -/
def mapColumns (f : Byte → Byte → Byte → Byte → Bytes) : Bytes → Bytes
  | s0 :: s1 :: s2 :: s3 :: rest => f s0 s1 s2 s3 ++ mapColumns f rest
  | _ => []

/-- One column of MixColumns (45_rijndael.md R182). -/
def mixColumn (m s0 s1 s2 s3 : Byte) : Bytes :=
  [gfMul 2 s0 m ^^^ gfMul 3 s1 m ^^^ s2 ^^^ s3,
   s0 ^^^ gfMul 2 s1 m ^^^ gfMul 3 s2 m ^^^ s3,
   s0 ^^^ s1 ^^^ gfMul 2 s2 m ^^^ gfMul 3 s3 m,
   gfMul 3 s0 m ^^^ s1 ^^^ s2 ^^^ gfMul 2 s3 m]

/-- One column of InvMixColumns: `s_r' = XOR_j gf_mul(c[(j - r) mod 4], s_j, m)` with `c = [14, 11, 13, 9]`
(45_rijndael.md R183). -/
def invMixColumn (m s0 s1 s2 s3 : Byte) : Bytes :=
  [gfMul 14 s0 m ^^^ gfMul 11 s1 m ^^^ gfMul 13 s2 m ^^^ gfMul 9 s3 m,
   gfMul 9 s0 m ^^^ gfMul 14 s1 m ^^^ gfMul 11 s2 m ^^^ gfMul 13 s3 m,
   gfMul 13 s0 m ^^^ gfMul 9 s1 m ^^^ gfMul 14 s2 m ^^^ gfMul 11 s3 m,
   gfMul 11 s0 m ^^^ gfMul 13 s1 m ^^^ gfMul 9 s2 m ^^^ gfMul 14 s3 m]

def mixColumns (m : Byte) (st : Bytes) : Bytes := mapColumns (mixColumn m) st

def invMixColumns (m : Byte) (st : Bytes) : Bytes := mapColumns (invMixColumn m) st

/-- `AddRoundKey(st, k)` (45_rijndael.md R184). -/
def addRoundKey (st k : Bytes) : Bytes := xorBytes st k

/-- A middle round (45_rijndael.md R189, R204). -/
def rijRound (table : Bytes) (m : Byte) (st k : Bytes) : Bytes :=
  addRoundKey (mixColumns m (shiftRows (subBytes table st))) k

/-- The final round (45_rijndael.md R189, R205). -/
def rijFinalRound (table : Bytes) (st k : Bytes) : Bytes := addRoundKey (shiftRows (subBytes table st)) k

/-! ### Key expansion -/

/-- The pieces of `size` bytes of a byte string from offset 0, `n` of them (45_rijndael.md R185, 46_modes_padding.md
R216). -/
def pieces (size : Nat) : Nat → Bytes → List Bytes
  | 0, _ => []
  | n + 1, d => d.take size :: pieces size n (d.drop size)

/-- `Nr = max(Nb, Nk) + 6` (45_rijndael.md R175). -/
def rijRounds (bs ks : Nat) : Nat := max (bs / 4) (ks / 4) + 6

/-- RotWord (45_rijndael.md R186). -/
def rotWord (w : Bytes) : Bytes := w.drop 1 ++ w.take 1

/-- The round constant of word `i`, XORed into byte 0 of the word only (45_rijndael.md R186). -/
def roundConstant (m : Byte) (nk i : Nat) : Bytes := [gfPow 0x02 (i / nk - 1) m, 0, 0, 0]

/-- Word `i` of the schedule from the words before it, newest first (45_rijndael.md R185, R187). -/
def nextWord (table : Bytes) (m : Byte) (nk i : Nat) (before : List Bytes) : Bytes :=
  let t := before.headD []
  let t' :=
    if i % nk = 0 then xorBytes (subBytes table (rotWord t)) (roundConstant m nk i)
    else if 6 < nk ∧ i % nk = 4 then subBytes table t
    else t
  xorBytes (before.getD (nk - 1) []) t'

/-- `n` more words from word `i` on, newest first. -/
def expandWords (table : Bytes) (m : Byte) (nk : Nat) : Nat → Nat → List Bytes → List Bytes
  | 0, _, before => before
  | n + 1, i, before => expandWords table m nk n (i + 1) (nextWord table m nk i before :: before)

/-- `rij_keygen(key, bs, m)` with the S-box of `m` given: Nr+1 round keys of `bs` bytes (45_rijndael.md R185). -/
def rijKeygen (table : Bytes) (key : Bytes) (bs : Nat) (m : Byte) : List Bytes :=
  let nk := key.length / 4
  let nb := bs / 4
  let nr := rijRounds bs key.length
  let words := expandWords table m nk (nb * (nr + 1) - nk) nk (pieces 4 nk key).reverse
  pieces bs (nr + 1) words.reverse.flatten

/-! ### Block cipher -/

/-- Round key `r` of an instance. -/
def RijInst.roundKey (r : RijInst) (i : Nat) : Bytes := r.rk.getD i []

/-- `rij_encrypt(inst, blk)` (45_rijndael.md R189). -/
def rijEncrypt (r : RijInst) (blk : Bytes) : Bytes :=
  let st := (List.range' 1 (r.nr - 1)).foldl (fun st i => rijRound r.sbox r.m st (r.roundKey i))
    (addRoundKey blk (r.roundKey 0))
  rijFinalRound r.sbox st (r.roundKey r.nr)

/-- `rij_decrypt(inst, blk)` (45_rijndael.md R190). -/
def rijDecrypt (r : RijInst) (blk : Bytes) : Bytes :=
  let st := (List.range' 1 (r.nr - 1)).reverse.foldl
    (fun st i => invMixColumns r.m (addRoundKey (subBytes r.invSbox (invShiftRows st)) (r.roundKey i)))
    (addRoundKey blk (r.roundKey r.nr))
  addRoundKey (subBytes r.invSbox (invShiftRows st)) (r.roundKey 0)

/-- The instance that RIJ_SETKEY builds: "the S-boxes are built once here" (45_rijndael.md R191). -/
def RijInst.build (bs : Nat) (m : Byte) (key : Bytes) : RijInst :=
  let table := sboxTable m
  { keyed := true, bs := bs, ks := key.length, m := m, nr := rijRounds bs key.length,
    rk := rijKeygen table key bs m, sbox := table, invSbox := inverseTable table }

/-! ### Commands -/

/-- The checks and the key of RIJ_SETKEY and RIJ_KEYGEN, in the order of 60_exceptions.md R253 (45_rijndael.md R191,
R194). -/
@[inline] def withRijKey (bsc : BitVec 2) (s : State) (go : Nat → Byte → Bytes → Result) : Result :=
  requireSome (blockSizeOf bsc) .unsupported s fun bs =>
  require (rijSize s.klen.toNat) .invalidArg s fun _ =>
  requireSome (byteArg s.arg2) .invalidArg s fun m =>
  requireIrreducible m s fun _ =>
  withBytes .kbuf s.klen.toNat s fun key =>
  go bs m key

/-- RIJ_SETKEY (45_rijndael.md R191). -/
def execRijSetKey (bsc : BitVec 2) (s : State) : Result :=
  withRijKey bsc s fun bs m key =>
  succeedScalar 0 { s with rij := RijInst.build bs m key }

/-- RIJ_ENC (45_rijndael.md R192). -/
def execRijEnc (s : State) : Result :=
  require (s.rij.keyed = true) .notKeyed s fun _ =>
  require (s.len.toNat = s.rij.bs) .invalidArg s fun _ =>
  withBytes .ibuf s.rij.bs s fun blk =>
  succeedBytes (rijEncrypt s.rij blk) s

/-- RIJ_DEC (45_rijndael.md R193). -/
def execRijDec (s : State) : Result :=
  require (s.rij.keyed = true) .notKeyed s fun _ =>
  require (s.len.toNat = s.rij.bs) .invalidArg s fun _ =>
  withBytes .ibuf s.rij.bs s fun blk =>
  succeedBytes (rijDecrypt s.rij blk) s

/-- RIJ_KEYGEN (45_rijndael.md R194). DESIGN CHOICE: the output has `(Nr + 1)·bs` bytes, as R194's pseudocode says; its corner
cases give other lengths for 192-bit blocks (notes/assumptions/15.md). -/
def execRijKeyGen (bsc : BitVec 2) (s : State) : Result :=
  withRijKey bsc s fun bs m key =>
  succeedBytes (rijKeygen (sboxTable m) key bs m).flatten s

/-- RIJ_SBOX (45_rijndael.md R195). -/
def execRijSBox (s : State) : Result :=
  requireSome (byteArg s.arg0) .invalidArg s fun x =>
  requireSome (byteArg s.arg2) .invalidArg s fun m =>
  requireIrreducible m s fun _ =>
  succeedScalar (zext32 (sboxAt m x)) s

/-- RIJ_INVSBOX (45_rijndael.md R196). -/
def execRijInvSBox (s : State) : Result :=
  requireSome (byteArg s.arg0) .invalidArg s fun x =>
  requireSome (byteArg s.arg2) .invalidArg s fun m =>
  requireIrreducible m s fun _ =>
  succeedScalar (zext32 (lookupByte (invSboxTable m) x)) s

/-- A step command on the state `IBUF[0:LEN]` with the modulus ARG2 (45_rijndael.md R197, R201). -/
@[inline] def withRijState (s : State) (go : Byte → Bytes → Result) : Result :=
  require (rijSize s.len.toNat) .invalidArg s fun _ =>
  requireSome (byteArg s.arg2) .invalidArg s fun m =>
  requireIrreducible m s fun _ =>
  withBytes .ibuf s.len.toNat s fun st =>
  go m st

/-- RIJ_SUBBYTES (45_rijndael.md R197). -/
def execRijSubBytes (s : State) : Result :=
  withRijState s fun m st => succeedBytes (subBytes (sboxTable m) st) s

/-- RIJ_INVSUBBYTES (45_rijndael.md R198). -/
def execRijInvSubBytes (s : State) : Result :=
  withRijState s fun m st => succeedBytes (subBytes (invSboxTable m) st) s

/-- RIJ_SHIFTROWS (45_rijndael.md R199): no modulus is read. -/
def execRijShiftRows (s : State) : Result :=
  require (rijSize s.len.toNat) .invalidArg s fun _ =>
  withBytes .ibuf s.len.toNat s fun st =>
  succeedBytes (shiftRows st) s

/-- RIJ_INVSHIFTROWS (45_rijndael.md R200). -/
def execRijInvShiftRows (s : State) : Result :=
  require (rijSize s.len.toNat) .invalidArg s fun _ =>
  withBytes .ibuf s.len.toNat s fun st =>
  succeedBytes (invShiftRows st) s

/-- RIJ_MIXCOLUMNS (45_rijndael.md R201). -/
def execRijMixColumns (s : State) : Result :=
  withRijState s fun m st => succeedBytes (mixColumns m st) s

/-- RIJ_INVMIXCOLUMNS (45_rijndael.md R202). -/
def execRijInvMixColumns (s : State) : Result :=
  withRijState s fun m st => succeedBytes (invMixColumns m st) s

/-- RIJ_ADDROUNDKEY (45_rijndael.md R203): no modulus is read. -/
def execRijAddRoundKey (s : State) : Result :=
  require (rijSize s.len.toNat ∧ s.klen = s.len) .invalidArg s fun _ =>
  withBytes .ibuf s.len.toNat s fun st =>
  withBytes .kbuf s.len.toNat s fun k =>
  succeedBytes (addRoundKey st k) s

/-- A round command: state `IBUF[0:LEN]`, round key `KBUF[0:LEN]`, modulus ARG2 (45_rijndael.md R204). -/
@[inline] def withRijRound (s : State) (go : Byte → Bytes → Bytes → Result) : Result :=
  require (rijSize s.len.toNat ∧ s.klen = s.len) .invalidArg s fun _ =>
  requireSome (byteArg s.arg2) .invalidArg s fun m =>
  requireIrreducible m s fun _ =>
  withBytes .ibuf s.len.toNat s fun st =>
  withBytes .kbuf s.len.toNat s fun k =>
  go m st k

/-- RIJ_ROUND (45_rijndael.md R204). -/
def execRijRound (s : State) : Result :=
  withRijRound s fun m st k => succeedBytes (rijRound (sboxTable m) m st k) s

/-- RIJ_FINALROUND (45_rijndael.md R205). -/
def execRijFinalRound (s : State) : Result :=
  withRijRound s fun m st k => succeedBytes (rijFinalRound (sboxTable m) st k) s

end Sys2Proof.Machine
end

