-- ==== Sys2Proof/Machine/Modes.lean ====
section
/-! DEFINITION. The chaining modes, the padding unit and the commands MODE_ENC, MODE_DEC, PAD and UNPAD
(46_modes_padding.md). -/

namespace Sys2Proof.Machine

/-! ### The wrapped cipher (46_modes_padding.md R215) -/

/-- The surface `Encrypt(block), Decrypt(block)` of a cipher, its block size and whether it is keyed. -/
structure BlockCipher where
  keyed   : Bool
  bs      : Nat
  encrypt : Bytes → Bytes
  decrypt : Bytes → Bytes

/-- The cipher that CSEL names (46_modes_padding.md R215). -/
def cipherOf (s : State) : CipherSel → BlockCipher
  | .des => { keyed := s.des.keyed, bs := 8, encrypt := desEncrypt s.des.rk, decrypt := desDecrypt s.des.rk }
  | .deal =>
    { keyed := s.deal.keyed, bs := 8,
      encrypt := dealEncrypt s.params.dealDup s.deal.rk, decrypt := dealDecrypt s.params.dealDup s.deal.rk }
  | .rijndael => { keyed := s.rij.keyed, bs := s.rij.bs, encrypt := rijEncrypt s.rij, decrypt := rijDecrypt s.rij }

/-- The blocks `D_0, …, D_{n-1}` of a byte string, `n = ceil(len/bs)`; only the last may be short (46_modes_padding.md
R216). -/
def blocksOf (bs : Nat) (d : Bytes) : List Bytes := pieces bs ((d.length + bs - 1) / bs) d

/-! ### Padding -/

/-- `N = bs - (len mod bs)` (46_modes_padding.md R219). -/
def padCount (bs len : Nat) : Nat := bs - len % bs

/-- How many filler bytes a padding takes: `N - 1` for ISO 10126, none for the others (46_modes_padding.md R221, R222). -/
def fillerCount (scheme : PadScheme) (bs len : Nat) : Nat :=
  match scheme with
  | .iso10126 => padCount bs len - 1
  | _ => 0

/-- `pad_PAD(D, bs)` with the filler oracle (46_modes_padding.md R218 to R222). -/
def padBytes (scheme : PadScheme) (bs : Nat) (filler : Nat → Bytes) (d : Bytes) : Bytes :=
  let n := padCount bs d.length
  match scheme with
  | .zeros => d ++ List.replicate ((bs - d.length % bs) % bs) 0
  | .pkcs7 => d ++ List.replicate n (BitVec.ofNat 8 n)
  | .ansix923 => d ++ List.replicate (n - 1) 0 ++ [BitVec.ofNat 8 n]
  | .iso10126 => d ++ filler (n - 1) ++ [BitVec.ofNat 8 n]

/-- Removal of a pad whose last byte is its length `N`: `D[0 : len-N]` when `1 ≤ N ≤ bs`, `N ≤ len` and the bytes before
the last one of the final `N` pass the check, else `D` unchanged (46_modes_padding.md R224 to R227). -/
def unpadCounted (check : Byte → Byte → Bool) (bs : Nat) (d : Bytes) : Bytes :=
  match d.getLast? with
  | none => d
  | some last =>
    let n := last.toNat
    if 1 ≤ n ∧ n ≤ bs ∧ n ≤ d.length ∧ (((d.drop (d.length - n)).dropLast).all (check last) = true) then
      d.take (d.length - n)
    else d

/-- `unpad_PAD(D, bs)` (46_modes_padding.md R223 to R226). The PKCS7 check covers the final `N` bytes, the last one
included (90_conflicts.md C2), which equals itself. -/
def unpadBytes (scheme : PadScheme) (bs : Nat) (d : Bytes) : Bytes :=
  match scheme with
  | .zeros => (d.reverse.dropWhile (· = 0)).reverse
  | .pkcs7 => unpadCounted (fun last b => b = last) bs d
  | .ansix923 => unpadCounted (fun _ b => b = 0) bs d
  | .iso10126 => unpadCounted (fun _ _ => true) bs d

/-! ### Chaining modes, on the list of blocks -/

/-- CBC encryption (46_modes_padding.md R229). -/
def cbcEncrypt (e : Bytes → Bytes) : Bytes → List Bytes → List Bytes
  | _, [] => []
  | prev, p :: ps =>
    let c := e (xorBytes p prev)
    c :: cbcEncrypt e c ps

/-- CBC decryption (46_modes_padding.md R229). -/
def cbcDecrypt (d : Bytes → Bytes) : Bytes → List Bytes → List Bytes
  | _, [] => []
  | prev, c :: cs => xorBytes (d c) prev :: cbcDecrypt d c cs

/-- CFB encryption with full-block feedback (46_modes_padding.md R230); a short last block takes the first bytes of its
keystream (R232). -/
def cfbEncrypt (e : Bytes → Bytes) : Bytes → List Bytes → List Bytes
  | _, [] => []
  | prev, p :: ps =>
    let c := xorBytes p (e prev)
    c :: cfbEncrypt e c ps

/-- CFB decryption: "only E_c is used in both directions" (46_modes_padding.md R230). -/
def cfbDecrypt (e : Bytes → Bytes) : Bytes → List Bytes → List Bytes
  | _, [] => []
  | prev, c :: cs => xorBytes c (e prev) :: cfbDecrypt e c cs

/-- OFB, encryption and decryption alike (46_modes_padding.md R232). -/
def ofbCrypt (e : Bytes → Bytes) : Bytes → List Bytes → List Bytes
  | _, [] => []
  | prev, x :: xs =>
    let k := e prev
    xorBytes x k :: ofbCrypt e k xs

/-- `T_{j+1} = (T_j + 1) mod 2^(8 bs)`, big-endian (46_modes_padding.md R231). -/
def counterNext (t : Bytes) : Bytes := bytesBE (beNat t + 1) t.length

/-- CTR, encryption and decryption alike (46_modes_padding.md R231). -/
def ctrCrypt (e : Bytes → Bytes) : Bytes → List Bytes → List Bytes
  | _, [] => []
  | t, x :: xs => xorBytes x (e t) :: ctrCrypt e (counterNext t) xs

/-- The blocks that a mode encrypts to (46_modes_padding.md R228 to R232). -/
def modeEncrypt (mode : ChainMode) (c : BlockCipher) (iv : Bytes) (d : Bytes) : Bytes :=
  let blocks := blocksOf c.bs d
  match mode with
  | .ecb => (blocks.map c.encrypt).flatten
  | .cbc => (cbcEncrypt c.encrypt iv blocks).flatten
  | .cfb => (cfbEncrypt c.encrypt iv blocks).flatten
  | .ofb => (ofbCrypt c.encrypt iv blocks).flatten
  | .ctr => (ctrCrypt c.encrypt iv blocks).flatten

/-- The blocks that a mode decrypts to (46_modes_padding.md R228 to R232). -/
def modeDecrypt (mode : ChainMode) (c : BlockCipher) (iv : Bytes) (d : Bytes) : Bytes :=
  let blocks := blocksOf c.bs d
  match mode with
  | .ecb => (blocks.map c.decrypt).flatten
  | .cbc => (cbcDecrypt c.decrypt iv blocks).flatten
  | .cfb => (cfbDecrypt c.encrypt iv blocks).flatten
  | .ofb => (ofbCrypt c.encrypt iv blocks).flatten
  | .ctr => (ctrCrypt c.encrypt iv blocks).flatten

/-- What MODE_ENC outputs: the padded input in ECB and CBC, the input as it is in the stream modes (46_modes_padding.md
R217, R234). -/
def modeEncOutput (mode : ChainMode) (scheme : PadScheme) (c : BlockCipher) (iv : Bytes) (filler : Nat → Bytes)
    (p : Bytes) : Bytes :=
  modeEncrypt mode c iv (if mode.padded then padBytes scheme c.bs filler p else p)

/-- What MODE_DEC outputs (46_modes_padding.md R217, R235). -/
def modeDecOutput (mode : ChainMode) (scheme : PadScheme) (c : BlockCipher) (iv : Bytes) (d : Bytes) : Bytes :=
  let p := modeDecrypt mode c iv d
  if mode.padded then unpadBytes scheme c.bs p else p

/-! ### Commands -/

/-- The checks of MODE_ENC and MODE_DEC in their order, then the input and the IV (46_modes_padding.md R234, R235). The
last check is the one MODE_DEC adds; ECB reads no IV (R228). -/
@[inline] def withMode (mode padc : BitVec 4) (csel : BitVec 2) (lastCheck : ChainMode → BlockCipher → Bool) (s : State)
    (go : ChainMode → PadScheme → BlockCipher → Bytes → Bytes → Result) : Result :=
  requireSome (ChainMode.ofCode mode) .unsupported s fun md =>
  requireSome (PadScheme.ofCode padc) .unsupported s fun scheme =>
  requireSome (CipherSel.ofCode csel) .unsupported s fun sel =>
  let c := cipherOf s sel
  require (c.keyed = true) .notKeyed s fun _ =>
  require (s.len.toNat ≤ s.params.bufBytes) .invalidArg s fun _ =>
  require (md = .ecb ∨ s.ivlen.toNat = c.bs) .invalidArg s fun _ =>
  require (lastCheck md c = true) .invalidArg s fun _ =>
  withBytes .ibuf s.len.toNat s fun d =>
  withBytes .ivbuf (if md = .ecb then 0 else c.bs) s fun iv =>
  go md scheme c d iv

/-- MODE_ENC (46_modes_padding.md R234). -/
def execModeEnc (mode padc : BitVec 4) (csel : BitVec 2) (s : State) : Result :=
  withMode mode padc csel (fun _ _ => true) s fun md scheme c p iv =>
  succeedBytes (modeEncOutput md scheme c iv s.filler p)
    (s.drew (if md.padded then fillerCount scheme c.bs p.length else 0))

/-- MODE_DEC (46_modes_padding.md R235): an ECB or CBC ciphertext is a whole number of blocks. -/
def execModeDec (mode padc : BitVec 4) (csel : BitVec 2) (s : State) : Result :=
  withMode mode padc csel (fun md c => !md.padded || s.len.toNat % c.bs == 0) s fun md scheme c d iv =>
  succeedBytes (modeDecOutput md scheme c iv d) s

/-- The checks of PAD and UNPAD, then the input (46_modes_padding.md R236, R237). -/
@[inline] def withPad (padc : BitVec 4) (s : State) (go : PadScheme → Nat → Bytes → Result) : Result :=
  requireSome (PadScheme.ofCode padc) .unsupported s fun scheme =>
  require (1 ≤ s.arg0.toNat ∧ s.arg0.toNat ≤ 32 ∧ s.len.toNat ≤ s.params.bufBytes) .invalidArg s fun _ =>
  withBytes .ibuf s.len.toNat s fun d =>
  go scheme s.arg0.toNat d

/-- PAD (46_modes_padding.md R236). -/
def execPad (padc : BitVec 4) (s : State) : Result :=
  withPad padc s fun scheme bs d =>
  succeedBytes (padBytes scheme bs s.filler d) (s.drew (fillerCount scheme bs d.length))

/-- UNPAD (46_modes_padding.md R237): a malformed pad is not an error (R227). -/
def execUnpad (padc : BitVec 4) (s : State) : Result :=
  withPad padc s fun scheme bs d =>
  succeedBytes (unpadBytes scheme bs d) s

end Sys2Proof.Machine
end

