-- ==== Sys2Proof/Machine/System.lean ====
section
/-! DEFINITION. The system commands (47_system.md). -/

namespace Sys2Proof.Machine

/-- NOP (47_system.md R245). -/
def execNop (s : State) : Result := succeedScalar 0 s

/-- ZEROIZE (47_system.md R246): the three instances are cleared, the buffers are not. -/
def execZeroize (s : State) : Result :=
  succeedScalar 0 { s with des := .cleared, deal := .cleared, rij := .cleared }

/-- CLRERR (47_system.md R247). -/
def execClrerr (s : State) : Result := succeedScalar 0 { s with errSeen := false }

end Sys2Proof.Machine
end

