-- ==== Sys2Proof/Machine/Dispatch.lean ====
section
/-! DEFINITION. The meaning of each command, one arm per constructor of Instr (30_encoding.md R79). -/

namespace Sys2Proof.Machine

/-- Running one decoded command, as one atomic transition (20_memory.md R59). -/
def exec (i : Instr) (s : State) : Host.Outcome State Fault Refusal :=
  match i with
  | .nop => Sys2Proof.Machine.execNop s
  | .zeroize => Sys2Proof.Machine.execZeroize s
  | .clrerr => Sys2Proof.Machine.execClrerr s
  | .permute bo ib => Sys2Proof.Machine.execPermute bo ib s
  | .gfAdd => Sys2Proof.Machine.execGfAdd s
  | .gfMul => Sys2Proof.Machine.execGfMul s
  | .gfInv => Sys2Proof.Machine.execGfInv s
  | .gfPow => Sys2Proof.Machine.execGfPow s
  | .gfIsIrred => Sys2Proof.Machine.execGfIsIrred s
  | .gfListIrred => Sys2Proof.Machine.execGfListIrred s
  | .desSetKey => Sys2Proof.Machine.execDesSetKey s
  | .desEnc => Sys2Proof.Machine.execDesEnc s
  | .desDec => Sys2Proof.Machine.execDesDec s
  | .desKeyGen => Sys2Proof.Machine.execDesKeyGen s
  | .desRoundF => Sys2Proof.Machine.execDesRoundF s
  | .desRound => Sys2Proof.Machine.execDesRound s
  | .dealSetKey => Sys2Proof.Machine.execDealSetKey s
  | .dealEnc => Sys2Proof.Machine.execDealEnc s
  | .dealDec => Sys2Proof.Machine.execDealDec s
  | .dealKeyGen => Sys2Proof.Machine.execDealKeyGen s
  | .dealRoundF => Sys2Proof.Machine.execDealRoundF s
  | .dealRound => Sys2Proof.Machine.execDealRound s
  | .rijSetKey bs => Sys2Proof.Machine.execRijSetKey bs s
  | .rijEnc => Sys2Proof.Machine.execRijEnc s
  | .rijDec => Sys2Proof.Machine.execRijDec s
  | .rijKeyGen bs => Sys2Proof.Machine.execRijKeyGen bs s
  | .rijSBox => Sys2Proof.Machine.execRijSBox s
  | .rijInvSBox => Sys2Proof.Machine.execRijInvSBox s
  | .rijSubBytes => Sys2Proof.Machine.execRijSubBytes s
  | .rijInvSubBytes => Sys2Proof.Machine.execRijInvSubBytes s
  | .rijShiftRows => Sys2Proof.Machine.execRijShiftRows s
  | .rijInvShiftRows => Sys2Proof.Machine.execRijInvShiftRows s
  | .rijMixColumns => Sys2Proof.Machine.execRijMixColumns s
  | .rijInvMixColumns => Sys2Proof.Machine.execRijInvMixColumns s
  | .rijAddRoundKey => Sys2Proof.Machine.execRijAddRoundKey s
  | .rijRound => Sys2Proof.Machine.execRijRound s
  | .rijFinalRound => Sys2Proof.Machine.execRijFinalRound s
  | .modeEnc mode padc csel => Sys2Proof.Machine.execModeEnc mode padc csel s
  | .modeDec mode padc csel => Sys2Proof.Machine.execModeDec mode padc csel s
  | .pad padc => Sys2Proof.Machine.execPad padc s
  | .unpad padc => Sys2Proof.Machine.execUnpad padc s

end Sys2Proof.Machine
end

