-- ==== Sys2Proof/Machine/Flags.lean ====
section
/-! DEFINITION. STATUS, the only status word (10_state.md R24 to R28, R42): a computed view of the state. -/

namespace Sys2Proof.Machine

/-- The number of an error code (60_exceptions.md R251). -/
def ErrCode.code : ErrCode → BitVec 4
  | .ok => 0
  | .invalidArg => 1
  | .reducible => 2
  | .unsupported => 3
  | .illegal => 4
  | .notKeyed => 5
  | .zeroInv => 6

/-- `code(16) = 0`, `code(24) = 1`, `code(32) = 2` (10_state.md R28). The other sizes do not occur in a keyed instance. -/
def sizeCode (bytes : Nat) : BitVec 2 :=
  match bytes with
  | 24 => 1
  | 32 => 2
  | _ => 0

/-- A Rijndael field of STATUS reads 0 when RIJ_KEYED = 0 (10_state.md R28). -/
def RijInst.shown {w : Nat} (r : RijInst) (v : BitVec w) : BitVec w := if r.keyed then v else 0

/-- STATUS (10_state.md R24), from bit 31 down: RIJ_MOD [31:24], 0 [23:20], RIJ_KS [19:18], RIJ_BS [17:16], 0 [15:9],
ERRSEEN [8], 0 [7], RIJ_KEYED [6], DEAL_KEYED [5], DES_KEYED [4], ERR [3:0]. -/
def State.status (s : State) : Word :=
  s.rij.shown s.rij.m ++ (0 : BitVec 4) ++ s.rij.shown (sizeCode s.rij.ks) ++ s.rij.shown (sizeCode s.rij.bs)
    ++ (0 : BitVec 7) ++ BitVec.ofBool s.errSeen ++ (0 : BitVec 1) ++ BitVec.ofBool s.rij.keyed
    ++ BitVec.ofBool s.deal.keyed ++ BitVec.ofBool s.des.keyed ++ s.err.code

end Sys2Proof.Machine
end

