-- ==== Sys2Proof/Machine/Bus.lean ====
section
/-! DEFINITION. The host window (20_memory.md R50 to R54): which accesses are admitted, what a read returns, what a write
does, and the command that a write of CMD runs (10_state.md R23). -/

namespace Sys2Proof.Machine

/-! ### The address map (20_memory.md R51) -/

/-- The host registers (10_state.md R22). -/
inductive HostReg where
  | cmd
  | status
  | len
  | klen
  | ivlen
  | tlen
  | arg0
  | arg1
  | arg2
  | res
  | outlen
  deriving DecidableEq, Repr

/-- The register at a word-aligned offset below 0x100; none for a reserved one (20_memory.md R51). -/
def regAt (off : Nat) : Option HostReg :=
  match off with
  | 0x00 => some .cmd
  | 0x04 => some .status
  | 0x08 => some .len
  | 0x0C => some .klen
  | 0x10 => some .ivlen
  | 0x14 => some .tlen
  | 0x18 => some .arg0
  | 0x1C => some .arg1
  | 0x20 => some .arg2
  | 0x24 => some .res
  | 0x28 => some .outlen
  | _ => none

/-- Whether a window offset is a byte of the buffer (20_memory.md R51). -/
def Buf.holds (p : Params) (b : Buf) (off : Nat) : Bool := b.base ≤ off && off < b.base + b.size p

/-- The buffer a window offset belongs to; none for a register or a reserved offset (20_memory.md R51). -/
def bufAt (p : Params) (off : Nat) : Option Buf := [Buf.kbuf, .ivbuf, .tbuf, .ibuf, .obuf].find? (·.holds p off)

/-! ### Which accesses are admitted (20_memory.md R52, R53) -/

/-- The width of an access in bytes. -/
def Width.bytes : Width → Nat
  | .w8 => 1
  | .w16 => 2
  | .w32 => 4
  | .w64 => 8

/-- The register range "0x00000 – 0x000FF" (20_memory.md R52). -/
def inRegisters (off : Nat) : Bool := off < 0x100

/-- Why an access is refused; none where it is admitted (20_memory.md R52, R53; 60_exceptions.md R259;
notes/assumptions/10.md). -/
def refusalOf (p : Params) (off : Nat) (w : Width) : Option Refusal :=
  if inRegisters off then
    if w = .w32 ∧ off % 4 = 0 then none else some .registerAccess
  else if w = .w64 then some .access64
  else if off % w.bytes ≠ 0 then some .bufferMisaligned
  else
    match bufAt p off with
    | none => none
    | some b => if b.holds p (off + (w.bytes - 1)) then none else some .bufferStraddles

/-! ### Reads (20_memory.md R53, R54, R58) -/

/-- The value of a register read: CMD reads 0 (10_state.md R22, R23). -/
def State.regRead (s : State) : HostReg → Word
  | .cmd => 0
  | .status => s.status
  | .len => s.len
  | .klen => s.klen
  | .ivlen => s.ivlen
  | .tlen => s.tlen
  | .arg0 => s.arg0
  | .arg1 => s.arg1
  | .arg2 => s.arg2
  | .res => s.res
  | .outlen => s.outlen

/-- The value whose byte string, least significant byte first, is `b` (20_memory.md R53). -/
def leNat : Bytes → Nat
  | [] => 0
  | x :: xs => x.toNat + 256 * leNat xs

/-- The `n` bytes of a value, least significant byte first (20_memory.md R53, R56). -/
def bytesLE (v : Nat) : Nat → Bytes
  | 0 => []
  | n + 1 => BitVec.ofNat 8 v :: bytesLE (v / 256) n

/-- The bytes that a buffer read returns: a byte that holds no value reads as a free byte (10_state.md R34,
93_implementation_defined.md B2; notes/assumptions/4.md). `k` free bytes have been taken before. -/
def readCells (m : Memory) (k off : Nat) : Nat → Bytes
  | 0 => []
  | n + 1 => (m.read off).getD (Config.freeByte k) :: readCells m (k + 1) (off + 1) n

/-- The value that an admitted read returns, zero-extended (20_memory.md R51 to R54). -/
def State.busValue (s : State) (off : Nat) (w : Width) : Word :=
  if inRegisters off then
    match regAt off with
    | some r => s.regRead r
    | none => 0
  else
    match bufAt s.params off with
    | some _ => BitVec.ofNat 32 (leNat (readCells s.mem s.draws off w.bytes))
    | none => 0

/-- A host read: it changes nothing but the model's own fields (20_memory.md R58: "reads have no side effects"). -/
def busRead (off : Nat) (w : Width) (s : State) : Result :=
  match refusalOf s.params off w with
  | some r => .refused r
  | none => .next { s.drew w.bytes with readData := s.busValue off w }

/-! ### Writes (20_memory.md R53, R54, R58) and commands (10_state.md R23) -/

/-- A write of CMD: the core decodes the word and executes it; a word of a wrong shape fails with E_ILLEGAL (30_encoding.md
R78, R80, R81). -/
def runCommand (w : Word) (s : State) : Result :=
  match decode w with
  | .ok i => exec i s
  | .error _ => raiseError .illegal s

/-- A write of a register: STATUS, RES and OUTLEN ignore it (10_state.md R22, 20_memory.md R54). -/
def regWrite (r : HostReg) (v : Word) (s : State) : Result :=
  match r with
  | .cmd => runCommand v s
  | .status => .next s
  | .len => .next { s with len := v }
  | .klen => .next { s with klen := v }
  | .ivlen => .next { s with ivlen := v }
  | .tlen => .next { s with tlen := v }
  | .arg0 => .next { s with arg0 := v }
  | .arg1 => .next { s with arg1 := v }
  | .arg2 => .next { s with arg2 := v }
  | .res => .next s
  | .outlen => .next s

/-- Whether the host may write a buffer: OBUF ignores host writes (10_state.md R33, 20_memory.md R54). -/
def Buf.hostWritable : Buf → Bool
  | .kbuf => true
  | .ivbuf => true
  | .tbuf => true
  | .ibuf => true
  | .obuf => false

/-- A host write of the value `v` (20_memory.md R51 to R54, R56). -/
def busWrite (off : Nat) (w : Width) (v : Nat) (s : State) : Result :=
  match refusalOf s.params off w with
  | some r => .refused r
  | none =>
    if inRegisters off then
      match regAt off with
      | some r => regWrite r (BitVec.ofNat 32 v) s
      | none => .next s
    else
      match bufAt s.params off with
      | some b => if b.hostWritable then .next { s with mem := s.mem.writeRange off (bytesLE v w.bytes) } else .next s
      | none => .next s

/-! ### Host accesses -/

/-- Reset (70_reset_and_hazards.md R270): every piece of the block's state takes its reset value. The machine stays the
same one (its parameters), and what is the host's stays the host's (notes/assumptions/9.md). -/
def State.wasReset (s : State) : State :=
  { State.resetWith s.params with host := s.host, readData := s.readData, draws := s.draws }

/-- What an access of the host does (10_state.md R20). -/
def runAccess (a : HostAccess) (s : State) : Result :=
  match a with
  | .write8 off v => busWrite off.toNat .w8 v.toNat s
  | .write16 off v => busWrite off.toNat .w16 v.toNat s
  | .write32 off v => busWrite off.toNat .w32 v.toNat s
  | .write64 off v => busWrite off.toNat .w64 v.toNat s
  | .read off w => busRead off.toNat w s
  | .reset => .next s.wasReset

/-- The host's next access and the state without it (20_memory.md R60: in program order). -/
def nextAccess (s : State) : Option (HostAccess × State) :=
  match s.host with
  | [] => none
  | a :: rest => some (a, { s with host := rest })

/-- A CMD write becomes the host's next access. -/
def State.pushCommand (s : State) (w : Word) : State := { s with host := .write32 0x00000 w :: s.host }

end Sys2Proof.Machine
end

