-- ==== Sys2Proof/Machine/Step.lean ====
section
/-! DEFINITION. One step: the host's next access takes effect (10_state.md R20, 20_memory.md R60). The block has no program
counter and fetches nothing (10_state.md R21, 20_memory.md R62); the command word is the value of a CMD write. -/

namespace Sys2Proof.Machine

/-- One step. With no access to come "the core is idle between commands and holds its state there" (60_exceptions.md
R263; notes/assumptions/1.md). -/
def step (s : State) : Host.Outcome State Fault Refusal :=
  match nextAccess s with
  | none => .next s
  | some (a, s') => runAccess a s'

/-- The state in which the very next step runs the command word whose low `nbits` bits are those of `w`: the host's next
access is a write of that word to CMD (notes/assumptions/1.md). -/
def State.withFetchWord (s : State) (nbits w : Nat) : State :=
  s.pushCommand (BitVec.ofNat 32 (w % 2 ^ nbits))

end Sys2Proof.Machine
end

