-- ==== Sys2Proof/Safety.lean ====
section
/-! DEFINITION. The terms in which claims are stated: the opcode table's rows, what a successful command leaves, what a
command may not change, safe answers, and the invariant of the machine (10_state.md R40). -/

namespace Sys2Proof

/-- The (match, mask) pair of each row of spec/opcode_table.json, in the table's order (30_encoding.md R78). -/
def opcodeTable : List (Word × Word) :=
  [(0x00000000, 0xFFFFFFFF), (0x00000001, 0xFFFFFFFF), (0x00000002, 0xFFFFFFFF), (0x00000008, 0xFFFFFCFF),
   (0x00000010, 0xFFFFFFFF), (0x00000011, 0xFFFFFFFF), (0x00000012, 0xFFFFFFFF), (0x00000013, 0xFFFFFFFF),
   (0x00000014, 0xFFFFFFFF), (0x00000015, 0xFFFFFFFF), (0x00000020, 0xFFFFFFFF), (0x00000021, 0xFFFFFFFF),
   (0x00000022, 0xFFFFFFFF), (0x00000023, 0xFFFFFFFF), (0x00000024, 0xFFFFFFFF), (0x00000025, 0xFFFFFFFF),
   (0x00000028, 0xFFFFFFFF), (0x00000029, 0xFFFFFFFF), (0x0000002A, 0xFFFFFFFF), (0x0000002B, 0xFFFFFFFF),
   (0x0000002C, 0xFFFFFFFF), (0x0000002D, 0xFFFFFFFF), (0x00000030, 0xFFFFF3FF), (0x00000031, 0xFFFFFFFF),
   (0x00000032, 0xFFFFFFFF), (0x00000033, 0xFFFFF3FF), (0x00000034, 0xFFFFFFFF), (0x00000035, 0xFFFFFFFF),
   (0x00000036, 0xFFFFFFFF), (0x00000037, 0xFFFFFFFF), (0x00000038, 0xFFFFFFFF), (0x00000039, 0xFFFFFFFF),
   (0x0000003A, 0xFFFFFFFF), (0x0000003B, 0xFFFFFFFF), (0x0000003C, 0xFFFFFFFF), (0x0000003D, 0xFFFFFFFF),
   (0x0000003E, 0xFFFFFFFF), (0x00000040, 0xFFC00FFF), (0x00000041, 0xFFC00FFF), (0x00000048, 0xFFF0FFFF),
   (0x00000049, 0xFFF0FFFF)]

/-- The (match, mask) pair of a command's own row (30_encoding.md R78, R79). -/
def Instr.tableRow : Instr → Word × Word
  | .nop => (0x00000000, 0xFFFFFFFF)
  | .zeroize => (0x00000001, 0xFFFFFFFF)
  | .clrerr => (0x00000002, 0xFFFFFFFF)
  | .permute _ _ => (0x00000008, 0xFFFFFCFF)
  | .gfAdd => (0x00000010, 0xFFFFFFFF)
  | .gfMul => (0x00000011, 0xFFFFFFFF)
  | .gfInv => (0x00000012, 0xFFFFFFFF)
  | .gfPow => (0x00000013, 0xFFFFFFFF)
  | .gfIsIrred => (0x00000014, 0xFFFFFFFF)
  | .gfListIrred => (0x00000015, 0xFFFFFFFF)
  | .desSetKey => (0x00000020, 0xFFFFFFFF)
  | .desEnc => (0x00000021, 0xFFFFFFFF)
  | .desDec => (0x00000022, 0xFFFFFFFF)
  | .desKeyGen => (0x00000023, 0xFFFFFFFF)
  | .desRoundF => (0x00000024, 0xFFFFFFFF)
  | .desRound => (0x00000025, 0xFFFFFFFF)
  | .dealSetKey => (0x00000028, 0xFFFFFFFF)
  | .dealEnc => (0x00000029, 0xFFFFFFFF)
  | .dealDec => (0x0000002A, 0xFFFFFFFF)
  | .dealKeyGen => (0x0000002B, 0xFFFFFFFF)
  | .dealRoundF => (0x0000002C, 0xFFFFFFFF)
  | .dealRound => (0x0000002D, 0xFFFFFFFF)
  | .rijSetKey _ => (0x00000030, 0xFFFFF3FF)
  | .rijEnc => (0x00000031, 0xFFFFFFFF)
  | .rijDec => (0x00000032, 0xFFFFFFFF)
  | .rijKeyGen _ => (0x00000033, 0xFFFFF3FF)
  | .rijSBox => (0x00000034, 0xFFFFFFFF)
  | .rijInvSBox => (0x00000035, 0xFFFFFFFF)
  | .rijSubBytes => (0x00000036, 0xFFFFFFFF)
  | .rijInvSubBytes => (0x00000037, 0xFFFFFFFF)
  | .rijShiftRows => (0x00000038, 0xFFFFFFFF)
  | .rijInvShiftRows => (0x00000039, 0xFFFFFFFF)
  | .rijMixColumns => (0x0000003A, 0xFFFFFFFF)
  | .rijInvMixColumns => (0x0000003B, 0xFFFFFFFF)
  | .rijAddRoundKey => (0x0000003C, 0xFFFFFFFF)
  | .rijRound => (0x0000003D, 0xFFFFFFFF)
  | .rijFinalRound => (0x0000003E, 0xFFFFFFFF)
  | .modeEnc _ _ _ => (0x00000040, 0xFFC00FFF)
  | .modeDec _ _ _ => (0x00000041, 0xFFC00FFF)
  | .pad _ => (0x00000048, 0xFFF0FFFF)
  | .unpad _ => (0x00000049, 0xFFF0FFFF)

end Sys2Proof

namespace Sys2Proof.Machine

/-- A step that neither faults nor is refused (60_exceptions.md R259). -/
def isNext : Result → Bool
  | .next _ => true
  | .fault _ => false
  | .refused _ => false

/-- `n` steps from `s` meet no fault and no refusal (60_exceptions.md R259). -/
def safeRun : Nat → State → Bool
  | 0, _ => true
  | n + 1, s =>
    match step s with
    | .next t => safeRun n t
    | .fault _ => false
    | .refused _ => false

/-! ### What a command leaves -/

/-- The registers and memory that no command writes: LEN to ARG2, the parameters, every byte outside OBUF (10_state.md
R33: "No command writes IBUF, KBUF, IVBUF or TBUF"), and what is the host's. -/
structure InputsKept (s t : State) : Prop where
  params   : t.params = s.params
  len      : t.len = s.len
  klen     : t.klen = s.klen
  ivlen    : t.ivlen = s.ivlen
  tlen     : t.tlen = s.tlen
  arg0     : t.arg0 = s.arg0
  arg1     : t.arg1 = s.arg1
  arg2     : t.arg2 = s.arg2
  inputs   : ∀ a, a < Buf.obuf.base → t.mem.read a = s.mem.read a
  host     : t.host = s.host
  readData : t.readData = s.readData

/-- What a successful command leaves (60_exceptions.md R256, 10_state.md R31 to R33): ERR is 0, RES the scalar result,
OUTLEN the length of the output, the output in OBUF from offset 0, every other byte of the buffers as it was. -/
structure Completed (s t : State) (res : Word) (out : Bytes) : Prop where
  err    : t.err = .ok
  res    : t.res = res
  outlen : t.outlen = BitVec.ofNat 32 out.length
  output : ∀ i, i < out.length → t.bufByte .obuf i = out[i]?
  others : ∀ a, a < Buf.obuf.base ∨ Buf.obuf.base + out.length ≤ a → t.mem.read a = s.mem.read a
  kept   : InputsKept s t

/-- No cipher instance changes (10_state.md R38). -/
structure InstancesKept (s t : State) : Prop where
  des  : t.des = s.des
  deal : t.deal = s.deal
  rij  : t.rij = s.rij

/-- Success that changes no instance, keeps ERRSEEN (60_exceptions.md R256) and takes no free byte. -/
structure CompletedPlain (s t : State) (res : Word) (out : Bytes) : Prop extends Completed s t res out where
  instances : InstancesKept s t
  errSeen   : t.errSeen = s.errSeen
  draws     : t.draws = s.draws

/-! ### The invariant -/

/-- A DES instance has sixteen 48-bit round keys, and it is the cleared one unless it is keyed (10_state.md R35, R40,
R41). -/
abbrev DesInst.ok (d : DesInst) : Prop :=
  d.rk.length = 16 ∧ (∀ k ∈ d.rk, k.length = 6) ∧ (d.keyed = false → d = DesInst.cleared)

/-- A DEAL instance has six 8-byte round keys, and it is the cleared one unless it is keyed (10_state.md R36, R40,
R41). -/
abbrev DealInst.ok (d : DealInst) : Prop :=
  d.rk.length = 6 ∧ (∀ k ∈ d.rk, k.length = 8) ∧ (d.keyed = false → d = DealInst.cleared)

/-- A keyed Rijndael instance has sizes of 16, 24 or 32 bytes, an irreducible modulus, Nr + 1 round keys of `bs` bytes and
the two S-boxes of its modulus; one that is not keyed is the cleared one (10_state.md R37, R40, R41). -/
abbrev RijInst.ok (r : RijInst) : Prop :=
  (r.keyed = true → rijSize r.bs ∧ rijSize r.ks ∧ irreducible r.m = true ∧ r.nr = rijRounds r.bs r.ks ∧
    r.rk.length = r.nr + 1 ∧ (∀ k ∈ r.rk, k.length = r.bs) ∧ r.sbox = sboxTable r.m ∧ r.invSbox = invSboxTable r.m) ∧
  (r.keyed = false → r = RijInst.cleared)

/-- The invariant (10_state.md R33, R40): parameters in their ranges, memory in canonical form and inside the buffers, the
instances well formed, OUTLEN at most the capacity of OBUF. -/
abbrev State.inv (s : State) : Prop :=
  s.params.inRange ∧ s.mem.wf = true ∧ (∀ c ∈ s.mem, (bufAt s.params c.1).isSome = true) ∧
  s.des.ok ∧ s.deal.ok ∧ s.rij.ok ∧ s.outlen.toNat ≤ s.params.obufBytes

/-! ### Host accesses -/

/-- The state whose next host access is `a`, followed by `rest`. -/
def State.facing (s : State) (a : HostAccess) (rest : List HostAccess) : State := { s with host := a :: rest }

/-- Where a host access goes and how wide it is; none for reset. -/
def HostAccess.place : HostAccess → Option (Nat × Width)
  | .write8 off _ => some (off.toNat, .w8)
  | .write16 off _ => some (off.toNat, .w16)
  | .write32 off _ => some (off.toNat, .w32)
  | .write64 off _ => some (off.toNat, .w64)
  | .read off w => some (off.toNat, w)
  | .reset => none

/-- A host access that writes. -/
def HostAccess.writes : HostAccess → Bool
  | .write8 _ _ => true
  | .write16 _ _ => true
  | .write32 _ _ => true
  | .write64 _ _ => true
  | .read _ _ => false
  | .reset => false

/-- The value that a host access writes; 0 for one that writes nothing. -/
def HostAccess.data : HostAccess → BitVec 64
  | .write8 _ v => v.setWidth 64
  | .write16 _ v => v.setWidth 64
  | .write32 _ v => v.setWidth 64
  | .write64 _ v => v
  | .read _ _ => 0
  | .reset => 0

/-- The reserved ranges of the window, as the address map lists them (20_memory.md R51). -/
def reservedOffset (p : Params) (off : Nat) : Prop :=
  (0x0002C ≤ off ∧ off < 0x00100) ∨ (0x00120 ≤ off ∧ off < 0x00140) ∨ (0x00160 ≤ off ∧ off < 0x01000) ∨
  (0x01000 + 2 * p.tbufEntries ≤ off ∧ off < 0x40000) ∨ (0x40000 + p.bufBytes ≤ off ∧ off < 0x80000) ∨
  0x80000 + p.obufBytes ≤ off

/-! ### The errors of a command, as a table (60_exceptions.md R252, R253) -/

/-- E_UNSUPPORTED (60_exceptions.md R252). -/
def unsupportedWhen : Instr → Bool
  | .rijSetKey bs | .rijKeyGen bs => bs = 3
  | .modeEnc mode padc csel | .modeDec mode padc csel => 5 ≤ mode.toNat || 4 ≤ padc.toNat || csel = 3
  | .pad padc | .unpad padc => 4 ≤ padc.toNat
  | _ => false

/-- Whether the instance that CSEL selects is keyed, and its block size (46_modes_padding.md R215). -/
def selected (s : State) (csel : BitVec 2) : Bool × Nat :=
  match csel.toNat with
  | 0 => (s.des.keyed, 8)
  | 1 => (s.deal.keyed, 8)
  | _ => (s.rij.keyed, s.rij.bs)

/-- E_NOT_KEYED (60_exceptions.md R252). -/
def notKeyedWhen (s : State) : Instr → Bool
  | .desEnc | .desDec => !s.des.keyed
  | .dealEnc | .dealDec => !s.deal.keyed
  | .rijEnc | .rijDec => !s.rij.keyed
  | .modeEnc _ _ csel | .modeDec _ _ csel => !(selected s csel).1
  | _ => false

/-- A length that is none of 16, 24, 32. -/
def badSize (r : Word) : Bool := !(r.toNat == 16 || r.toNat == 24 || r.toNat == 32)

/-- E_INVALID_ARG (60_exceptions.md R252). -/
def invalidArgWhen (s : State) : Instr → Bool
  | .permute _ _ => s.params.bufBytes < s.len.toNat || s.params.tbufEntries < s.tlen.toNat
  | .gfAdd => 0xFF < s.arg0.toNat || 0xFF < s.arg1.toNat
  | .gfMul => 0xFF < s.arg0.toNat || 0xFF < s.arg1.toNat || 0xFF < s.arg2.toNat
  | .gfInv | .gfPow | .rijSBox | .rijInvSBox => 0xFF < s.arg0.toNat || 0xFF < s.arg2.toNat
  | .gfIsIrred => 0xFF < s.arg0.toNat
  | .desSetKey | .desKeyGen => s.klen ≠ 8
  | .desEnc | .desDec | .dealEnc | .dealDec => s.len ≠ 8
  | .desRoundF => s.len ≠ 4 || s.klen ≠ 6
  | .desRound => s.len ≠ 8 || s.klen ≠ 6
  | .dealSetKey | .dealKeyGen => s.klen ≠ 16
  | .dealRoundF => s.len ≠ 4 || s.klen ≠ 8
  | .dealRound => s.len ≠ 8 || s.klen ≠ 8
  | .rijSetKey _ | .rijKeyGen _ => badSize s.klen || 0xFF < s.arg2.toNat
  | .rijEnc | .rijDec => s.len.toNat ≠ s.rij.bs
  | .rijSubBytes | .rijInvSubBytes | .rijMixColumns | .rijInvMixColumns => badSize s.len || 0xFF < s.arg2.toNat
  | .rijShiftRows | .rijInvShiftRows => badSize s.len
  | .rijAddRoundKey => badSize s.len || s.klen ≠ s.len
  | .rijRound | .rijFinalRound => badSize s.len || s.klen ≠ s.len || 0xFF < s.arg2.toNat
  | .modeEnc mode _ csel =>
    s.params.bufBytes < s.len.toNat || (mode ≠ 0 && s.ivlen.toNat ≠ (selected s csel).2)
  | .modeDec mode _ csel =>
    s.params.bufBytes < s.len.toNat || (mode ≠ 0 && s.ivlen.toNat ≠ (selected s csel).2) ||
      (mode.toNat ≤ 1 && s.len.toNat % (selected s csel).2 ≠ 0)
  | .pad _ | .unpad _ => s.arg0.toNat < 1 || 32 < s.arg0.toNat || s.params.bufBytes < s.len.toNat
  | _ => false

/-- E_REDUCIBLE (60_exceptions.md R252). -/
def reducibleWhen (s : State) : Instr → Bool
  | .gfMul | .gfInv | .gfPow | .rijSBox | .rijInvSBox | .rijSubBytes | .rijInvSubBytes | .rijMixColumns
  | .rijInvMixColumns | .rijRound | .rijFinalRound | .rijSetKey _ | .rijKeyGen _ => !irreducible (s.arg2.setWidth 8)
  | _ => false

/-- E_ZERO_INV (60_exceptions.md R252). -/
def zeroInvWhen (s : State) : Instr → Bool
  | .gfInv => s.arg0 = 0
  | _ => false

/-- The first error that applies, "in this fixed order of checks" (60_exceptions.md R253, checks 2 to 6). -/
def firstError (i : Instr) (s : State) : Option ErrCode :=
  if unsupportedWhen i then some .unsupported
  else if notKeyedWhen s i then some .notKeyed
  else if invalidArgWhen s i then some .invalidArg
  else if reducibleWhen s i then some .reducible
  else if zeroInvWhen s i then some .zeroInv
  else none

/-- The first bytes of the buffers that a command reads when its checks pass (30_encoding.md R79, column "reads"; a TBUF
entry is two bytes). -/
def operandRanges (s : State) : Instr → List (Buf × Nat)
  | .permute _ _ => [(.ibuf, s.len.toNat), (.tbuf, 2 * s.tlen.toNat)]
  | .desSetKey | .desKeyGen => [(.kbuf, 8)]
  | .desEnc | .desDec | .dealEnc | .dealDec => [(.ibuf, 8)]
  | .desRoundF => [(.ibuf, 4), (.kbuf, 6)]
  | .desRound => [(.ibuf, 8), (.kbuf, 6)]
  | .dealSetKey | .dealKeyGen => [(.kbuf, 16)]
  | .dealRoundF => [(.ibuf, 4), (.kbuf, 8)]
  | .dealRound => [(.ibuf, 8), (.kbuf, 8)]
  | .rijSetKey _ | .rijKeyGen _ => [(.kbuf, s.klen.toNat)]
  | .rijEnc | .rijDec => [(.ibuf, s.rij.bs)]
  | .rijSubBytes | .rijInvSubBytes | .rijShiftRows | .rijInvShiftRows | .rijMixColumns | .rijInvMixColumns =>
    [(.ibuf, s.len.toNat)]
  | .rijAddRoundKey | .rijRound | .rijFinalRound => [(.ibuf, s.len.toNat), (.kbuf, s.len.toNat)]
  | .modeEnc mode _ csel | .modeDec mode _ csel =>
    (.ibuf, s.len.toNat) :: if mode = 0 then [] else [(.ivbuf, (selected s csel).2)]
  | .pad _ | .unpad _ => [(.ibuf, s.len.toNat)]
  | _ => []

/-! ### What results are, in the spec's words -/

/-- `bit(b, k, order)` (40_permute.md R90), with BO's code for the order (30_encoding.md R72). -/
def stringBit (bo : BitVec 1) (b : Bytes) (k : Nat) : Bool :=
  (b.getD (k / 8) 0).getLsbD (if bo = 1 then 7 - k % 8 else k % 8)

/-- `e` multiplied `k` times (44_gf256.md R160). -/
def gfPower (e m : Byte) : Nat → Byte
  | 0 => 1
  | k + 1 => gfMul (gfPower e m k) e m

/-- Block `j` of a byte string, `D[j·bs : (j+1)·bs]` (46_modes_padding.md R216). -/
def blockAt (bs : Nat) (d : Bytes) (j : Nat) : Bytes := (d.drop (j * bs)).take bs

/-- The matrix cell at row `r`, column `c` of a Rijndael state (45_rijndael.md R176). -/
def cell (st : Bytes) (r c : Nat) : Byte := st.getD (r + 4 * c) 0

/-- The state and the operands let MODE_ENC and MODE_DEC run `mode` with the cipher `sel` on the data `d` and the IV `iv`
(46_modes_padding.md R234, R235). -/
structure ModeReady (s : State) (mode : ChainMode) (sel : CipherSel) (d iv : Bytes) : Prop where
  inv   : s.inv
  keyed : (cipherOf s sel).keyed = true
  len   : s.len.toNat ≤ s.params.bufBytes
  ivlen : mode ≠ .ecb → s.ivlen.toNat = (cipherOf s sel).bs
  data  : s.memRead .ibuf 0 s.len.toNat = some d
  iv    : mode ≠ .ecb → s.memRead .ivbuf 0 (cipherOf s sel).bs = some iv

end Sys2Proof.Machine
end

