-- ==== Sys2Proof/Certificates/Slice0/Obligations.lean ====
section
/-! DEFINITION. The statements for the provers. The text of each one's claim, its rules and its kind are in
OBLIGATIONS.json under the same name. -/

open Sys2Proof Sys2Proof.Machine

/-! ### Encoding (30_encoding.md) -/

/-- Every command, with every value of its fields, decodes from its own word, and no other word decodes to it. -/
def Obligations.DecodeAndEncodeAgree : Prop :=
  (∀ i : Instr, decode (encode i) = .ok i) ∧ ∀ (w : Word) (i : Instr), decode w = .ok i → w = encode i

/-- R78: the words that are commands are those of a (match, mask) row, and every other word fails with E_ILLEGAL in every
state. -/
def Obligations.LegalWordsAreTheTables : Prop :=
  (∀ (w : Word) (row : Word × Word), row ∈ opcodeTable → w &&& row.2 = row.1 →
    ∃ i, decode w = .ok i ∧ i.tableRow = row) ∧
  ∀ w : Word, (∀ row ∈ opcodeTable, w &&& row.2 ≠ row.1) →
    (¬ ∃ i, decode w = .ok i) ∧ ∀ s : State, step (s.pushCommand w) = .next (s.raised .illegal)

/-- Words written out from R71 and R79: each family, and the two kinds of bad word (R81). -/
def Obligations.SpecWordsDecode : Prop :=
  decode 0x00000000 = .ok .nop ∧ decode 0x00000308 = .ok (.permute 1 1) ∧ decode 0x00000011 = .ok .gfMul ∧
  decode 0x00000021 = .ok .desEnc ∧ decode 0x0000002B = .ok .dealKeyGen ∧ decode 0x00000830 = .ok (.rijSetKey 2) ∧
  decode 0x00211040 = .ok (.modeEnc 1 1 2) ∧ decode 0x00114041 = .ok (.modeDec 4 1 1) ∧
  decode 0x00030048 = .ok (.pad 3) ∧ decode 0x00300040 = .ok (.modeEnc 0 0 3) ∧
  (¬ ∃ i, decode 0x80000000 = .ok i) ∧ (¬ ∃ i, decode 0x00000003 = .ok i) ∧ ¬ ∃ i, decode 0x00000121 = .ok i

/-! ### The host window (10_state.md, 20_memory.md) -/

/-- R23: a CMD write runs the decoded command at once, before the host's later accesses; CMD reads 0. -/
def Obligations.CmdWriteRunsTheCommand : Prop :=
  ∀ (s : State) (w : Word) (rest : List HostAccess),
    (∀ i, decode w = .ok i → step (s.facing (.write32 0x00000 w) rest) = exec i { s with host := rest }) ∧
    ((¬ ∃ i, decode w = .ok i) →
      step (s.facing (.write32 0x00000 w) rest) = .next (State.raised { s with host := rest } .illegal)) ∧
    ∃ t, step (s.facing (.read 0x00000 .w32) rest) = .next t ∧ t.readData = 0

/-- R52: in the register range an aligned 32-bit access is never refused, and every narrower or misaligned one is. That an
aligned 64-bit access is refused as well is the model's reading, notes/assumptions/10.md. -/
def Obligations.RegisterAccessAdmission : Prop :=
  ∀ (s : State) (a : HostAccess) (rest : List HostAccess) (off : Nat) (w : Width),
    a.place = some (off, w) → off < 0x100 →
    (w ≠ .w32 ∨ off % 4 ≠ 0 → step (s.facing a rest) = .refused .registerAccess) ∧
    (w = .w32 → off % 4 = 0 → ∀ r, step (s.facing a rest) ≠ .refused r)

/-- R53, R259 and B4, which speak of buffer accesses: outside the registers 64-bit, misaligned and straddling accesses are
refused under their own names, and every other access has its transition. That 64-bit and misaligned accesses at RESERVED
offsets are refused too, and that an access that is both gets the 64-bit name, is the model's choice,
notes/assumptions/10.md. -/
def Obligations.BufferAccessAdmission : Prop :=
  ∀ (s : State) (a : HostAccess) (rest : List HostAccess) (off : Nat) (w : Width),
    s.params.inRange → a.place = some (off, w) → 0x100 ≤ off →
    (w = .w64 → step (s.facing a rest) = .refused .access64) ∧
    (w ≠ .w64 → off % w.bytes ≠ 0 → step (s.facing a rest) = .refused .bufferMisaligned) ∧
    (w ≠ .w64 → off % w.bytes = 0 →
      (∃ b : Buf, b.base ≤ off ∧ off < b.base + b.size s.params ∧ b.base + b.size s.params < off + w.bytes) →
      step (s.facing a rest) = .refused .bufferStraddles) ∧
    (w ≠ .w64 → off % w.bytes = 0 →
      (∀ b : Buf, b.base ≤ off → off < b.base + b.size s.params → off + w.bytes ≤ b.base + b.size s.params) →
      ∃ t, step (s.facing a rest) = .next t)

/-- R51, R53, R56, R58: an aligned 8-, 16- or 32-bit access inside a buffer. A write of KBUF, IVBUF, TBUF or IBUF stores the
bytes of its value, the least significant one at the lowest offset, and changes nothing else. A read of any buffer, OBUF
included, returns in that order every byte that holds a value, zero-extended, and changes nothing but the model's own two
fields; so a later access of any width sees the bytes that a write stored. -/
def Obligations.BufferAccessesLittleEndian : Prop :=
  ∀ (s : State) (a : HostAccess) (rest : List HostAccess) (b : Buf) (k : Nat) (w : Width),
    s.params.inRange → w ≠ .w64 → k % w.bytes = 0 → k + w.bytes ≤ b.size s.params →
    a.place = some (b.base + k, w) →
    (a.writes = true → b ≠ .obuf →
      ∃ t, step (s.facing a rest) = .next t ∧ t = { s with host := rest, mem := t.mem } ∧
        (∀ j < w.bytes, t.bufByte b (k + j) = some (a.data.extractLsb' (8 * j) 8)) ∧
        ∀ o, o < b.base + k ∨ b.base + k + w.bytes ≤ o → t.mem.read o = s.mem.read o) ∧
    (a.writes = false →
      ∃ t, step (s.facing a rest) = .next t ∧
        t = { s with host := rest, readData := t.readData, draws := t.draws } ∧
        t.readData.toNat < 2 ^ (8 * w.bytes) ∧
        ∀ j < w.bytes, ∀ x, s.bufByte b (k + j) = some x → t.readData.extractLsb' (8 * j) 8 = x)

/-- R54: a read of a reserved offset returns 0; a write to a reserved offset, to OBUF or to STATUS, RES or OUTLEN changes
no state. -/
def Obligations.ReservedAndReadOnlyAccesses : Prop :=
  ∀ (s : State) (a : HostAccess) (rest : List HostAccess) (off : Nat) (w : Width),
    s.params.inRange → a.place = some (off, w) → refusalOf s.params off w = none →
    (a.writes = true →
      reservedOffset s.params off ∨ (0x80000 ≤ off ∧ off < 0x80000 + s.params.obufBytes) ∨ off = 0x04 ∨ off = 0x24 ∨
        off = 0x28 →
      step (s.facing a rest) = .next { s with host := rest }) ∧
    (a.writes = false → reservedOffset s.params off → ∃ t, step (s.facing a rest) = .next t ∧ t.readData = 0)

/-- R22: what a write of each read/write register stores and what a read of each register returns; a read changes nothing
but the model's own two fields (R58). -/
def Obligations.RegistersStoreAndReadBack : Prop :=
  ∀ (s : State) (v : Word) (rest : List HostAccess),
    step (s.facing (.write32 0x08 v) rest) = .next { s with host := rest, len := v } ∧
    step (s.facing (.write32 0x0C v) rest) = .next { s with host := rest, klen := v } ∧
    step (s.facing (.write32 0x10 v) rest) = .next { s with host := rest, ivlen := v } ∧
    step (s.facing (.write32 0x14 v) rest) = .next { s with host := rest, tlen := v } ∧
    step (s.facing (.write32 0x18 v) rest) = .next { s with host := rest, arg0 := v } ∧
    step (s.facing (.write32 0x1C v) rest) = .next { s with host := rest, arg1 := v } ∧
    step (s.facing (.write32 0x20 v) rest) = .next { s with host := rest, arg2 := v } ∧
    ∀ p ∈ [((0x04 : Offset), s.status), (0x08, s.len), (0x0C, s.klen), (0x10, s.ivlen), (0x14, s.tlen), (0x18, s.arg0),
        (0x1C, s.arg1), (0x20, s.arg2), (0x24, s.res), (0x28, s.outlen)],
      ∃ t, step (s.facing (.read p.1 .w32) rest) = .next t ∧ t.readData = p.2 ∧
        t = { s with host := rest, readData := t.readData, draws := t.draws }

/-- R58: no host access but a CMD write, and reset, changes STATUS, RES, OUTLEN, a byte of OBUF or an instance; a read
changes no state of the block at all. The last clause (with no access to come the machine holds its state) is the model's
idle step, notes/assumptions/1.md. -/
def Obligations.OnlyCmdAndResetChangeResults : Prop :=
  (∀ (s t : State) (a : HostAccess) (rest : List HostAccess),
    s.params.inRange → a ≠ .reset → (∀ v, a ≠ .write32 0x00000 v) → step (s.facing a rest) = .next t →
    t.err = s.err ∧ t.errSeen = s.errSeen ∧ t.res = s.res ∧ t.outlen = s.outlen ∧ InstancesKept s t ∧
      ∀ k < s.params.obufBytes, t.bufByte .obuf k = s.bufByte .obuf k) ∧
  (∀ (s t : State) (off : Offset) (w : Width) (rest : List HostAccess),
    step (s.facing (.read off w) rest) = .next t →
    t = { s with host := rest, readData := t.readData, draws := t.draws }) ∧
  ∀ s : State, s.host = [] → step s = .next s

/-! ### Reset and the invariant (10_state.md, 70_reset_and_hazards.md) -/

/-- R270: whenever reset is asserted, every piece of the block's state takes the value of R41. -/
def Obligations.ResetClearsEverything : Prop :=
  ∀ (s : State) (rest : List HostAccess), ∃ t, step (s.facing .reset rest) = .next t ∧
    t.status = 0 ∧ t.err = .ok ∧ t.errSeen = false ∧
    t.len = 0 ∧ t.klen = 0 ∧ t.ivlen = 0 ∧ t.tlen = 0 ∧ t.arg0 = 0 ∧ t.arg1 = 0 ∧ t.arg2 = 0 ∧ t.res = 0 ∧ t.outlen = 0 ∧
    t.des.keyed = false ∧ (∀ k ∈ t.des.rk, ∀ b ∈ k, b = 0) ∧
    t.deal.keyed = false ∧ (∀ k ∈ t.deal.rk, ∀ b ∈ k, b = 0) ∧
    t.rij.keyed = false ∧ t.rij.bs = 0 ∧ t.rij.ks = 0 ∧ t.rij.m = 0 ∧ t.rij.nr = 0 ∧ (∀ k ∈ t.rij.rk, ∀ b ∈ k, b = 0) ∧
    (∀ b ∈ t.rij.sbox, b = 0) ∧ (∀ b ∈ t.rij.invSbox, b = 0) ∧
    ∀ (b : Buf) (k : Nat), t.bufByte b k = none

/-- R41: the same values in the model's reset state. -/
def Obligations.ResetValues : Prop :=
  State.reset.status = 0x00000000 ∧ State.reset.err = .ok ∧ State.reset.errSeen = false ∧
  [State.reset.len, State.reset.klen, State.reset.ivlen, State.reset.tlen, State.reset.arg0, State.reset.arg1,
    State.reset.arg2, State.reset.res, State.reset.outlen] = List.replicate 9 0 ∧
  State.reset.des.keyed = false ∧ State.reset.deal.keyed = false ∧ State.reset.rij.keyed = false ∧
  (∀ k ∈ State.reset.des.rk ++ State.reset.deal.rk ++ State.reset.rij.rk ++
    [State.reset.rij.sbox, State.reset.rij.invSbox, [State.reset.rij.m]], ∀ b ∈ k, b = 0) ∧
  State.reset.rij.bs = 0 ∧ State.reset.rij.ks = 0 ∧ ∀ (b : Buf) (k : Nat), State.reset.bufByte b k = none

/-- The invariant holds after reset (R40, R41). Two of its clauses rest on the model's choices: the suggested parameters are
in range (notes/assumptions/2.md), and the unkeyed Rijndael instance is the cleared one, whose zero schedule has the shape of
notes/assumptions/6.md. -/
def Obligations.ResetMeetsInvariant : Prop := State.reset.inv ∧ State.reset.mem.wf = true

/-- R33, R40: every step from every state that meets the invariant keeps it. The clause that an unkeyed Rijndael instance is
the cleared one fixes the shape of the cleared schedule, the model's choice of notes/assumptions/6.md. -/
def Obligations.StepKeepsInvariant : Prop :=
  ∀ s t : State, s.inv → step s = .next t → t.inv

/-- R24, R28: the fields of STATUS, bit by bit. -/
def Obligations.StatusLayout : Prop :=
  ∀ s : State,
    s.status.extractLsb' 0 4 =
      (match s.err with
       | .ok => 0 | .invalidArg => 1 | .reducible => 2 | .unsupported => 3 | .illegal => 4 | .notKeyed => 5
       | .zeroInv => 6) ∧
    s.status.getLsbD 4 = s.des.keyed ∧ s.status.getLsbD 5 = s.deal.keyed ∧ s.status.getLsbD 6 = s.rij.keyed ∧
    s.status.getLsbD 7 = false ∧ s.status.getLsbD 8 = s.errSeen ∧ s.status.extractLsb' 9 7 = 0 ∧
    s.status.extractLsb' 20 4 = 0 ∧
    (s.rij.keyed = false →
      s.status.extractLsb' 16 2 = 0 ∧ s.status.extractLsb' 18 2 = 0 ∧ s.status.extractLsb' 24 8 = 0) ∧
    (s.rij.keyed = true →
      s.status.extractLsb' 24 8 = s.rij.m ∧
      (s.rij.bs = 16 → s.status.extractLsb' 16 2 = 0) ∧ (s.rij.bs = 24 → s.status.extractLsb' 16 2 = 1) ∧
      (s.rij.bs = 32 → s.status.extractLsb' 16 2 = 2) ∧
      (s.rij.ks = 16 → s.status.extractLsb' 18 2 = 0) ∧ (s.rij.ks = 24 → s.status.extractLsb' 18 2 = 1) ∧
      (s.rij.ks = 32 → s.status.extractLsb' 18 2 = 2))

/-! ### Errors, success and frames (60_exceptions.md) -/

/-- R252, R253: a command ends in the first error of the table that applies, whatever the buffers hold; with none it does
not end in an error. -/
def Obligations.ErrorsInOrder : Prop :=
  (∀ (s : State) (w : Word), (∀ row ∈ opcodeTable, w &&& row.2 ≠ row.1) →
    step (s.pushCommand w) = .next (s.raised .illegal)) ∧
  ∀ (s : State) (w : Word) (i : Instr), decode w = .ok i →
    (∀ e, firstError i s = some e → step (s.pushCommand w) = .next (s.raised e)) ∧
    (firstError i s = none → ∀ t, step (s.pushCommand w) = .next t → t.err = .ok)

/-- R255: an error writes ERR and ERRSEEN and changes nothing else. -/
def Obligations.ErrorChangesOnlyStatus : Prop :=
  ∀ (s t : State) (w : Word), step (s.pushCommand w) = .next t → t.err ≠ .ok →
    t = { s with err := t.err, errSeen := true }

/-- R27: ERRSEEN is set by every command that ends in an error, kept by every other command but CLRERR, and of all host
accesses only reset and a write of the CLRERR word clear it. -/
def Obligations.ErrSeenIsSticky : Prop :=
  (∀ (s t : State) (w : Word), step (s.pushCommand w) = .next t →
    (t.err ≠ .ok → t.errSeen = true) ∧ (t.err = .ok → w ≠ 0x00000002 → t.errSeen = s.errSeen) ∧
    (w = 0x00000002 → t.errSeen = false)) ∧
  ∀ (s t : State) (a : HostAccess) (rest : List HostAccess),
    step (s.facing a rest) = .next t → s.errSeen = true → t.errSeen = false →
    a = .reset ∨ a = .write32 0x00000 0x00000002

/-- R33, R256: no command writes a register that the host writes, a byte outside OBUF, or a byte of OBUF at or beyond the
OUTLEN it sets; the free-value counter and the host's accesses are the model's own. -/
def Obligations.CommandsKeepInputs : Prop :=
  ∀ (i : Instr) (s t : State), s.inv → exec i s = .next t →
    InputsKept s t ∧ (t.err ≠ .ok → t.mem = s.mem) ∧
    ∀ a, a < Buf.obuf.base ∨ Buf.obuf.base + t.outlen.toNat ≤ a → t.mem.read a = s.mem.read a

/-- R34, R65, R259: a command faults exactly when its checks pass and a byte its rule names holds no value. -/
def Obligations.FaultsExactlyOnMissingBytes : Prop :=
  ∀ (i : Instr) (s : State), s.inv →
    ((∃ f, exec i s = .fault f) ↔
      firstError i s = none ∧ ∃ p ∈ operandRanges s i, ∃ k < p.2, s.bufByte p.1 k = none) ∧
    ∀ r, exec i s ≠ .refused r

/-- R65: two states that differ only in buffer bytes which the command's rule does not name give the same outcome: the
same error or fault, the same registers and instances, the same output; and a byte that was the same stays the same. -/
def Obligations.OtherBytesNeverMatter : Prop :=
  ∀ (i : Instr) (s : State) (m : Memory), s.inv → State.inv { s with mem := m } →
    (∀ p ∈ operandRanges s i, ∀ k < p.2, m.read (p.1.base + k) = s.bufByte p.1 k) →
    (∀ f, exec i s = .fault f → exec i { s with mem := m } = .fault f) ∧
    ∀ t, exec i s = .next t → ∃ t', exec i { s with mem := m } = .next t' ∧ t' = { t with mem := t'.mem } ∧
      (t.err = .ok → ∀ k < t.outlen.toNat, t'.bufByte .obuf k = t.bufByte .obuf k) ∧
      ∀ a, m.read a = s.mem.read a → t'.mem.read a = t.mem.read a

/-- R258: "a command never depends on ERR or ERRSEEN". -/
def Obligations.CommandsIgnoreErr : Prop :=
  ∀ (i : Instr) (s : State) (e : ErrCode) (b : Bool),
    exec i { s with err := e } = exec i s ∧
    (∀ f, exec i s = .fault f → exec i { s with errSeen := b } = .fault f) ∧
    ∀ t, exec i s = .next t → ∃ b', exec i { s with errSeen := b } = .next { t with errSeen := b' }

/-- R38, R262: an instance changes only when its own SETKEY command succeeds or ZEROIZE runs. -/
def Obligations.InstancesChangeOnlyBySetkey : Prop :=
  ∀ (i : Instr) (s t : State), exec i s = .next t →
    (t.des = s.des ∨ i = .zeroize ∨ (i = .desSetKey ∧ t.err = .ok)) ∧
    (t.deal = s.deal ∨ i = .zeroize ∨ (i = .dealSetKey ∧ t.err = .ok)) ∧
    (t.rij = s.rij ∨ i = .zeroize ∨ ((∃ bs, i = .rijSetKey bs) ∧ t.err = .ok))

/-! ### System commands (47_system.md) and PERMUTE (40_permute.md) -/

/-- R245 to R247 in every state. -/
def Obligations.SystemCommandsComplete : Prop :=
  ∀ s : State,
    (∃ t, exec .nop s = .next t ∧ CompletedPlain s t 0 []) ∧
    (∃ t, exec .zeroize s = .next t ∧ Completed s t 0 [] ∧ t.errSeen = s.errSeen ∧ t.draws = s.draws ∧
      t.des.keyed = false ∧ t.deal.keyed = false ∧ t.rij.keyed = false ∧
      t.rij.bs = 0 ∧ t.rij.ks = 0 ∧ t.rij.m = 0 ∧ t.rij.nr = 0 ∧
      (∀ k ∈ t.des.rk ++ t.deal.rk ++ t.rij.rk ++ [t.rij.sbox, t.rij.invSbox], ∀ b ∈ k, b = 0)) ∧
    ∃ t, exec .clrerr s = .next t ∧ Completed s t 0 [] ∧ t.errSeen = false ∧ t.draws = s.draws ∧ InstancesKept s t

/-- R90 to R93: PERMUTE, bit by bit. -/
def Obligations.PermuteBitByBit : Prop :=
  ∀ (bo ib : BitVec 1) (s : State) (inp tb : Bytes),
    s.len.toNat ≤ s.params.bufBytes → s.tlen.toNat ≤ s.params.tbufEntries →
    s.memRead .ibuf 0 s.len.toNat = some inp → s.memRead .tbuf 0 (2 * s.tlen.toNat) = some tb →
    ∃ t out, exec (.permute bo ib) s = .next t ∧ CompletedPlain s t 0 out ∧ out.length = (s.tlen.toNat + 7) / 8 ∧
      (∀ k < s.tlen.toNat, ∀ entry, entry = (tb.getD (2 * k) 0).toNat + 256 * (tb.getD (2 * k + 1) 0).toNat →
        (ib.toNat ≤ entry → entry - ib.toNat < 8 * inp.length →
          stringBit bo out k = stringBit bo inp (entry - ib.toNat)) ∧
        (entry < ib.toNat ∨ ib.toNat + 8 * inp.length ≤ entry → stringBit bo out k = false)) ∧
      ∀ k, s.tlen.toNat ≤ k → k < 8 * out.length → stringBit bo out k = false

/-- R94: the identity table returns the input, in either order and under either base. -/
def Obligations.PermuteIdentity : Prop :=
  ∀ (order : BitOrder) (ib : BitVec 1) (inp : Bytes),
    permute inp (List.range' (indexBase ib) (8 * inp.length)) order (indexBase ib) = inp

/-! ### GF(2^8) (44_gf256.md) -/

/-- R163, R164: GF_ADD answers the XOR of its operands (R157), GF_MUL their product in the field of its modulus. -/
def Obligations.GfAddAndMulComplete : Prop :=
  ∀ s : State, s.arg0.toNat ≤ 0xFF → s.arg1.toNat ≤ 0xFF →
    (∃ t, exec .gfAdd s = .next t ∧ CompletedPlain s t (s.arg0 ^^^ s.arg1) []) ∧
    (s.arg2.toNat ≤ 0xFF → irreducible (s.arg2.setWidth 8) = true →
      ∃ t, exec .gfMul s = .next t ∧
        CompletedPlain s t (zext32 (gfMul (s.arg0.setWidth 8) (s.arg1.setWidth 8) (s.arg2.setWidth 8))) [])

/-- R158: the value of gf_mul is the reduced polynomial product, for every modulus byte. -/
def Obligations.GfMulIsPolynomialProduct : Prop :=
  ∀ a b m : Byte, (gfMul a b m).toNat = polyMod (clMul a.toNat b.toNat) (m.toNat + 0x100)

/-- R169: the field laws for every irreducible modulus. -/
def Obligations.GfFieldLaws : Prop :=
  ∀ m : Byte, irreducible m = true → ∀ a b c : Byte,
    gfMul a b m = gfMul b a m ∧ gfMul a (gfAdd b c) m = gfAdd (gfMul a b m) (gfMul a c m) ∧
    gfMul a (gfMul b c m) m = gfMul (gfMul a b m) c m ∧ gfMul a 1 m = a ∧ (a ≠ 0 → gfMul a (gfInv a m) m = 1)

/-- R159, R165: GF_INV answers the one byte whose product with its operand is 1. -/
def Obligations.GfInvCompletes : Prop :=
  ∀ s : State, s.arg0.toNat ≤ 0xFF → s.arg2.toNat ≤ 0xFF → irreducible (s.arg2.setWidth 8) = true → s.arg0 ≠ 0 →
    ∃ t b, exec .gfInv s = .next t ∧ CompletedPlain s t (zext32 b) [] ∧
      gfMul (s.arg0.setWidth 8) b (s.arg2.setWidth 8) = 1 ∧
      ∀ b', gfMul (s.arg0.setWidth 8) b' (s.arg2.setWidth 8) = 1 → b' = b

/-- R160, R166: GF_POW answers its base multiplied ARG1 times, for every 32-bit exponent. -/
def Obligations.GfPowIsRepeatedProduct : Prop :=
  ∀ s : State, s.arg0.toNat ≤ 0xFF → s.arg2.toNat ≤ 0xFF → irreducible (s.arg2.setWidth 8) = true →
    ∃ t, exec .gfPow s = .next t ∧
      CompletedPlain s t (zext32 (gfPower (s.arg0.setWidth 8) (s.arg2.setWidth 8) s.arg1.toNat)) []

/-- R161, R167: GF_ISIRRED answers 0 exactly when the polynomial is a product of two polynomials of degree 1 or more. -/
def Obligations.GfIsIrredFindsFactors : Prop :=
  ∀ s : State, s.arg0.toNat ≤ 0xFF →
    ∃ t r, exec .gfIsIrred s = .next t ∧ CompletedPlain s t r [] ∧ (r = 0 ∨ r = 1) ∧
      (r = 0 ↔ ∃ a b : Nat, 2 ≤ a ∧ 2 ≤ b ∧ clMul a b = s.arg0.toNat + 0x100)

/-- R162, R168: GF_LISTIRRED writes the thirty bytes and answers 30, in every state. -/
def Obligations.GfListIrredThirtyBytes : Prop :=
  ∀ s : State, ∃ t, exec .gfListIrred s = .next t ∧
    CompletedPlain s t 30 [0x1B, 0x1D, 0x2B, 0x2D, 0x39, 0x3F, 0x4D, 0x5F, 0x63, 0x65, 0x69, 0x71, 0x77, 0x7B, 0x87, 0x8B,
      0x8D, 0x9F, 0xA3, 0xA9, 0xB1, 0xBD, 0xC3, 0xCF, 0xD7, 0xDD, 0xE7, 0xF3, 0xF5, 0xF9]

/-! ### Feistel, DES and DEAL (41_feistel.md, 42_des.md, 43_deal.md) -/

/-- R103, R105: decryption inverts encryption for every round function on 4-byte halves, and encryption is the single
rounds of DES_ROUND and DEAL_ROUND one after the other, then one exchange of the halves. -/
def Obligations.FeistelRoundsAndInverse : Prop :=
  ∀ (f : Bytes → Bytes → Bytes) (keys : List Bytes) (x : Bytes),
    (∀ half k, half.length = 4 → (f half k).length = 4) → x.length = 8 →
    feistelDec f keys (feistel f keys x) = x ∧
    (let y := keys.foldl (fun b k => feistelStep f k b) x
     feistel f keys x = y.drop 4 ++ y.take 4)

/-- R124, R145: DES_SETKEY and DEAL_SETKEY load the whole instance and nothing else; R140 to R142: the six DEAL round
keys. -/
def Obligations.DesAndDealSetKeyComplete : Prop :=
  (∀ (s : State) (key : Bytes), s.klen = 8 → s.memRead .kbuf 0 8 = some key →
    ∃ t, exec .desSetKey s = .next t ∧ Completed s t 0 [] ∧ t.errSeen = s.errSeen ∧ t.draws = s.draws ∧
      t.des = { keyed := true, rk := desKeygen key } ∧ t.deal = s.deal ∧ t.rij = s.rij) ∧
  ∀ (s : State) (mk : Bytes), s.klen = 16 → s.memRead .kbuf 0 16 = some mk →
    ∃ t, exec .dealSetKey s = .next t ∧ Completed s t 0 [] ∧ t.errSeen = s.errSeen ∧ t.draws = s.draws ∧
      t.deal.keyed = true ∧ t.deal.rk.length = 6 ∧ t.des = s.des ∧ t.rij = s.rij ∧
      ∀ i < 3,
        t.deal.rk[i]? = some (desEncrypt (desKeygen (mk.take 8)) [0, 0, 0, 0, 0, 0, 0, BitVec.ofNat 8 (i + 1)]) ∧
        t.deal.rk[3 + i]? = some (desEncrypt (desKeygen (mk.drop 8)) [0, 0, 0, 0, 0, 0, 0, BitVec.ofNat 8 (i + 1)])

/-- R119: keys that differ only in parity bits (bit 0 of each byte) give the same DES schedule. -/
def Obligations.DesScheduleIgnoresParity : Prop :=
  ∀ key key' : Bytes, key.length = 8 → key'.length = 8 →
    (∀ i < 8, (key.getD i 0) >>> 1 = (key'.getD i 0) >>> 1) → desKeygen key = desKeygen key'

/-- R125, R126, R146, R147, R192, R193: a keyed block command writes the cipher's output of one block. -/
def Obligations.BlockCommandsComplete : Prop :=
  (∀ (s : State) (blk : Bytes), s.len = 8 → s.memRead .ibuf 0 8 = some blk →
    (s.des.keyed = true →
      (∃ t, exec .desEnc s = .next t ∧ CompletedPlain s t 0 (desEncrypt s.des.rk blk)) ∧
      ∃ t, exec .desDec s = .next t ∧ CompletedPlain s t 0 (desDecrypt s.des.rk blk)) ∧
    (s.deal.keyed = true →
      (∃ t, exec .dealEnc s = .next t ∧ CompletedPlain s t 0 (dealEncrypt s.params.dealDup s.deal.rk blk)) ∧
      ∃ t, exec .dealDec s = .next t ∧ CompletedPlain s t 0 (dealDecrypt s.params.dealDup s.deal.rk blk))) ∧
  ∀ (s : State) (blk : Bytes), s.rij.keyed = true → s.len.toNat = s.rij.bs → s.memRead .ibuf 0 s.rij.bs = some blk →
    (∃ t, exec .rijEnc s = .next t ∧ CompletedPlain s t 0 (rijEncrypt s.rij blk)) ∧
    ∃ t, exec .rijDec s = .next t ∧ CompletedPlain s t 0 (rijDecrypt s.rij blk)

/-- R127, R148, R194: where each round key stands in OBUF after a KEYGEN command, how many bytes there are, and that no
instance changes. That RIJ_KEYGEN writes (Nr + 1)·bs bytes also where R194's corner cases give another length is the model's
choice, notes/assumptions/15.md. -/
def Obligations.KeygenCommandsComplete : Prop :=
  (∀ (s : State) (key : Bytes), s.klen = 8 → s.memRead .kbuf 0 8 = some key →
    ∃ t out, exec .desKeyGen s = .next t ∧ CompletedPlain s t 0 out ∧ t.outlen = 96 ∧ (desKeygen key).length = 16 ∧
      ∀ r < 16, ∀ j < 6, t.bufByte .obuf (6 * r + j) = ((desKeygen key).getD r [])[j]?) ∧
  (∀ (s : State) (mk : Bytes), s.klen = 16 → s.memRead .kbuf 0 16 = some mk →
    ∃ t out, exec .dealKeyGen s = .next t ∧ CompletedPlain s t 0 out ∧ t.outlen = 48 ∧ (dealKeygen mk).length = 6 ∧
      ∀ r < 6, ∀ j < 8, t.bufByte .obuf (8 * r + j) = ((dealKeygen mk).getD r [])[j]?) ∧
  ∀ (bsc : BitVec 2) (s : State) (key : Bytes) (bs nr : Nat) (rk : List Bytes),
    bsc ≠ 3 → bs = 16 + 8 * bsc.toNat → rijSize s.klen.toNat → nr = max (bs / 4) (s.klen.toNat / 4) + 6 →
    s.arg2.toNat ≤ 0xFF → irreducible (s.arg2.setWidth 8) = true → s.memRead .kbuf 0 s.klen.toNat = some key →
    rk = rijKeygen (sboxTable (s.arg2.setWidth 8)) key bs (s.arg2.setWidth 8) →
    ∃ t out, exec (.rijKeyGen bsc) s = .next t ∧ CompletedPlain s t 0 out ∧ t.outlen.toNat = (nr + 1) * bs ∧
      rk.length = nr + 1 ∧ ∀ r < nr + 1, ∀ j < bs, t.bufByte .obuf (bs * r + j) = (rk.getD r [])[j]?

/-- R128, R129, R149, R150: the round functions and the single Feistel rounds. -/
def Obligations.RoundCommandsComplete : Prop :=
  (∀ (s : State) (half k : Bytes), s.len = 4 → s.memRead .ibuf 0 4 = some half →
    (s.klen = 6 → s.memRead .kbuf 0 6 = some k →
      ∃ t, exec .desRoundF s = .next t ∧ CompletedPlain s t 0 (desF half k)) ∧
    (s.klen = 8 → s.memRead .kbuf 0 8 = some k →
      ∃ t, exec .dealRoundF s = .next t ∧ CompletedPlain s t 0 (dealF s.params.dealDup half k))) ∧
  ∀ (s : State) (b k : Bytes), s.len = 8 → s.memRead .ibuf 0 8 = some b →
    (s.klen = 6 → s.memRead .kbuf 0 6 = some k →
      ∃ t, exec .desRound s = .next t ∧
        CompletedPlain s t 0 (b.drop 4 ++ xorBytes (b.take 4) (desF (b.drop 4) k))) ∧
    (s.klen = 8 → s.memRead .kbuf 0 8 = some k →
      ∃ t, exec .dealRound s = .next t ∧
        CompletedPlain s t 0 (b.drop 4 ++ xorBytes (b.take 4) (dealF s.params.dealDup (b.drop 4) k)))

/-- R123, R144: DES and DEAL decryption invert encryption, for every schedule, both layouts of DEAL_DUP and every block. -/
def Obligations.DesAndDealRoundTrip : Prop :=
  ∀ (rk : List Bytes) (x : Bytes), x.length = 8 →
    desDecrypt rk (desEncrypt rk x) = x ∧ ∀ dup : DealDup, dealDecrypt dup rk (dealEncrypt dup rk x) = x

/-! ### Rijndael (45_rijndael.md) -/

/-- R191: the instance that RIJ_SETKEY loads, its two S-boxes read as tables (R178, R179), and that nothing else changes. -/
def Obligations.RijSetKeyBuildsInstance : Prop :=
  ∀ (bsc : BitVec 2) (s : State) (key : Bytes) (m : Byte),
    bsc ≠ 3 → rijSize s.klen.toNat → s.arg2 = m.setWidth 32 → irreducible m = true →
    s.memRead .kbuf 0 s.klen.toNat = some key →
    ∃ t, exec (.rijSetKey bsc) s = .next t ∧ Completed s t 0 [] ∧ t.errSeen = s.errSeen ∧ t.draws = s.draws ∧
      t.des = s.des ∧ t.deal = s.deal ∧
      t.rij.keyed = true ∧ t.rij.bs = 16 + 8 * bsc.toNat ∧ t.rij.ks = s.klen.toNat ∧ t.rij.m = m ∧
      t.rij.nr = max (t.rij.bs / 4) (t.rij.ks / 4) + 6 ∧ t.rij.rk = rijKeygen (sboxTable m) key t.rij.bs m ∧
      t.rij.sbox.length = 256 ∧ t.rij.invSbox.length = 256 ∧ t.rij.sbox[0]? = some 0x63 ∧
      (∀ x : Byte, x ≠ 0 → t.rij.sbox[x.toNat]? = some (affine (gfInv x m))) ∧
      ∀ x y : Byte, t.rij.sbox[x.toNat]? = some y → t.rij.invSbox[y.toNat]? = some x

/-- R195, R196 with R178, R179: the S-box value, and for the inverse the one byte whose S-box value is the operand. -/
def Obligations.RijSboxLookups : Prop :=
  ∀ (s : State) (x m : Byte), s.arg0 = x.setWidth 32 → s.arg2 = m.setWidth 32 → irreducible m = true →
    (∃ t, exec .rijSBox s = .next t ∧
      CompletedPlain s t (if x = 0 then 0x63 else zext32 (affine (gfInv x m))) []) ∧
    ∃ t y, exec .rijInvSBox s = .next t ∧ CompletedPlain s t (zext32 y) [] ∧ sboxAt m y = x ∧
      ∀ y', sboxAt m y' = x → y' = y

/-- R197, R198 with R180: SubBytes and its inverse, byte by byte. -/
def Obligations.RijSubBytesByteByByte : Prop :=
  ∀ (s : State) (st : Bytes) (m : Byte), rijSize s.len.toNat → s.arg2 = m.setWidth 32 → irreducible m = true →
    s.memRead .ibuf 0 s.len.toNat = some st →
    (∃ t out, exec .rijSubBytes s = .next t ∧ CompletedPlain s t 0 out ∧ out.length = st.length ∧
      ∀ i < st.length, out.getD i 0 = sboxAt m (st.getD i 0)) ∧
    ∃ t out, exec .rijInvSubBytes s = .next t ∧ CompletedPlain s t 0 out ∧ out.length = st.length ∧
      ∀ i < st.length, sboxAt m (out.getD i 0) = st.getD i 0

/-- R199, R200 with R181: ShiftRows moves row `r` left by `r` for every block size, InvShiftRows right. -/
def Obligations.RijShiftRowsCellByCell : Prop :=
  ∀ (s : State) (st : Bytes) (nb : Nat), rijSize s.len.toNat → nb = s.len.toNat / 4 →
    s.memRead .ibuf 0 s.len.toNat = some st →
    (∃ t out, exec .rijShiftRows s = .next t ∧ CompletedPlain s t 0 out ∧ out.length = st.length ∧
      ∀ r < 4, ∀ c < nb, cell out r c = cell st r ((c + r) % nb)) ∧
    ∃ t out, exec .rijInvShiftRows s = .next t ∧ CompletedPlain s t 0 out ∧ out.length = st.length ∧
      ∀ r < 4, ∀ c < nb, cell out r ((c + r) % nb) = cell st r c

/-- R201, R202 with R182, R183: MixColumns and InvMixColumns, column by column. -/
def Obligations.RijMixColumnsColumnByColumn : Prop :=
  ∀ (s : State) (st : Bytes) (m : Byte), rijSize s.len.toNat → s.arg2 = m.setWidth 32 → irreducible m = true →
    s.memRead .ibuf 0 s.len.toNat = some st →
    (∃ t out, exec .rijMixColumns s = .next t ∧ CompletedPlain s t 0 out ∧ out.length = st.length ∧
      ∀ c < s.len.toNat / 4, ∀ r < 4,
        cell out r c = gfMul 2 (cell st r c) m ^^^ gfMul 3 (cell st ((r + 1) % 4) c) m ^^^ cell st ((r + 2) % 4) c ^^^
          cell st ((r + 3) % 4) c) ∧
    ∃ t out, exec .rijInvMixColumns s = .next t ∧ CompletedPlain s t 0 out ∧ out.length = st.length ∧
      ∀ c < s.len.toNat / 4, ∀ r < 4,
        cell out r c = gfMul 14 (cell st r c) m ^^^ gfMul 11 (cell st ((r + 1) % 4) c) m ^^^
          gfMul 13 (cell st ((r + 2) % 4) c) m ^^^ gfMul 9 (cell st ((r + 3) % 4) c) m

/-- R183: InvMixColumns inverts MixColumns, and MixColumns inverts it, under every modulus. -/
def Obligations.MixColumnsInverse : Prop :=
  ∀ (m : Byte) (st : Bytes), st.length % 4 = 0 →
    invMixColumns m (mixColumns m st) = st ∧ mixColumns m (invMixColumns m st) = st

/-- R185 and R187, with R186: the recurrence of the key schedule on its 4-byte words `w i`, which in their order are the
Nr + 1 round keys of `bs` bytes. -/
def Obligations.RijKeyExpansionRecurrence : Prop :=
  ∀ (key : Bytes) (bs nk nb nr : Nat) (m : Byte) (rk : List Bytes) (w : Nat → Bytes),
    rijSize bs → rijSize key.length → irreducible m = true →
    nk = key.length / 4 → nb = bs / 4 → nr = max nb nk + 6 →
    rk = rijKeygen (sboxTable m) key bs m → (∀ i, w i = (rk.flatten.drop (4 * i)).take 4) →
    rk.length = nr + 1 ∧ (∀ k ∈ rk, k.length = bs) ∧
    (∀ i < nk, i < nb * (nr + 1) → w i = (key.drop (4 * i)).take 4) ∧
    (∀ i, nk ≤ i → i < nb * (nr + 1) →
      (i % nk = 0 → ∀ a0 a1 a2 a3, w (i - 1) = [a0, a1, a2, a3] →
        w i = xorBytes (w (i - nk))
          [sboxAt m a1 ^^^ gfPow 0x02 (i / nk - 1) m, sboxAt m a2, sboxAt m a3, sboxAt m a0]) ∧
      (i % nk = 4 → 6 < nk → w i = xorBytes (w (i - nk)) ((w (i - 1)).map (sboxAt m))) ∧
      (i % nk ≠ 0 → ¬(i % nk = 4 ∧ 6 < nk) → w i = xorBytes (w (i - nk)) (w (i - 1))))

/-- R203 to R205: AddRoundKey and the two rounds as pipelines of the steps. -/
def Obligations.RijRoundCommandsComplete : Prop :=
  ∀ (s : State) (st k : Bytes), rijSize s.len.toNat → s.klen = s.len →
    s.memRead .ibuf 0 s.len.toNat = some st → s.memRead .kbuf 0 s.len.toNat = some k →
    (∃ t out, exec .rijAddRoundKey s = .next t ∧ CompletedPlain s t 0 out ∧ out.length = st.length ∧
      ∀ i < st.length, out.getD i 0 = st.getD i 0 ^^^ k.getD i 0) ∧
    ∀ m : Byte, s.arg2 = m.setWidth 32 → irreducible m = true →
      (∃ t, exec .rijRound s = .next t ∧
        CompletedPlain s t 0 (xorBytes (mixColumns m (shiftRows (st.map (sboxAt m)))) k)) ∧
      ∃ t, exec .rijFinalRound s = .next t ∧ CompletedPlain s t 0 (xorBytes (shiftRows (st.map (sboxAt m))) k)

/-- R190: decryption inverts encryption for every well-formed keyed instance: the nine size pairs, every irreducible
modulus, every round keys. -/
def Obligations.RijndaelRoundTrip : Prop :=
  ∀ (r : RijInst) (x : Bytes), r.ok → r.keyed = true → x.length = r.bs → rijDecrypt r (rijEncrypt r x) = x

/-- Published and source vectors (95_test_vectors.md L1, L1-G, L2, L2.3): DES, the DEAL round function, DEAL in both layouts of
DEAL_DUP, AES. -/
def Obligations.KnownAnswers : Prop :=
  (desKeygen [0x13, 0x34, 0x57, 0x79, 0x9B, 0xBC, 0xDF, 0xF1])[0]? = some [0x1B, 0x02, 0xEF, 0xFC, 0x70, 0x72] ∧
  desEncrypt (desKeygen [0x13, 0x34, 0x57, 0x79, 0x9B, 0xBC, 0xDF, 0xF1])
    [0x01, 0x23, 0x45, 0x67, 0x89, 0xAB, 0xCD, 0xEF] = [0x85, 0xE8, 0x13, 0x54, 0x0F, 0x0A, 0xB4, 0x05] ∧
  dealF .halfTwice [0x44, 0x55, 0x66, 0x77] [0xF0, 0x8C, 0x57, 0x20, 0x95, 0x93, 0xFE, 0xB3] =
    [0x0F, 0x56, 0x73, 0xB6] ∧
  (∀ p ∈ [(DealDup.halfTwice, [0xB3, 0xBF, 0xFC, 0x27, 0xBB, 0xEA, 0x35, 0xA9]),
      (.byteTwice, [0xEA, 0x17, 0xBA, 0x0D, 0x43, 0xA2, 0x4E, 0x1F])],
    dealEncrypt p.1 (dealKeygen [0x01, 0x23, 0x45, 0x67, 0x89, 0xAB, 0xCD, 0xEF, 0xFE, 0xDC, 0xBA, 0x98, 0x76, 0x54, 0x32, 0x10])
      [0x00, 0x11, 0x22, 0x33, 0x44, 0x55, 0x66, 0x77] = p.2) ∧
  rijEncrypt (RijInst.build 16 0x1B (List.replicate 16 0)) (List.replicate 16 0) =
    [0x66, 0xE9, 0x4B, 0xD4, 0xEF, 0x8A, 0x2C, 0x3B, 0x88, 0x4C, 0xFA, 0x59, 0xCA, 0x34, 0x2B, 0x2E]

/-! ### Chaining modes and padding (46_modes_padding.md) -/

/-- R228: ECB on the padded input, and its inverse before unpadding; nothing is asked of IVLEN or IVBUF. -/
def Obligations.ModeEcbBlockByBlock : Prop :=
  ∀ (s : State) (sel : CipherSel) (padc : BitVec 4) (csel : BitVec 2) (scheme : PadScheme) (c : BlockCipher) (d : Bytes),
    CipherSel.ofCode csel = some sel → PadScheme.ofCode padc = some scheme → c = cipherOf s sel →
    ModeReady s .ecb sel d [] →
    (∃ t out p, exec (.modeEnc 0 padc csel) s = .next t ∧ Completed s t 0 out ∧ InstancesKept s t ∧
      t.errSeen = s.errSeen ∧ p = padBytes scheme c.bs s.filler d ∧ out.length = p.length ∧
      ∀ j < p.length / c.bs, blockAt c.bs out j = c.encrypt (blockAt c.bs p j)) ∧
    (d.length % c.bs = 0 →
      ∃ t p, exec (.modeDec 0 padc csel) s = .next t ∧ CompletedPlain s t 0 (unpadBytes scheme c.bs p) ∧
        p.length = d.length ∧ ∀ j < d.length / c.bs, blockAt c.bs p j = c.decrypt (blockAt c.bs d j))

/-- R229: CBC. -/
def Obligations.ModeCbcBlockByBlock : Prop :=
  ∀ (s : State) (sel : CipherSel) (padc : BitVec 4) (csel : BitVec 2) (scheme : PadScheme) (c : BlockCipher)
    (d iv : Bytes),
    CipherSel.ofCode csel = some sel → PadScheme.ofCode padc = some scheme → c = cipherOf s sel →
    ModeReady s .cbc sel d iv →
    (∃ t out p, exec (.modeEnc 1 padc csel) s = .next t ∧ Completed s t 0 out ∧ InstancesKept s t ∧
      t.errSeen = s.errSeen ∧ p = padBytes scheme c.bs s.filler d ∧ out.length = p.length ∧
      ∀ j < p.length / c.bs,
        blockAt c.bs out j =
          c.encrypt (xorBytes (blockAt c.bs p j) (if j = 0 then iv else blockAt c.bs out (j - 1)))) ∧
    (d.length % c.bs = 0 →
      ∃ t p, exec (.modeDec 1 padc csel) s = .next t ∧ CompletedPlain s t 0 (unpadBytes scheme c.bs p) ∧
        p.length = d.length ∧
        ∀ j < d.length / c.bs,
          blockAt c.bs p j =
            xorBytes (c.decrypt (blockAt c.bs d j)) (if j = 0 then iv else blockAt c.bs d (j - 1)))

/-- R230, R232: CFB with full-block feedback; a short last block takes the first bytes of its keystream. -/
def Obligations.ModeCfbBlockByBlock : Prop :=
  ∀ (s : State) (sel : CipherSel) (padc : BitVec 4) (csel : BitVec 2) (scheme : PadScheme) (c : BlockCipher)
    (d iv : Bytes),
    CipherSel.ofCode csel = some sel → PadScheme.ofCode padc = some scheme → c = cipherOf s sel →
    ModeReady s .cfb sel d iv →
    (∃ t out, exec (.modeEnc 2 padc csel) s = .next t ∧ CompletedPlain s t 0 out ∧ out.length = d.length ∧
      ∀ j, j * c.bs < d.length →
        blockAt c.bs out j = xorBytes (blockAt c.bs d j) (c.encrypt (if j = 0 then iv else blockAt c.bs out (j - 1)))) ∧
    ∃ t out, exec (.modeDec 2 padc csel) s = .next t ∧ CompletedPlain s t 0 out ∧ out.length = d.length ∧
      ∀ j, j * c.bs < d.length →
        blockAt c.bs out j = xorBytes (blockAt c.bs d j) (c.encrypt (if j = 0 then iv else blockAt c.bs d (j - 1)))

/-- R232: OFB, the same in both directions. -/
def Obligations.ModeOfbBlockByBlock : Prop :=
  ∀ (s : State) (sel : CipherSel) (padc : BitVec 4) (csel : BitVec 2) (scheme : PadScheme) (c : BlockCipher)
    (d iv : Bytes),
    CipherSel.ofCode csel = some sel → PadScheme.ofCode padc = some scheme → c = cipherOf s sel →
    ModeReady s .ofb sel d iv →
    ∃ t out, exec (.modeEnc 3 padc csel) s = .next t ∧ exec (.modeDec 3 padc csel) s = .next t ∧
      CompletedPlain s t 0 out ∧ out.length = d.length ∧
      ∀ j, j * c.bs < d.length → blockAt c.bs out j = xorBytes (blockAt c.bs d j) (c.encrypt^[j + 1] iv)

/-- R231: CTR, the same in both directions, with a counter of the block's width that wraps. -/
def Obligations.ModeCtrBlockByBlock : Prop :=
  ∀ (s : State) (sel : CipherSel) (padc : BitVec 4) (csel : BitVec 2) (scheme : PadScheme) (c : BlockCipher)
    (d iv : Bytes),
    CipherSel.ofCode csel = some sel → PadScheme.ofCode padc = some scheme → c = cipherOf s sel →
    ModeReady s .ctr sel d iv →
    ∃ t out, exec (.modeEnc 4 padc csel) s = .next t ∧ exec (.modeDec 4 padc csel) s = .next t ∧
      CompletedPlain s t 0 out ∧ out.length = d.length ∧
      ∀ j, j * c.bs < d.length →
        blockAt c.bs out j =
          xorBytes (blockAt c.bs d j) (c.encrypt (bytesBE ((beNat iv + j) % 2 ^ (8 * c.bs)) c.bs))

/-- R217: in a stream mode every supported PAD code gives the same outcome, in every state, and an unsupported one fails
with E_UNSUPPORTED. -/
def Obligations.StreamModesIgnorePad : Prop :=
  ∀ (s : State) (mode padc padc' : BitVec 4) (csel : BitVec 2), 2 ≤ mode.toNat → mode.toNat ≤ 4 →
    (padc.toNat ≤ 3 → padc'.toNat ≤ 3 →
      exec (.modeEnc mode padc csel) s = exec (.modeEnc mode padc' csel) s ∧
      exec (.modeDec mode padc csel) s = exec (.modeDec mode padc' csel) s) ∧
    (4 ≤ padc.toNat →
      exec (.modeEnc mode padc csel) s = .next (s.raised .unsupported) ∧
      exec (.modeDec mode padc csel) s = .next (s.raised .unsupported))

/-- R236 with R218 to R222: what PAD writes under each scheme; under ISO 10126 for every filler. -/
def Obligations.PadCommandCompletes : Prop :=
  ∀ (s : State) (d : Bytes) (bs n : Nat), bs = s.arg0.toNat → 1 ≤ bs → bs ≤ 32 → s.len.toNat ≤ s.params.bufBytes →
    s.memRead .ibuf 0 s.len.toNat = some d → n = bs - d.length % bs →
    (∃ t p, exec (.pad 0) s = .next t ∧ CompletedPlain s t 0 (d ++ List.replicate p 0) ∧ p < bs ∧
      (d.length + p) % bs = 0) ∧
    (∃ t, exec (.pad 1) s = .next t ∧ CompletedPlain s t 0 (d ++ List.replicate n (BitVec.ofNat 8 n))) ∧
    (∃ t, exec (.pad 2) s = .next t ∧
      CompletedPlain s t 0 (d ++ List.replicate (n - 1) 0 ++ [BitVec.ofNat 8 n])) ∧
    ∃ t f, exec (.pad 3) s = .next t ∧ Completed s t 0 (d ++ f ++ [BitVec.ofNat 8 n]) ∧ f.length = n - 1 ∧
      InstancesKept s t ∧ t.errSeen = s.errSeen

/-- R237 with R223 to R227: what UNPAD writes under each scheme, for well-formed and malformed pads; ERR is 0 in every
case. -/
def Obligations.UnpadCommandCompletes : Prop :=
  ∀ (s : State) (d : Bytes) (bs : Nat), bs = s.arg0.toNat → 1 ≤ bs → bs ≤ 32 → s.len.toNat ≤ s.params.bufBytes →
    s.memRead .ibuf 0 s.len.toNat = some d →
    (∃ t k, exec (.unpad 0) s = .next t ∧ CompletedPlain s t 0 (d.take k) ∧ k ≤ d.length ∧
      (∀ i, k ≤ i → i < d.length → d[i]? = some 0) ∧ (0 < k → d[k - 1]? ≠ some 0)) ∧
    ∀ (padc : BitVec 4) (good : Nat → Prop), 1 ≤ padc.toNat → padc.toNat ≤ 3 →
      (∀ n, good n ↔ 1 ≤ n ∧ n ≤ bs ∧ n ≤ d.length ∧ d[d.length - 1]? = some (BitVec.ofNat 8 n) ∧
        ∀ i, d.length - n ≤ i → i < d.length - 1 →
          (padc = 1 → d[i]? = some (BitVec.ofNat 8 n)) ∧ (padc = 2 → d[i]? = some 0)) →
      (∀ n, good n → ∃ t, exec (.unpad padc) s = .next t ∧ CompletedPlain s t 0 (d.take (d.length - n))) ∧
      ((∀ n, ¬ good n) → ∃ t, exec (.unpad padc) s = .next t ∧ CompletedPlain s t 0 d)

/-- Unpadding inverts padding: always under PKCS7, ANSI X9.23 and ISO 10126 (whatever the filler), under Zeros when the
data does not end in a zero byte. -/
def Obligations.UnpadInvertsPad : Prop :=
  ∀ (scheme : PadScheme) (bs : Nat) (filler : Nat → Bytes) (d : Bytes), 1 ≤ bs → bs ≤ 255 →
    (∀ n, (filler n).length = n) → (scheme = .zeros → d.getLast? ≠ some 0) →
    unpadBytes scheme bs (padBytes scheme bs filler d) = d

/-- R238: MODE_DEC of what MODE_ENC wrote, with the same fields, instances and IV, gives the plaintext back: every cipher,
mode and padding, every plaintext that leaves room for a block, every filler. -/
def Obligations.ModeRoundTrip : Prop :=
  ∀ (s t u : State) (mode padc : BitVec 4) (csel : BitVec 2) (sel : CipherSel) (d : Bytes),
    s.inv → u.inv → CipherSel.ofCode csel = some sel →
    s.memRead .ibuf 0 s.len.toNat = some d →
    s.len.toNat + (cipherOf s sel).bs ≤ s.params.bufBytes →
    (padc = 0 → 2 ≤ mode.toNat ∨ d.getLast? ≠ some 0) →
    exec (.modeEnc mode padc csel) s = .next t → t.err = .ok →
    u.params = s.params → InstancesKept s u → u.ivlen = s.ivlen → (∀ k < 32, u.bufByte .ivbuf k = s.bufByte .ivbuf k) →
    u.len = t.outlen → (∀ k < t.outlen.toNat, u.bufByte .ibuf k = t.bufByte .obuf k) →
    ∃ v, exec (.modeDec mode padc csel) u = .next v ∧ CompletedPlain u v 0 d
end

