-- ==== Sys2Proof/Laws/Lengths.lean ====
section
/-! SUPPORT. How long the byte strings are that the transforms answer. -/

set_option Elab.async false

namespace Sys2Proof.Machine

/-! ### Byte strings -/

@[simp] theorem length_xorBytes (a b : Bytes) : (xorBytes a b).length = min a.length b.length := by
  simp [xorBytes]

@[simp] theorem length_bytesBE (v n : Nat) : (bytesBE v n).length = n := by
  induction n with
  | zero => rfl
  | succ n ih => simp [bytesBE, ih]

@[simp] theorem length_bytesLE (v n : Nat) : (bytesLE v n).length = n := by
  induction n generalizing v with
  | zero => rfl
  | succ n ih => simp [bytesLE, ih]

@[simp] theorem length_readCells (m : Memory) (k off n : Nat) : (readCells m k off n).length = n := by
  induction n generalizing k off with
  | zero => rfl
  | succ n ih => simp [readCells, ih]

@[simp] theorem length_freeBytes (k n : Nat) : (freeBytes k n).length = n := by simp [freeBytes]

@[simp] theorem length_filler (s : State) (n : Nat) : (s.filler n).length = n := length_freeBytes _ _

@[simp] theorem length_packBits (order : BitOrder) (n : Nat) (bits : List Bool) : (packBits order n bits).length = n := by
  induction n generalizing bits with
  | zero => rfl
  | succ n ih => simp [packBits, ih]

@[simp] theorem length_permute (input : Bytes) (table : List Nat) (order : BitOrder) (base : Nat) :
    (permute input table order base).length = (table.length + 7) / 8 := length_packBits ..

@[simp] theorem length_desPermute (table : List Nat) (x : Bytes) :
    (desPermute table x).length = (table.length + 7) / 8 := length_permute ..

@[simp] theorem length_pieces (size n : Nat) (d : Bytes) : (pieces size n d).length = n := by
  induction n generalizing d with
  | zero => rfl
  | succ n ih => simp [pieces, ih]

theorem length_flatten_pieces_le (size n : Nat) (d : Bytes) : (pieces size n d).flatten.length ≤ size * n := by
  induction n generalizing d with
  | zero => simp [pieces]
  | succ n ih =>
    have := ih (d.drop size)
    simp only [pieces, List.flatten_cons, List.length_append, List.length_take]
    rw [Nat.mul_succ]
    omega

/-- Every piece of a string long enough has the full size. -/
theorem length_of_mem_pieces {size n : Nat} {d : Bytes} (h : size * n ≤ d.length) :
    ∀ p ∈ pieces size n d, p.length = size := by
  induction n generalizing d with
  | zero => simp [pieces]
  | succ n ih =>
    intro p hp
    rw [Nat.mul_succ] at h
    rcases List.mem_cons.1 hp with rfl | hp
    · simp; omega
    · exact ih (by simp; omega) p hp

/-- The pieces make up the string again. -/
theorem flatten_pieces {size n : Nat} {d : Bytes} (h : d.length ≤ size * n) : (pieces size n d).flatten = d := by
  induction n generalizing d with
  | zero => simp at h; simp [pieces, h]
  | succ n ih =>
    rw [Nat.mul_succ] at h
    rw [pieces, List.flatten_cons, ih (by simp; omega), List.take_append_drop]

theorem length_flatten_of_forall {k : Nat} {l : List Bytes} (h : ∀ x ∈ l, x.length = k) :
    l.flatten.length = k * l.length := by
  induction l with
  | nil => simp
  | cons a l ih =>
    rw [List.flatten_cons, List.length_append, h a (by simp), ih fun x hx => h x (by simp [hx]), List.length_cons]
    rw [Nat.mul_succ, Nat.add_comm]

/-! ### DES and DEAL -/

@[simp] theorem length_desF (rh k : Bytes) : (desF rh k).length = 4 := by
  simp only [desF, length_desPermute]; rfl

@[simp] theorem length_desEncrypt (rk : List Bytes) (blk : Bytes) : (desEncrypt rk blk).length = 8 := by
  simp only [desEncrypt, length_desPermute]; rfl

@[simp] theorem length_desDecrypt (rk : List Bytes) (blk : Bytes) : (desDecrypt rk blk).length = 8 := by
  simp only [desDecrypt, length_desPermute]; rfl

theorem length_desSchedule (shifts : List Nat) (c d : Nat) : (desSchedule shifts c d).length = shifts.length := by
  induction shifts generalizing c d with
  | nil => rfl
  | cons x xs ih => simp [desSchedule, ih]

theorem length_of_mem_desSchedule (shifts : List Nat) (c d : Nat) : ∀ k ∈ desSchedule shifts c d, k.length = 6 := by
  induction shifts generalizing c d with
  | nil => simp [desSchedule]
  | cons x xs ih =>
    intro k hk
    rcases List.mem_cons.1 hk with rfl | hk
    · simp only [length_desPermute]; rfl
    · exact ih _ _ k hk

@[simp] theorem length_desKeygen (key : Bytes) : (desKeygen key).length = 16 := length_desSchedule ..

theorem length_of_mem_desKeygen (key : Bytes) : ∀ k ∈ desKeygen key, k.length = 6 :=
  length_of_mem_desSchedule _ _ _

@[simp] theorem length_flatten_desKeygen (key : Bytes) : (desKeygen key).flatten.length = 96 := by
  rw [length_flatten_of_forall (length_of_mem_desKeygen key), length_desKeygen]

@[simp] theorem length_dealKeygen (mk : Bytes) : (dealKeygen mk).length = 6 := by simp [dealKeygen]

theorem length_of_mem_dealKeygen (mk : Bytes) : ∀ k ∈ dealKeygen mk, k.length = 8 := by
  intro k hk
  simp only [dealKeygen, List.mem_append, List.mem_map] at hk
  rcases hk with ⟨_, _, rfl⟩ | ⟨_, _, rfl⟩ <;> simp

@[simp] theorem length_flatten_dealKeygen (mk : Bytes) : (dealKeygen mk).flatten.length = 48 := by
  rw [length_flatten_of_forall (length_of_mem_dealKeygen mk), length_dealKeygen]

@[simp] theorem length_dealF (dup : DealDup) (half k : Bytes) : (dealF dup half k).length = 4 := by simp [dealF]

/-! ### The Feistel combiner, for a round function on 4-byte halves -/

theorem feistelRound_lengths {f : Bytes → Bytes → Bytes} (hf : ∀ h k, (f h k).length = 4) {lr : Bytes × Bytes}
    (h : lr.1.length = 4 ∧ lr.2.length = 4) (k : Bytes) :
    (feistelRound f lr k).1.length = 4 ∧ (feistelRound f lr k).2.length = 4 := by
  simp [feistelRound, hf, h]

theorem foldl_feistelRound_lengths {f : Bytes → Bytes → Bytes} (hf : ∀ h k, (f h k).length = 4) (keys : List Bytes)
    {lr : Bytes × Bytes} (h : lr.1.length = 4 ∧ lr.2.length = 4) :
    (keys.foldl (feistelRound f) lr).1.length = 4 ∧ (keys.foldl (feistelRound f) lr).2.length = 4 := by
  induction keys generalizing lr with
  | nil => exact h
  | cons k ks ih => exact ih (feistelRound_lengths hf h k)

theorem length_feistel {f : Bytes → Bytes → Bytes} (hf : ∀ h k, (f h k).length = 4) (keys : List Bytes) {blk : Bytes}
    (h : blk.length = 8) : (feistel f keys blk).length = 8 := by
  have := foldl_feistelRound_lengths hf keys (lr := (blk.take 4, blk.drop 4)) (by simp [h])
  simp [feistel, this]

theorem length_feistelStep {f : Bytes → Bytes → Bytes} (hf : ∀ h k, (f h k).length = 4) (k : Bytes) {blk : Bytes}
    (h : blk.length = 8) : (feistelStep f k blk).length = 8 := by
  have := feistelRound_lengths hf (lr := (blk.take 4, blk.drop 4)) (by simp [h]) k
  simp [feistelStep, this]

theorem length_dealEncrypt (dup : DealDup) (rk : List Bytes) {blk : Bytes} (h : blk.length = 8) :
    (dealEncrypt dup rk blk).length = 8 := length_feistel (length_dealF dup) rk h

theorem length_dealDecrypt (dup : DealDup) (rk : List Bytes) {blk : Bytes} (h : blk.length = 8) :
    (dealDecrypt dup rk blk).length = 8 := length_feistel (length_dealF dup) rk.reverse h

/-! ### Rijndael -/

@[simp] theorem length_sboxTable (m : Byte) : (sboxTable m).length = 256 := by simp [sboxTable]

@[simp] theorem length_invSboxTable (m : Byte) : (invSboxTable m).length = 256 := by simp [invSboxTable, inverseTable]

@[simp] theorem length_subBytes (table st : Bytes) : (subBytes table st).length = st.length := by simp [subBytes]

@[simp] theorem length_shiftRows (st : Bytes) : (shiftRows st).length = st.length := by simp [shiftRows, moveRows]

@[simp] theorem length_invShiftRows (st : Bytes) : (invShiftRows st).length = st.length := by
  simp [invShiftRows, moveRows]

theorem length_mapColumns {f : Byte → Byte → Byte → Byte → Bytes} (hf : ∀ a b c d, (f a b c d).length = 4) (st : Bytes) :
    (mapColumns f st).length = st.length / 4 * 4 := by
  induction st using mapColumns.induct with
  | case1 s0 s1 s2 s3 rest ih =>
    simp only [mapColumns, List.length_append, hf, ih, List.length_cons]; omega
  | case2 st h =>
    match st, h with
    | [], _ => rfl
    | [_], _ => simp [mapColumns]
    | [_, _], _ => simp [mapColumns]
    | [_, _, _], _ => simp [mapColumns]
    | a :: b :: c :: d :: r, h => exact absurd rfl (h a b c d r)

@[simp] theorem length_mixColumns (m : Byte) (st : Bytes) : (mixColumns m st).length = st.length / 4 * 4 :=
  length_mapColumns (fun _ _ _ _ => rfl) st

@[simp] theorem length_invMixColumns (m : Byte) (st : Bytes) : (invMixColumns m st).length = st.length / 4 * 4 :=
  length_mapColumns (fun _ _ _ _ => rfl) st

theorem rijSize_div_mul {n : Nat} (h : rijSize n) : n / 4 * 4 = n := by rcases h with rfl | rfl | rfl <;> rfl

theorem length_rijRound {table : Bytes} {m : Byte} {st k : Bytes} (h : rijSize st.length) (hk : k.length = st.length) :
    (rijRound table m st k).length = st.length := by
  simp [rijRound, addRoundKey, hk, rijSize_div_mul h]

theorem length_rijFinalRound {table st k : Bytes} (hk : k.length = st.length) :
    (rijFinalRound table st k).length = st.length := by
  simp [rijFinalRound, addRoundKey, hk]

/-- The key schedule has Nr + 1 round keys (45_rijndael.md R175). -/
@[simp] theorem length_rijKeygen (table key : Bytes) (bs : Nat) (m : Byte) :
    (rijKeygen table key bs m).length = rijRounds bs key.length + 1 := by simp [rijKeygen]

theorem length_nextWord {table : Bytes} {m : Byte} {nk i : Nat} {before : List Bytes}
    (hb : ∀ w ∈ before, w.length = 4) (hnk : 1 ≤ nk) (hl : nk ≤ before.length) :
    (nextWord table m nk i before).length = 4 := by
  have hhead : (before.headD []).length = 4 := by
    cases before with
    | nil => simp at hl; omega
    | cons w ws => exact hb w (by simp)
  have hold : (before.getD (nk - 1) []).length = 4 := by
    rw [List.getD_eq_getElem _ _ (by omega)]
    exact hb _ (List.getElem_mem _)
  simp only [nextWord, length_xorBytes, hold]
  generalize before.headD [] = t at hhead
  split
  · simp [rotWord, roundConstant, hhead]
  · split <;> simp [hhead]

theorem length_of_mem_expandWords {table : Bytes} {m : Byte} {nk : Nat} (hnk : 1 ≤ nk) (n i : Nat)
    {before : List Bytes} (hb : ∀ w ∈ before, w.length = 4) (hl : nk ≤ before.length) :
    (∀ w ∈ expandWords table m nk n i before, w.length = 4) ∧
      (expandWords table m nk n i before).length = n + before.length := by
  induction n generalizing i before with
  | zero => exact ⟨hb, by simp [expandWords]⟩
  | succ n ih =>
    have h := ih (i + 1) (before := nextWord table m nk i before :: before)
      (fun w hw => by
        rcases List.mem_cons.1 hw with rfl | hw
        · exact length_nextWord hb hnk hl
        · exact hb w hw) (by simp; omega)
    exact ⟨h.1, by rw [expandWords, h.2, List.length_cons]; omega⟩

/-- Every round key has `bs` bytes (45_rijndael.md R175). -/
theorem length_of_mem_rijKeygen {table key : Bytes} {bs : Nat} {m : Byte} (hbs : rijSize bs) (hks : rijSize key.length) :
    ∀ k ∈ rijKeygen table key bs m, k.length = bs := by
  refine length_of_mem_pieces ?_
  have hnk : 1 ≤ key.length / 4 := by rcases hks with h | h | h <;> simp [h]
  have hw := length_of_mem_expandWords (table := table) (m := m) hnk
    (bs / 4 * (rijRounds bs key.length + 1) - key.length / 4) (key.length / 4)
    (before := (pieces 4 (key.length / 4) key).reverse)
    (fun w hw => length_of_mem_pieces (by omega) w (List.mem_reverse.1 hw)) (by simp)
  rw [length_flatten_of_forall (k := 4) (fun w hx => hw.1 w (List.mem_reverse.1 hx)), List.length_reverse, hw.2]
  simp only [List.length_reverse, length_pieces]
  have : bs ≤ 4 * (bs / 4) := by rcases hbs with h | h | h <;> simp [h]
  have h2 : key.length / 4 ≤ bs / 4 * (rijRounds bs key.length + 1) := by
    simp only [rijRounds]
    rcases hbs with h | h | h <;> rcases hks with h' | h' | h' <;> simp [h, h']
  calc bs * (rijRounds bs key.length + 1)
      ≤ 4 * (bs / 4) * (rijRounds bs key.length + 1) := Nat.mul_le_mul_right _ this
    _ = 4 * (bs / 4 * (rijRounds bs key.length + 1)) := Nat.mul_assoc ..
    _ ≤ _ := by omega

/-- The whole schedule is at most 480 bytes (45_rijndael.md R194). -/
theorem length_flatten_rijKeygen_le {table key : Bytes} {bs : Nat} {m : Byte} (hbs : rijSize bs)
    (hks : rijSize key.length) : (rijKeygen table key bs m).flatten.length ≤ 480 := by
  rw [length_flatten_of_forall (length_of_mem_rijKeygen hbs hks), length_rijKeygen]
  simp only [rijRounds]
  rcases hbs with h | h | h <;> rcases hks with h' | h' | h' <;> simp [h, h']

theorem RijInst.length_roundKey {r : RijInst} (hr : r.ok) (hk : r.keyed = true) {i : Nat} (hi : i ≤ r.nr) :
    (r.roundKey i).length = r.bs := by
  obtain ⟨-, -, -, -, hlen, hkeys, -⟩ := hr.1 hk
  rw [RijInst.roundKey, List.getD_eq_getElem _ _ (by omega)]
  exact hkeys _ (List.getElem_mem _)

theorem length_rijEncrypt {r : RijInst} (hr : r.ok) (hk : r.keyed = true) {blk : Bytes} (hb : blk.length = r.bs) :
    (rijEncrypt r blk).length = r.bs := by
  have hbs := (hr.1 hk).1
  have hfold : ∀ (l : List Nat) (st : Bytes), (∀ i ∈ l, i ≤ r.nr) → st.length = r.bs →
      (l.foldl (fun st i => rijRound r.sbox r.m st (r.roundKey i)) st).length = r.bs := by
    intro l
    induction l with
    | nil => exact fun st _ h => h
    | cons i l ih =>
      intro st hl hst
      refine ih _ (fun j hj => hl j (by simp [hj])) ?_
      rw [length_rijRound (by rw [hst]; exact hbs) (by rw [hst]; exact r.length_roundKey hr hk (hl i (by simp)))]
      exact hst
  have hst := hfold (List.range' 1 (r.nr - 1)) (addRoundKey blk (r.roundKey 0))
    (fun i hi => by simp at hi; omega) (by simp [addRoundKey, hb, r.length_roundKey hr hk])
  simp only [rijEncrypt]
  rw [length_rijFinalRound (by rw [hst]; exact r.length_roundKey hr hk (le_refl _)), hst]

theorem length_rijDecrypt {r : RijInst} (hr : r.ok) (hk : r.keyed = true) {blk : Bytes} (hb : blk.length = r.bs) :
    (rijDecrypt r blk).length = r.bs := by
  have hbs := (hr.1 hk).1
  have hfold : ∀ (l : List Nat) (st : Bytes), (∀ i ∈ l, i ≤ r.nr) → st.length = r.bs →
      (l.foldl (fun st i => invMixColumns r.m (addRoundKey (subBytes r.invSbox (invShiftRows st)) (r.roundKey i)))
        st).length = r.bs := by
    intro l
    induction l with
    | nil => exact fun st _ h => h
    | cons i l ih =>
      intro st hl hst
      refine ih _ (fun j hj => hl j (by simp [hj])) ?_
      simp [addRoundKey, hst, r.length_roundKey hr hk (hl i (by simp)), rijSize_div_mul hbs]
  have hst := hfold (List.range' 1 (r.nr - 1)).reverse (addRoundKey blk (r.roundKey r.nr))
    (fun i hi => by simp at hi; omega) (by simp [addRoundKey, hb, r.length_roundKey hr hk])
  simp only [rijDecrypt]
  generalize List.foldl _ _ _ = st at hst
  simp [addRoundKey, hst, r.length_roundKey hr hk]

/-- The instance that RIJ_SETKEY builds is well formed (10_state.md R37, R40). -/
theorem RijInst.build_ok {bs : Nat} {m : Byte} {key : Bytes} (hbs : rijSize bs) (hks : rijSize key.length)
    (hm : irreducible m = true) : (RijInst.build bs m key).ok := by
  refine ⟨fun _ => ⟨hbs, hks, hm, rfl, ?_, ?_, rfl, rfl⟩, fun h => by cases h⟩
  · simp [RijInst.build]
  · exact length_of_mem_rijKeygen hbs hks

/-! ### Padding -/

theorem padCount_pos {bs : Nat} (h : 1 ≤ bs) (len : Nat) : 1 ≤ padCount bs len ∧ padCount bs len ≤ bs := by
  have := Nat.mod_lt len h
  simp only [padCount]; omega

/-- A pad adds at most one block (46_modes_padding.md R218 to R221). -/
theorem length_padBytes_le (scheme : PadScheme) {bs : Nat} (h : 1 ≤ bs) {filler : Nat → Bytes}
    (hf : ∀ n, (filler n).length = n) (d : Bytes) :
    (padBytes scheme bs filler d).length ≤ d.length + bs := by
  have := padCount_pos h d.length
  have h2 := Nat.mod_lt (bs - d.length % bs) h
  cases scheme <;> simp [padBytes, hf] <;> omega

theorem length_unpadCounted_le (check : Byte → Byte → Bool) (bs : Nat) (d : Bytes) :
    (unpadCounted check bs d).length ≤ d.length := by
  simp only [unpadCounted]
  split
  · exact le_refl _
  · split
    · simp
    · exact le_refl _

/-- Removing a pad never lengthens (46_modes_padding.md R223 to R226). -/
theorem length_unpadBytes_le (scheme : PadScheme) (bs : Nat) (d : Bytes) :
    (unpadBytes scheme bs d).length ≤ d.length := by
  cases scheme
  · simp only [unpadBytes, List.length_reverse]
    exact (List.length_dropWhile_le _ _).trans (by simp)
  all_goals exact length_unpadCounted_le ..

/-! ### Chaining modes -/

@[simp] theorem length_counterNext (t : Bytes) : (counterNext t).length = t.length := length_bytesBE ..

/-- The blocks of a string, all of them but the last of `bs` bytes (46_modes_padding.md R216). -/
theorem flatten_blocksOf {bs : Nat} (h : 1 ≤ bs) (d : Bytes) : (blocksOf bs d).flatten = d := by
  refine flatten_pieces ?_
  have := Nat.div_add_mod (d.length + bs - 1) bs
  have := Nat.mod_lt (d.length + bs - 1) h
  omega

theorem length_of_mem_blocksOf {bs : Nat} {d : Bytes} : ∀ b ∈ blocksOf bs d, b.length ≤ bs := by
  have : ∀ n d, ∀ b ∈ pieces bs n d, b.length ≤ bs := by
    intro n
    induction n with
    | zero => simp [pieces]
    | succ n ih =>
      intro d b hb
      rcases List.mem_cons.1 hb with rfl | hb
      · simp
      · exact ih _ b hb
  exact this _ _

theorem length_of_mem_blocksOf_aligned {bs : Nat} (h : 1 ≤ bs) {d : Bytes} (hd : d.length % bs = 0) :
    ∀ b ∈ blocksOf bs d, b.length = bs := by
  refine length_of_mem_pieces ?_
  obtain ⟨n, hn⟩ := Nat.dvd_of_mod_eq_zero hd
  rw [hn, show bs * n + bs - 1 = (bs - 1) + bs * n by omega, Nat.add_mul_div_left _ _ h, Nat.div_eq_of_lt (by omega),
    Nat.zero_add]

/-- How many blocks there are (46_modes_padding.md R216). -/
theorem length_blocksOf (bs : Nat) (d : Bytes) : (blocksOf bs d).length = (d.length + bs - 1) / bs := length_pieces ..

end Sys2Proof.Machine
end

