-- ==== Sys2Proof/Laws/Memory.lean ====
section
/-! SUPPORT. The laws of buffer memory: read after write, bytes left alone, and that writing keeps the canonical form. -/

set_option Elab.async false

namespace Sys2Proof.Machine.Memory

/-! ### One byte -/

@[simp] theorem read_nil (a : Nat) : read [] a = none := rfl

theorem read_cons (c : Host.Cell) (m : Memory) (a : Nat) :
    read (c :: m) a = if a = c.1 then some c.2 else read m a := by
  by_cases h : a = c.1
  · simp [read, List.lookup, h]
  · simp [read, List.lookup, h, beq_eq_false_iff_ne.2 h]

theorem read_append (m m' : Memory) (a : Nat) : read (m ++ m') a = (read m a).or (read m' a) := by
  induction m with
  | nil => simp
  | cons c m ih => rw [List.cons_append, read_cons, read_cons]; split <;> simp [ih]

/-- Filtering by a predicate on offsets keeps the bytes of the offsets it lets through and drops the others. -/
theorem read_filter (p : Nat → Bool) (m : Memory) (a : Nat) :
    read (m.filter fun c => p c.1) a = if p a then read m a else none := by
  induction m with
  | nil => simp
  | cons c m ih =>
    rw [List.filter_cons]
    by_cases hc : p c.1 = true
    · rw [if_pos hc, read_cons, read_cons, ih]
      by_cases ha : a = c.1 <;> simp [ha, hc]
    · rw [if_neg hc, ih, read_cons]
      by_cases ha : a = c.1 <;> simp [ha, hc]

theorem read_cells (bs : Bytes) (base a : Nat) :
    read (cells base bs) a = if base ≤ a then bs[a - base]? else none := by
  induction bs generalizing base with
  | nil => simp [cells]
  | cons b bs ih =>
    rw [cells, read_cons, ih]
    by_cases h : a = base
    · simp [h]
    · rw [if_neg h]
      by_cases h' : base ≤ a
      · rw [if_pos (by omega), if_pos h', show a - base = (a - (base + 1)) + 1 by omega, List.getElem?_cons_succ]
      · rw [if_neg (by omega), if_neg h']

/-- Reading one byte after writing a byte string: the written byte inside, the old byte outside. -/
theorem read_writeRange (m : Memory) (base : Nat) (bs : Bytes) (a : Nat) :
    read (writeRange m base bs) a = if base ≤ a ∧ a < base + bs.length then bs[a - base]? else read m a := by
  cases bs with
  | nil => rw [if_neg (by simp)]; rfl
  | cons b bs =>
    simp only [writeRange]
    rw [read_append, read_append, read_filter (fun x => decide (x < base)), read_cells,
      read_filter (fun x => decide (base + (b :: bs).length ≤ x))]
    generalize b :: bs = l
    by_cases h1 : a < base
    · rw [if_pos (by simpa using h1), if_neg (by omega), if_neg (by simp; omega), if_neg (by omega)]
      simp
    · rw [if_neg (by simpa using h1), if_pos (by omega)]
      by_cases h2 : a < base + l.length
      · rw [if_neg (by simpa using h2), if_pos (by omega)]
        simp
      · rw [if_pos (by simp; omega), if_neg (by omega), List.getElem?_eq_none (by omega)]
        simp

/-- Read after write. -/
theorem read_writeRange_inside {m : Memory} {base : Nat} {bs : Bytes} {i : Nat} (h : i < bs.length) :
    read (writeRange m base bs) (base + i) = bs[i]? := by
  rw [read_writeRange, if_pos (by omega), Nat.add_sub_cancel_left]

/-- A write leaves every other byte alone. -/
theorem read_writeRange_outside {m : Memory} {base : Nat} {bs : Bytes} {a : Nat}
    (h : a < base ∨ base + bs.length ≤ a) : read (writeRange m base bs) a = read m a := by
  rw [read_writeRange, if_neg (by omega)]

@[simp] theorem writeRange_nil (m : Memory) (base : Nat) : writeRange m base [] = m := rfl

/-! ### The canonical form -/

/-- The canonical form says that the offsets rise strictly. -/
theorem wf_iff (m : Memory) : m.wf = true ↔ m.Pairwise fun c d => c.1 < d.1 := by
  induction m with
  | nil => simp [wf]
  | cons c m ih =>
    cases m with
    | nil => simp [wf]
    | cons d m =>
      rw [wf, Bool.and_eq_true, ih, decide_eq_true_iff]
      constructor
      · rintro ⟨hcd, hm⟩
        refine List.pairwise_cons.2 ⟨fun e he => ?_, hm⟩
        rcases List.mem_cons.1 he with rfl | he
        · exact hcd
        · exact hcd.trans ((List.pairwise_cons.1 hm).1 e he)
      · intro h
        exact ⟨(List.pairwise_cons.1 h).1 d List.mem_cons_self, (List.pairwise_cons.1 h).2⟩

theorem mem_cells {bs : Bytes} {base : Nat} {c : Host.Cell} (h : c ∈ cells base bs) :
    base ≤ c.1 ∧ c.1 < base + bs.length := by
  induction bs generalizing base with
  | nil => simp [cells] at h
  | cons b bs ih =>
    rcases List.mem_cons.1 h with rfl | h
    · simp
    · have := ih h
      simp only [List.length_cons]; omega

theorem wf_cells (bs : Bytes) (base : Nat) : (cells base bs).Pairwise fun c d => c.1 < d.1 := by
  induction bs generalizing base with
  | nil => exact List.Pairwise.nil
  | cons b bs ih => exact List.pairwise_cons.2 ⟨fun c hc => (mem_cells hc).1, ih _⟩

/-- Writing keeps the canonical form. -/
theorem writeRange_wf {m : Memory} (h : m.wf = true) (base : Nat) (bs : Bytes) : (m.writeRange base bs).wf = true := by
  cases bs with
  | nil => exact h
  | cons b bs =>
    rw [wf_iff] at h ⊢
    simp only [writeRange]
    rw [List.pairwise_append, List.pairwise_append]
    refine ⟨⟨h.filter _, wf_cells _ _, fun c hc d hd => ?_⟩, h.filter _, fun c hc d hd => ?_⟩
    · have := (mem_cells hd).1
      simp only [List.mem_filter, decide_eq_true_eq] at hc
      omega
    · simp only [List.mem_filter, List.mem_append, decide_eq_true_eq] at hc hd
      rcases hc with hc | hc
      · omega
      · have := (mem_cells hc).2
        omega

/-- Every cell after a write was there before or is one of the written bytes. -/
theorem mem_writeRange {m : Memory} {base : Nat} {bs : Bytes} {c : Host.Cell} (h : c ∈ m.writeRange base bs) :
    c ∈ m ∨ (base ≤ c.1 ∧ c.1 < base + bs.length) := by
  cases bs with
  | nil => exact .inl h
  | cons b bs =>
    simp only [writeRange, List.mem_append, List.mem_filter] at h
    rcases h with (h | h) | h
    · exact .inl h.1
    · exact .inr (mem_cells h)
    · exact .inl h.1

/-! ### Reading a range -/

/-- A range read succeeds exactly when the cells of the range are the whole range. -/
theorem readRange_eq (m : Memory) (base n : Nat) :
    m.readRange base n =
      if (m.filter fun c => base ≤ c.1 && c.1 < base + n).map (·.1) = List.range' base n then
        some ((m.filter fun c => base ≤ c.1 && c.1 < base + n).map (·.2)) else none := by
  simp only [readRange]
  generalize m.filter _ = cells
  refine if_congr ⟨fun h => by rw [h.2, h.1], fun h => ?_⟩ rfl rfl
  have hl : cells.length = n := by simpa using congrArg List.length h
  exact ⟨hl, by rw [h, hl]⟩

theorem readRange_length {m : Memory} {base n : Nat} {bs : Bytes} (h : m.readRange base n = some bs) :
    bs.length = n := by
  rw [readRange_eq] at h
  split at h
  · next hc =>
    cases h
    simpa using congrArg List.length hc
  · cases h

/-- In canonical memory, a range read gives exactly the bytes that single reads give. -/
theorem readRange_eq_some {m : Memory} (hm : m.wf = true) {base n : Nat} {bs : Bytes} :
    m.readRange base n = some bs ↔ bs.length = n ∧ ∀ i < n, m.read (base + i) = bs[i]? := by
  have hread : ∀ i < n, m.read (base + i) = read (m.filter fun c => base ≤ c.1 && c.1 < base + n) (base + i) := by
    intro i hi
    rw [read_filter (fun x => decide (base ≤ x) && decide (x < base + n)), if_pos (by simp; omega)]
  have hcells : ∀ (l : Memory) (k : Nat), l.map (·.1) = List.range' k l.length → l = cells k (l.map (·.2)) := by
    intro l
    induction l with
    | nil => intro k _; rfl
    | cons c l ih =>
      intro k h
      simp only [List.map_cons, List.length_cons, List.range'_succ, List.cons.injEq] at h
      have h2 := ih (k + 1) h.2
      rw [List.map_cons, cells, ← h2, ← h.1]
  constructor
  · intro h
    refine ⟨readRange_length h, fun i hi => ?_⟩
    rw [readRange_eq] at h
    split at h
    · next hc =>
      cases h
      have hlen := congrArg List.length hc
      simp only [List.length_map, List.length_range'] at hlen
      rw [hread i hi]
      have := hcells _ base (by rw [hc, hlen])
      conv_lhs => rw [this]
      rw [read_cells, if_pos (by omega), Nat.add_sub_cancel_left]
    · cases h
  · rintro ⟨hlen, h⟩
    have key : (m.filter fun c => base ≤ c.1 && c.1 < base + n) = cells base bs := by
      refine List.Perm.eq_of_pairwise (le := fun c d => c.1 < d.1) (fun a b _ _ h1 h2 => absurd h1 (by omega))
        (((wf_iff m).1 hm).filter _) (wf_cells _ _) ?_
      refine (List.perm_ext_iff_of_nodup ?_ ?_).2 fun c => ?_
      · exact (((wf_iff m).1 hm).filter _).imp (fun h => by rintro rfl; exact absurd h (lt_irrefl _))
      · exact (wf_cells bs base).imp (fun h => by rintro rfl; exact absurd h (lt_irrefl _))
      · have hin : ∀ (l : Memory), (l.Pairwise fun c d => c.1 < d.1) → ∀ c : Host.Cell, c ∈ l ↔ read l c.1 = some c.2 := by
          intro l hl c
          induction l with
          | nil => simp
          | cons d l ih =>
            rw [read_cons, List.mem_cons, ih (List.pairwise_cons.1 hl).2]
            by_cases hcd : c.1 = d.1
            · rw [if_pos hcd]
              constructor
              · rintro (rfl | h)
                · rfl
                · have := (List.pairwise_cons.1 hl).1 c ((ih (List.pairwise_cons.1 hl).2).2 h)
                  omega
              · intro h
                exact .inl (Prod.ext hcd (Option.some.inj h).symm)
            · rw [if_neg hcd]
              exact ⟨fun h => h.resolve_left fun h => hcd (by rw [h]), .inr⟩
        rw [hin _ (((wf_iff m).1 hm).filter _), hin _ (wf_cells bs base), read_cells,
          read_filter (fun x => decide (base ≤ x) && decide (x < base + n))]
        by_cases hr : base ≤ c.1 ∧ c.1 < base + n
        · have := h (c.1 - base) (by omega)
          rw [show base + (c.1 - base) = c.1 by omega] at this
          simp [hr, this]
        · have hno : ¬ (base ≤ c.1 ∧ c.1 - base < bs.length) := by omega
          have : (if base ≤ c.1 then bs[c.1 - base]? else none) = none := by
            split
            · exact List.getElem?_eq_none (by omega)
            · rfl
          rw [this]
          simp; omega
    have hmap : ∀ (l : Bytes) (k : Nat), (cells k l).map (·.1) = List.range' k l.length ∧ (cells k l).map (·.2) = l := by
      intro l
      induction l with
      | nil => intro k; simp [cells]
      | cons b l ih => intro k; simp [cells, ih, List.range'_succ]
    rw [readRange_eq, key, (hmap bs base).1, (hmap bs base).2, hlen, if_pos rfl]

/-- Reading no bytes never finds a byte without a value. -/
@[simp] theorem readRange_zero (m : Memory) (base : Nat) : m.readRange base 0 = some [] := by
  rw [readRange_eq]
  simp only [List.range'_zero, Nat.add_zero]
  have : (m.filter fun c => base ≤ c.1 && c.1 < base) = [] := by
    rw [List.filter_eq_nil_iff]
    intro c _
    simp
  rw [this]
  rfl

end Sys2Proof.Machine.Memory
end

