-- ==== Sys2Proof/Laws/State.lean ====
section
/-! SUPPORT. One lemma for each field of State and each named update of it, so that no proof unfolds a record update. -/

set_option Elab.async false

namespace Sys2Proof.Machine.State

variable (s : State)

@[simp] theorem raised_params (e : ErrCode) : (s.raised e).params = s.params := rfl
@[simp] theorem raised_len (e : ErrCode) : (s.raised e).len = s.len := rfl
@[simp] theorem raised_klen (e : ErrCode) : (s.raised e).klen = s.klen := rfl
@[simp] theorem raised_ivlen (e : ErrCode) : (s.raised e).ivlen = s.ivlen := rfl
@[simp] theorem raised_tlen (e : ErrCode) : (s.raised e).tlen = s.tlen := rfl
@[simp] theorem raised_arg0 (e : ErrCode) : (s.raised e).arg0 = s.arg0 := rfl
@[simp] theorem raised_arg1 (e : ErrCode) : (s.raised e).arg1 = s.arg1 := rfl
@[simp] theorem raised_arg2 (e : ErrCode) : (s.raised e).arg2 = s.arg2 := rfl
@[simp] theorem raised_res (e : ErrCode) : (s.raised e).res = s.res := rfl
@[simp] theorem raised_outlen (e : ErrCode) : (s.raised e).outlen = s.outlen := rfl
@[simp] theorem raised_err (e : ErrCode) : (s.raised e).err = e := rfl
@[simp] theorem raised_errSeen (e : ErrCode) : (s.raised e).errSeen = true := rfl
@[simp] theorem raised_mem (e : ErrCode) : (s.raised e).mem = s.mem := rfl
@[simp] theorem raised_des (e : ErrCode) : (s.raised e).des = s.des := rfl
@[simp] theorem raised_deal (e : ErrCode) : (s.raised e).deal = s.deal := rfl
@[simp] theorem raised_rij (e : ErrCode) : (s.raised e).rij = s.rij := rfl
@[simp] theorem raised_host (e : ErrCode) : (s.raised e).host = s.host := rfl
@[simp] theorem raised_readData (e : ErrCode) : (s.raised e).readData = s.readData := rfl
@[simp] theorem raised_draws (e : ErrCode) : (s.raised e).draws = s.draws := rfl

@[simp] theorem writeObuf_params (out : Bytes) : (s.writeObuf out).params = s.params := rfl
@[simp] theorem writeObuf_len (out : Bytes) : (s.writeObuf out).len = s.len := rfl
@[simp] theorem writeObuf_klen (out : Bytes) : (s.writeObuf out).klen = s.klen := rfl
@[simp] theorem writeObuf_ivlen (out : Bytes) : (s.writeObuf out).ivlen = s.ivlen := rfl
@[simp] theorem writeObuf_tlen (out : Bytes) : (s.writeObuf out).tlen = s.tlen := rfl
@[simp] theorem writeObuf_arg0 (out : Bytes) : (s.writeObuf out).arg0 = s.arg0 := rfl
@[simp] theorem writeObuf_arg1 (out : Bytes) : (s.writeObuf out).arg1 = s.arg1 := rfl
@[simp] theorem writeObuf_arg2 (out : Bytes) : (s.writeObuf out).arg2 = s.arg2 := rfl
@[simp] theorem writeObuf_res (out : Bytes) : (s.writeObuf out).res = s.res := rfl
@[simp] theorem writeObuf_outlen (out : Bytes) : (s.writeObuf out).outlen = s.outlen := rfl
@[simp] theorem writeObuf_err (out : Bytes) : (s.writeObuf out).err = s.err := rfl
@[simp] theorem writeObuf_errSeen (out : Bytes) : (s.writeObuf out).errSeen = s.errSeen := rfl
@[simp] theorem writeObuf_mem (out : Bytes) : (s.writeObuf out).mem = s.mem.writeRange Buf.obuf.base out := rfl
@[simp] theorem writeObuf_des (out : Bytes) : (s.writeObuf out).des = s.des := rfl
@[simp] theorem writeObuf_deal (out : Bytes) : (s.writeObuf out).deal = s.deal := rfl
@[simp] theorem writeObuf_rij (out : Bytes) : (s.writeObuf out).rij = s.rij := rfl
@[simp] theorem writeObuf_host (out : Bytes) : (s.writeObuf out).host = s.host := rfl
@[simp] theorem writeObuf_readData (out : Bytes) : (s.writeObuf out).readData = s.readData := rfl
@[simp] theorem writeObuf_draws (out : Bytes) : (s.writeObuf out).draws = s.draws := rfl

@[simp] theorem completed_params (r : Word) (out : Bytes) : (s.completed r out).params = s.params := rfl
@[simp] theorem completed_len (r : Word) (out : Bytes) : (s.completed r out).len = s.len := rfl
@[simp] theorem completed_klen (r : Word) (out : Bytes) : (s.completed r out).klen = s.klen := rfl
@[simp] theorem completed_ivlen (r : Word) (out : Bytes) : (s.completed r out).ivlen = s.ivlen := rfl
@[simp] theorem completed_tlen (r : Word) (out : Bytes) : (s.completed r out).tlen = s.tlen := rfl
@[simp] theorem completed_arg0 (r : Word) (out : Bytes) : (s.completed r out).arg0 = s.arg0 := rfl
@[simp] theorem completed_arg1 (r : Word) (out : Bytes) : (s.completed r out).arg1 = s.arg1 := rfl
@[simp] theorem completed_arg2 (r : Word) (out : Bytes) : (s.completed r out).arg2 = s.arg2 := rfl
@[simp] theorem completed_res (r : Word) (out : Bytes) : (s.completed r out).res = r := rfl
@[simp] theorem completed_outlen (r : Word) (out : Bytes) : (s.completed r out).outlen = BitVec.ofNat 32 out.length := rfl
@[simp] theorem completed_err (r : Word) (out : Bytes) : (s.completed r out).err = .ok := rfl
@[simp] theorem completed_errSeen (r : Word) (out : Bytes) : (s.completed r out).errSeen = s.errSeen := rfl
@[simp] theorem completed_mem (r : Word) (out : Bytes) : (s.completed r out).mem = s.mem.writeRange Buf.obuf.base out := rfl
@[simp] theorem completed_des (r : Word) (out : Bytes) : (s.completed r out).des = s.des := rfl
@[simp] theorem completed_deal (r : Word) (out : Bytes) : (s.completed r out).deal = s.deal := rfl
@[simp] theorem completed_rij (r : Word) (out : Bytes) : (s.completed r out).rij = s.rij := rfl
@[simp] theorem completed_host (r : Word) (out : Bytes) : (s.completed r out).host = s.host := rfl
@[simp] theorem completed_readData (r : Word) (out : Bytes) : (s.completed r out).readData = s.readData := rfl
@[simp] theorem completed_draws (r : Word) (out : Bytes) : (s.completed r out).draws = s.draws := rfl

@[simp] theorem drew_params (n : Nat) : (s.drew n).params = s.params := rfl
@[simp] theorem drew_len (n : Nat) : (s.drew n).len = s.len := rfl
@[simp] theorem drew_klen (n : Nat) : (s.drew n).klen = s.klen := rfl
@[simp] theorem drew_ivlen (n : Nat) : (s.drew n).ivlen = s.ivlen := rfl
@[simp] theorem drew_tlen (n : Nat) : (s.drew n).tlen = s.tlen := rfl
@[simp] theorem drew_arg0 (n : Nat) : (s.drew n).arg0 = s.arg0 := rfl
@[simp] theorem drew_arg1 (n : Nat) : (s.drew n).arg1 = s.arg1 := rfl
@[simp] theorem drew_arg2 (n : Nat) : (s.drew n).arg2 = s.arg2 := rfl
@[simp] theorem drew_res (n : Nat) : (s.drew n).res = s.res := rfl
@[simp] theorem drew_outlen (n : Nat) : (s.drew n).outlen = s.outlen := rfl
@[simp] theorem drew_err (n : Nat) : (s.drew n).err = s.err := rfl
@[simp] theorem drew_errSeen (n : Nat) : (s.drew n).errSeen = s.errSeen := rfl
@[simp] theorem drew_mem (n : Nat) : (s.drew n).mem = s.mem := rfl
@[simp] theorem drew_des (n : Nat) : (s.drew n).des = s.des := rfl
@[simp] theorem drew_deal (n : Nat) : (s.drew n).deal = s.deal := rfl
@[simp] theorem drew_rij (n : Nat) : (s.drew n).rij = s.rij := rfl
@[simp] theorem drew_host (n : Nat) : (s.drew n).host = s.host := rfl
@[simp] theorem drew_readData (n : Nat) : (s.drew n).readData = s.readData := rfl
@[simp] theorem drew_draws (n : Nat) : (s.drew n).draws = s.draws + n := rfl

@[simp] theorem wasReset_params : s.wasReset.params = s.params := rfl
@[simp] theorem wasReset_len : s.wasReset.len = 0 := rfl
@[simp] theorem wasReset_klen : s.wasReset.klen = 0 := rfl
@[simp] theorem wasReset_ivlen : s.wasReset.ivlen = 0 := rfl
@[simp] theorem wasReset_tlen : s.wasReset.tlen = 0 := rfl
@[simp] theorem wasReset_arg0 : s.wasReset.arg0 = 0 := rfl
@[simp] theorem wasReset_arg1 : s.wasReset.arg1 = 0 := rfl
@[simp] theorem wasReset_arg2 : s.wasReset.arg2 = 0 := rfl
@[simp] theorem wasReset_res : s.wasReset.res = 0 := rfl
@[simp] theorem wasReset_outlen : s.wasReset.outlen = 0 := rfl
@[simp] theorem wasReset_err : s.wasReset.err = .ok := rfl
@[simp] theorem wasReset_errSeen : s.wasReset.errSeen = false := rfl
@[simp] theorem wasReset_mem : s.wasReset.mem = [] := rfl
@[simp] theorem wasReset_des : s.wasReset.des = .cleared := rfl
@[simp] theorem wasReset_deal : s.wasReset.deal = .cleared := rfl
@[simp] theorem wasReset_rij : s.wasReset.rij = .cleared := rfl
@[simp] theorem wasReset_host : s.wasReset.host = s.host := rfl
@[simp] theorem wasReset_readData : s.wasReset.readData = s.readData := rfl
@[simp] theorem wasReset_draws : s.wasReset.draws = s.draws := rfl

@[simp] theorem pushCommand_params (w : Word) : (s.pushCommand w).params = s.params := rfl
@[simp] theorem pushCommand_len (w : Word) : (s.pushCommand w).len = s.len := rfl
@[simp] theorem pushCommand_klen (w : Word) : (s.pushCommand w).klen = s.klen := rfl
@[simp] theorem pushCommand_ivlen (w : Word) : (s.pushCommand w).ivlen = s.ivlen := rfl
@[simp] theorem pushCommand_tlen (w : Word) : (s.pushCommand w).tlen = s.tlen := rfl
@[simp] theorem pushCommand_arg0 (w : Word) : (s.pushCommand w).arg0 = s.arg0 := rfl
@[simp] theorem pushCommand_arg1 (w : Word) : (s.pushCommand w).arg1 = s.arg1 := rfl
@[simp] theorem pushCommand_arg2 (w : Word) : (s.pushCommand w).arg2 = s.arg2 := rfl
@[simp] theorem pushCommand_res (w : Word) : (s.pushCommand w).res = s.res := rfl
@[simp] theorem pushCommand_outlen (w : Word) : (s.pushCommand w).outlen = s.outlen := rfl
@[simp] theorem pushCommand_err (w : Word) : (s.pushCommand w).err = s.err := rfl
@[simp] theorem pushCommand_errSeen (w : Word) : (s.pushCommand w).errSeen = s.errSeen := rfl
@[simp] theorem pushCommand_mem (w : Word) : (s.pushCommand w).mem = s.mem := rfl
@[simp] theorem pushCommand_des (w : Word) : (s.pushCommand w).des = s.des := rfl
@[simp] theorem pushCommand_deal (w : Word) : (s.pushCommand w).deal = s.deal := rfl
@[simp] theorem pushCommand_rij (w : Word) : (s.pushCommand w).rij = s.rij := rfl
@[simp] theorem pushCommand_host (w : Word) : (s.pushCommand w).host = .write32 0x00000 w :: s.host := rfl
@[simp] theorem pushCommand_readData (w : Word) : (s.pushCommand w).readData = s.readData := rfl
@[simp] theorem pushCommand_draws (w : Word) : (s.pushCommand w).draws = s.draws := rfl

end Sys2Proof.Machine.State
end

