-- ==== Sys2Proof/Laws/Ops.lean ====
section
/-! SUPPORT. What each shared operation of a command can do, said once. `Ends s P r` says how a command run in `s` may end: in
an error, which writes STATUS alone; in a success of the form that `P` allows; in the model fault of a read of bytes that
hold no value; never in a refusal (60_exceptions.md R250, R255, R256, R259). -/

set_option Elab.async false

namespace Sys2Proof.Machine

/-- `P u res out`: a success that completes with `res` and `out` from the state `u`. -/
def Ends (s : State) (P : State → Word → Bytes → Prop) : Result → Prop
  | .next t => (∃ e, e ≠ ErrCode.ok ∧ t = s.raised e) ∨ ∃ u res out, P u res out ∧ t = u.completed res out
  | .fault f => ∃ b n, f = .noValue b ∧ s.memRead b 0 n = none
  | .refused _ => False

variable {s : State} {P : State → Word → Bytes → Prop}

theorem ends_raiseError {e : ErrCode} (he : e ≠ .ok) : Ends s P (raiseError e s) := .inl ⟨e, he, rfl⟩

theorem ends_require {p : Prop} [Decidable p] {e : ErrCode} (he : e ≠ .ok) {go : Result} (h : p → Ends s P go) :
    Ends s P (require p e s fun _ => go) := by
  unfold require
  split
  · exact h ‹_›
  · exact ends_raiseError he

theorem ends_requireSome {α : Type} {o : Option α} {e : ErrCode} (he : e ≠ .ok) {go : α → Result}
    (h : ∀ a, o = some a → Ends s P (go a)) : Ends s P (requireSome o e s go) := by
  unfold requireSome
  split
  · exact h _ rfl
  · exact ends_raiseError he

theorem ends_withBytes {b : Buf} {n : Nat} {go : Bytes → Result}
    (h : ∀ bs, s.memRead b 0 n = some bs → bs.length = n → Ends s P (go bs)) : Ends s P (withBytes b n s go) := by
  unfold withBytes
  split
  · next hbs => exact h _ hbs (Memory.readRange_length hbs)
  · next hbs => exact ⟨b, n, rfl, hbs⟩

theorem ends_withTable {n : Nat} {go : List Nat → Result} (h : ∀ bs : Bytes, bs.length = 2 * n → Ends s P (go (entriesOf bs))) :
    Ends s P (withTable n s go) := ends_withBytes fun bs _ hl => h bs hl

theorem ends_succeedBytes {u : State} {out : Bytes} (h : P u 0 out) : Ends s P (succeedBytes out u) :=
  .inr ⟨u, 0, out, h, rfl⟩

theorem ends_succeedScalar {u : State} {res : Word} (h : P u res []) : Ends s P (succeedScalar res u) :=
  .inr ⟨u, res, [], h, rfl⟩

/-! ### The checks, where they hold and where they do not -/

theorem require_pos {p : Prop} [Decidable p] (h : p) (e : ErrCode) (s : State) (go : Result) :
    require p e s (fun _ => go) = go := if_pos h

theorem require_neg {p : Prop} [Decidable p] (h : ¬p) (e : ErrCode) (s : State) (go : Result) :
    require p e s (fun _ => go) = .next (s.raised e) := if_neg h

@[simp] theorem requireSome_some {α : Type} (a : α) (e : ErrCode) (s : State) (go : α → Result) :
    requireSome (some a) e s go = go a := rfl

@[simp] theorem requireSome_none {α : Type} (e : ErrCode) (s : State) (go : α → Result) :
    requireSome none e s go = .next (s.raised e) := rfl

theorem withBytes_some {b : Buf} {n : Nat} {s : State} {bs : Bytes} (h : s.memRead b 0 n = some bs) (go : Bytes → Result) :
    withBytes b n s go = go bs := by rw [withBytes, h]

theorem withBytes_none {b : Buf} {n : Nat} {s : State} (h : s.memRead b 0 n = none) (go : Bytes → Result) :
    withBytes b n s go = .fault (.noValue b) := by rw [withBytes, h]

/-! ### Operand forms -/

theorem byteArg_of_le {r : Word} (h : r.toNat ≤ 0xFF) : byteArg r = some (r.setWidth 8) := if_pos h

theorem byteArg_of_gt {r : Word} (h : 0xFF < r.toNat) : byteArg r = none := if_neg (by omega)

@[simp] theorem length_entriesOf (bs : Bytes) : (entriesOf bs).length = bs.length / 2 := by
  induction bs using entriesOf.induct with
  | case1 lo hi rest ih => simp only [entriesOf, List.length_cons, ih]; omega
  | case2 bs h =>
    match bs, h with
    | [], _ => rfl
    | [_], _ => simp [entriesOf]
    | a :: b :: r, h => exact absurd rfl (h a b r)

theorem blockSizeOf_rijSize {c : BitVec 2} {bs : Nat} (h : blockSizeOf c = some bs) : rijSize bs := by
  unfold blockSizeOf at h
  split at h <;> simp only [Option.some.injEq, reduceCtorEq] at h <;> simp [rijSize, ← h]

/-! ### What a success leaves -/

/-- A success writes its output and leaves the rest as `Completed` says (60_exceptions.md R256). -/
theorem completed_of_inputs {s u : State} (res : Word) (out : Bytes) (hk : InputsKept s u)
    (hm : ∀ a, u.mem.read a = s.mem.read a) : Completed s (u.completed res out) res out where
  err := rfl
  res := rfl
  outlen := rfl
  output := fun i hi => Memory.read_writeRange_inside hi
  others := fun a ha => by
    rw [State.completed_mem, Memory.read_writeRange_outside ha, hm]
  kept :=
    { params := hk.params, len := hk.len, klen := hk.klen, ivlen := hk.ivlen, tlen := hk.tlen, arg0 := hk.arg0,
      arg1 := hk.arg1, arg2 := hk.arg2, host := hk.host, readData := hk.readData
      inputs := fun a ha => by rw [State.completed_mem, Memory.read_writeRange_outside (.inl ha), hm] }

theorem InputsKept.refl (s : State) : InputsKept s s := by constructor <;> intros <;> rfl

/-- The success of a command that touches no instance, no ERRSEEN and no free byte. -/
theorem completedPlain (s : State) (res : Word) (out : Bytes) : CompletedPlain s (s.completed res out) res out :=
  { completed_of_inputs res out (.refl s) fun _ => rfl with
    instances := ⟨rfl, rfl, rfl⟩, errSeen := rfl, draws := rfl }

end Sys2Proof.Machine
end

