-- ==== Sys2Proof/Laws/Exec.lean ====
section
/-! SUPPORT. What a command can do, said once for all of them (`exec_ends`): every later statement about every command
follows from it. -/

set_option Elab.async false

namespace Sys2Proof.Machine

/-- The state from which a success of `i` in `s` completes: `s` with the one change outside RES, OUTLEN, OBUF and ERR that
the rule of `i` makes. -/
def Becomes (i : Instr) (s u : State) : Prop :=
  match i with
  | .zeroize => u = { s with des := .cleared, deal := .cleared, rij := .cleared }
  | .clrerr => u = { s with errSeen := false }
  | .desSetKey => ∃ key, u = { s with des := { keyed := true, rk := desKeygen key } }
  | .dealSetKey => ∃ mk, u = { s with deal := { keyed := true, rk := dealKeygen mk } }
  | .rijSetKey _ => ∃ bs m key, rijSize bs ∧ rijSize key.length ∧ irreducible m = true ∧
      u = { s with rij := RijInst.build bs m key }
  | .modeEnc _ _ _ => ∃ n, u = s.drew n
  | .pad _ => ∃ n, u = s.drew n
  | _ => u = s

/-- A success of `i` in `s`; in a state that meets the invariant its output fits OBUF. -/
def Succeeds (i : Instr) (s u : State) (out : Bytes) : Prop :=
  Becomes i s u ∧ (s.inv → out.length ≤ s.params.obufBytes)

theorem fits {s : State} {n : Nat} (h : n ≤ 544) (hs : s.inv) : n ≤ s.params.obufBytes := by
  have := hs.1.1
  simp only [Params.obufBytes]; omega

theorem length_flatten_le_of_forall {k : Nat} {l : List Bytes} (h : ∀ x ∈ l, x.length ≤ k) :
    l.flatten.length ≤ k * l.length := by
  induction l with
  | nil => simp
  | cons a l ih =>
    have h1 := h a (by simp)
    have h2 := ih fun x hx => h x (by simp [hx])
    rw [List.flatten_cons, List.length_append, List.length_cons, Nat.mul_succ]; omega

/-- A keyed cipher of a well-formed state has a block size of 1 to 32 bytes and maps blocks to blocks (46_modes_padding.md
R215). -/
theorem cipherOf_ok {s : State} (hs : s.inv) (sel : CipherSel) (hk : (cipherOf s sel).keyed = true) :
    1 ≤ (cipherOf s sel).bs ∧ (cipherOf s sel).bs ≤ 32 ∧
      (∀ b, b.length = (cipherOf s sel).bs → ((cipherOf s sel).encrypt b).length = (cipherOf s sel).bs) ∧
      (∀ b, b.length = (cipherOf s sel).bs → ((cipherOf s sel).decrypt b).length = (cipherOf s sel).bs) := by
  cases sel with
  | des => exact ⟨by simp [cipherOf], by simp [cipherOf], fun _ _ => length_desEncrypt _ _, fun _ _ => length_desDecrypt _ _⟩
  | deal => exact ⟨by simp [cipherOf], by simp [cipherOf], fun _ h => length_dealEncrypt _ _ h, fun _ h => length_dealDecrypt _ _ h⟩
  | rijndael =>
    have hr : s.rij.ok := hs.2.2.2.2.2.1
    have hsz := (hr.1 hk).1
    refine ⟨?_, ?_, fun b h => length_rijEncrypt hr hk h, fun b h => length_rijDecrypt hr hk h⟩ <;>
      · simp only [cipherOf]
        rcases hsz with h | h | h <;> omega

/-! ### The lengths of the modes' outputs -/

theorem length_flatten_map {f : Bytes → Bytes} {bs : Nat} (hf : ∀ b, b.length = bs → (f b).length = bs)
    {l : List Bytes} (h : ∀ b ∈ l, b.length = bs) : (l.map f).flatten.length = l.flatten.length := by
  rw [length_flatten_of_forall (k := bs) fun x hx => ?_, length_flatten_of_forall h, List.length_map]
  obtain ⟨b, hb, rfl⟩ := List.mem_map.1 hx
  exact hf b (h b hb)

theorem length_flatten_cbcEncrypt {e : Bytes → Bytes} {bs : Nat} (he : ∀ b, b.length = bs → (e b).length = bs)
    {l : List Bytes} (h : ∀ b ∈ l, b.length = bs) {prev : Bytes} (hp : prev.length = bs) :
    (cbcEncrypt e prev l).flatten.length = l.flatten.length := by
  induction l generalizing prev with
  | nil => rfl
  | cons p ps ih =>
    have hx : (e (xorBytes p prev)).length = bs := he _ (by simp [hp, h p (by simp)])
    simp only [cbcEncrypt, List.flatten_cons, List.length_append]
    rw [ih (fun b hb => h b (by simp [hb])) hx, hx, h p (by simp)]

theorem length_flatten_cbcDecrypt {d : Bytes → Bytes} {bs : Nat} (hd : ∀ b, b.length = bs → (d b).length = bs)
    {l : List Bytes} (h : ∀ b ∈ l, b.length = bs) {prev : Bytes} (hp : prev.length = bs) :
    (cbcDecrypt d prev l).flatten.length = l.flatten.length := by
  induction l generalizing prev with
  | nil => rfl
  | cons c cs ih =>
    have hc := h c (by simp)
    simp only [cbcDecrypt, List.flatten_cons, List.length_append]
    rw [ih (fun b hb => h b (by simp [hb])) hc]
    simp [hd c hc, hp, hc]

/-- The output of a stream mode is never longer than its input, whatever the cipher (46_modes_padding.md R217). -/
theorem length_flatten_stream_le (f : Bytes → List Bytes → List Bytes)
    (hnil : ∀ k, f k [] = []) (hcons : ∀ k x xs, ∃ y k', y.length ≤ x.length ∧ f k (x :: xs) = y :: f k' xs)
    (k : Bytes) (l : List Bytes) : (f k l).flatten.length ≤ l.flatten.length := by
  induction l generalizing k with
  | nil => simp [hnil]
  | cons x xs ih =>
    obtain ⟨y, k', hy, h⟩ := hcons k x xs
    have := ih k'
    rw [h, List.flatten_cons, List.length_append, List.flatten_cons, List.length_append]; omega

theorem length_flatten_cfbEncrypt_le (e : Bytes → Bytes) (k : Bytes) (l : List Bytes) :
    (cfbEncrypt e k l).flatten.length ≤ l.flatten.length :=
  length_flatten_stream_le _ (fun _ => rfl) (fun k x xs => ⟨xorBytes x (e k), xorBytes x (e k), by simp, rfl⟩) k l

theorem length_flatten_cfbDecrypt_le (e : Bytes → Bytes) (k : Bytes) (l : List Bytes) :
    (cfbDecrypt e k l).flatten.length ≤ l.flatten.length :=
  length_flatten_stream_le _ (fun _ => rfl) (fun k x xs => ⟨xorBytes x (e k), x, by simp, rfl⟩) k l

theorem length_flatten_ofbCrypt_le (e : Bytes → Bytes) (k : Bytes) (l : List Bytes) :
    (ofbCrypt e k l).flatten.length ≤ l.flatten.length :=
  length_flatten_stream_le _ (fun _ => rfl) (fun k x xs => ⟨xorBytes x (e k), e k, by simp, rfl⟩) k l

theorem length_flatten_ctrCrypt_le (e : Bytes → Bytes) (k : Bytes) (l : List Bytes) :
    (ctrCrypt e k l).flatten.length ≤ l.flatten.length :=
  length_flatten_stream_le _ (fun _ => rfl) (fun k x xs => ⟨xorBytes x (e k), counterNext k, by simp, rfl⟩) k l

/-- A pad makes the length a multiple of the block size (46_modes_padding.md R218 to R221). -/
theorem length_padBytes_mod (scheme : PadScheme) {bs : Nat} (h : 1 ≤ bs) {filler : Nat → Bytes}
    (hf : ∀ n, (filler n).length = n) (d : Bytes) : (padBytes scheme bs filler d).length % bs = 0 := by
  have hlt := Nat.mod_lt d.length h
  have hz : (d.length + (bs - d.length % bs)) % bs = 0 := by
    rw [Nat.add_mod]
    rcases Nat.eq_zero_or_pos (d.length % bs) with h0 | h0
    · simp [h0]
    · rw [Nat.mod_eq_of_lt (a := bs - d.length % bs) (by omega), Nat.add_sub_cancel' (le_of_lt hlt), Nat.mod_self]
  have hp := (padCount_pos h d.length).1
  cases scheme
  · simp only [padBytes, List.length_append, List.length_replicate]
    simpa [Nat.add_mod] using hz
  all_goals
    simp only [padBytes, List.length_append, List.length_replicate, List.length_singleton, hf]
    first
      | exact hz
      | rw [Nat.add_assoc, Nat.sub_add_cancel hp]; exact hz

theorem length_modeEncOutput_le {s : State} (hs : s.inv) {sel : CipherSel} (hk : (cipherOf s sel).keyed = true)
    (mode : ChainMode) (scheme : PadScheme) {iv : Bytes} (hiv : mode ≠ .ecb → iv.length = (cipherOf s sel).bs)
    {filler : Nat → Bytes} (hf : ∀ n, (filler n).length = n) (p : Bytes) :
    (modeEncOutput mode scheme (cipherOf s sel) iv filler p).length ≤ p.length + 32 := by
  obtain ⟨h1, h32, he, -⟩ := cipherOf_ok hs sel hk
  have hpad := length_padBytes_le scheme h1 hf p
  have hall := length_of_mem_blocksOf_aligned h1 (length_padBytes_mod scheme h1 hf p)
  have hflat := flatten_blocksOf h1 p
  have hflat' := flatten_blocksOf h1 (padBytes scheme (cipherOf s sel).bs filler p)
  cases mode <;> simp only [modeEncOutput, modeEncrypt, ChainMode.padded, if_true, Bool.false_eq_true, if_false]
  · rw [length_flatten_map he hall, hflat']; omega
  · rw [length_flatten_cbcEncrypt he hall (hiv (by simp)), hflat']; omega
  · exact (length_flatten_cfbEncrypt_le _ _ _).trans (by rw [hflat]; omega)
  · exact (length_flatten_ofbCrypt_le _ _ _).trans (by rw [hflat]; omega)
  · exact (length_flatten_ctrCrypt_le _ _ _).trans (by rw [hflat]; omega)

theorem length_modeDecOutput_le {s : State} (hs : s.inv) {sel : CipherSel} (hk : (cipherOf s sel).keyed = true)
    (mode : ChainMode) (scheme : PadScheme) {iv : Bytes} (hiv : mode ≠ .ecb → iv.length = (cipherOf s sel).bs)
    {d : Bytes} (hd : mode.padded = true → d.length % (cipherOf s sel).bs = 0) :
    (modeDecOutput mode scheme (cipherOf s sel) iv d).length ≤ d.length := by
  obtain ⟨h1, -, -, hdec⟩ := cipherOf_ok hs sel hk
  have hflat := flatten_blocksOf h1 d
  cases mode <;> simp only [modeDecOutput, modeDecrypt, ChainMode.padded, if_true, Bool.false_eq_true, if_false]
  · refine (length_unpadBytes_le _ _ _).trans ?_
    rw [length_flatten_map hdec (length_of_mem_blocksOf_aligned h1 (hd rfl)), hflat]
  · refine (length_unpadBytes_le _ _ _).trans ?_
    rw [length_flatten_cbcDecrypt hdec (length_of_mem_blocksOf_aligned h1 (hd rfl)) (hiv (by simp)), hflat]
  · exact (length_flatten_cfbDecrypt_le _ _ _).trans (by rw [hflat])
  · exact (length_flatten_ofbCrypt_le _ _ _).trans (by rw [hflat])
  · exact (length_flatten_ctrCrypt_le _ _ _).trans (by rw [hflat])

/-! ### The inversion lemma -/

theorem length_allIrreducible_le : allIrreducible.length ≤ 256 := by
  simpa [allIrreducible] using List.length_filter_le irreducible ((List.range 256).map (BitVec.ofNat 8))

theorem rijSize_le {n : Nat} (h : rijSize n) : n ≤ 32 := by rcases h with h | h | h <;> omega

theorem length_rijRound_le (table : Bytes) (m : Byte) (st k : Bytes) : (rijRound table m st k).length ≤ k.length := by
  simp [rijRound, addRoundKey]

/-- How a command may end. -/
theorem exec_ends (i : Instr) (s : State) : Ends s (fun u _ out => Succeeds i s u out) (exec i s) := by
  cases i with
  | nop => exact ends_succeedScalar ⟨rfl, fits (by simp)⟩
  | zeroize => exact ends_succeedScalar ⟨rfl, fits (by simp)⟩
  | clrerr => exact ends_succeedScalar ⟨rfl, fits (by simp)⟩
  | permute bo ib =>
    refine ends_require (by simp) fun hp => ends_withBytes fun inp _ _ => ends_withTable fun tb htb =>
      ends_succeedBytes ⟨rfl, fun hs => fits ?_ hs⟩
    have := hs.1.2.2.2
    rw [length_permute, length_entriesOf, htb]; omega
  | gfAdd =>
    exact ends_requireSome (by simp) fun _ _ => ends_requireSome (by simp) fun _ _ =>
      ends_succeedScalar ⟨rfl, fits (by simp)⟩
  | gfMul =>
    exact ends_requireSome (by simp) fun _ _ => ends_requireSome (by simp) fun _ _ =>
      ends_requireSome (by simp) fun _ _ => ends_require (by simp) fun _ => ends_succeedScalar ⟨rfl, fits (by simp)⟩
  | gfInv =>
    exact ends_requireSome (by simp) fun _ _ => ends_requireSome (by simp) fun _ _ =>
      ends_require (by simp) fun _ => ends_require (by simp) fun _ => ends_succeedScalar ⟨rfl, fits (by simp)⟩
  | gfPow =>
    exact ends_requireSome (by simp) fun _ _ => ends_requireSome (by simp) fun _ _ =>
      ends_require (by simp) fun _ => ends_succeedScalar ⟨rfl, fits (by simp)⟩
  | gfIsIrred =>
    exact ends_requireSome (by simp) fun _ _ => ends_succeedScalar ⟨rfl, fits (by simp)⟩
  | gfListIrred => exact .inr ⟨s, 30, allIrreducible, ⟨rfl, fits (length_allIrreducible_le.trans (by decide))⟩, rfl⟩
  | desSetKey =>
    exact ends_require (by simp) fun _ => ends_withBytes fun key _ _ =>
      ends_succeedScalar ⟨⟨key, rfl⟩, fits (by simp)⟩
  | desEnc =>
    exact ends_require (by simp) fun _ => ends_require (by simp) fun _ => ends_withBytes fun _ _ _ =>
      ends_succeedBytes ⟨rfl, fits (by simp)⟩
  | desDec =>
    exact ends_require (by simp) fun _ => ends_require (by simp) fun _ => ends_withBytes fun _ _ _ =>
      ends_succeedBytes ⟨rfl, fits (by simp)⟩
  | desKeyGen =>
    exact ends_require (by simp) fun _ => ends_withBytes fun _ _ _ => ends_succeedBytes ⟨rfl, fits (by rw [length_flatten_desKeygen]; decide)⟩
  | desRoundF =>
    exact ends_require (by simp) fun _ => ends_withBytes fun _ _ _ => ends_withBytes fun _ _ _ =>
      ends_succeedBytes ⟨rfl, fits (by simp)⟩
  | desRound =>
    exact ends_require (by simp) fun _ => ends_withBytes fun _ _ h => ends_withBytes fun _ _ _ =>
      ends_succeedBytes ⟨rfl, fits (by rw [length_feistelStep length_desF _ h]; decide)⟩
  | dealSetKey =>
    exact ends_require (by simp) fun _ => ends_withBytes fun mk _ _ =>
      ends_succeedScalar ⟨⟨mk, rfl⟩, fits (by simp)⟩
  | dealEnc =>
    exact ends_require (by simp) fun _ => ends_require (by simp) fun _ => ends_withBytes fun _ _ h =>
      ends_succeedBytes ⟨rfl, fits (by rw [length_dealEncrypt _ _ h]; decide)⟩
  | dealDec =>
    exact ends_require (by simp) fun _ => ends_require (by simp) fun _ => ends_withBytes fun _ _ h =>
      ends_succeedBytes ⟨rfl, fits (by rw [length_dealDecrypt _ _ h]; decide)⟩
  | dealKeyGen =>
    exact ends_require (by simp) fun _ => ends_withBytes fun _ _ _ => ends_succeedBytes ⟨rfl, fits (by rw [length_flatten_dealKeygen]; decide)⟩
  | dealRoundF =>
    exact ends_require (by simp) fun _ => ends_withBytes fun _ _ _ => ends_withBytes fun _ _ _ =>
      ends_succeedBytes ⟨rfl, fits (by simp)⟩
  | dealRound =>
    exact ends_require (by simp) fun _ => ends_withBytes fun _ _ h => ends_withBytes fun _ _ _ =>
      ends_succeedBytes ⟨rfl, fits (by rw [length_feistelStep (length_dealF _) _ h]; decide)⟩
  | rijSetKey bsc =>
    exact ends_requireSome (by simp) fun bs hbs => ends_require (by simp) fun hks => ends_requireSome (by simp) fun m _ =>
      ends_require (by simp) fun hm => ends_withBytes fun key _ hl =>
        ends_succeedScalar ⟨⟨bs, m, key, blockSizeOf_rijSize hbs, hl ▸ hks, hm, rfl⟩, fits (by simp)⟩
  | rijEnc =>
    exact ends_require (by simp) fun hk => ends_require (by simp) fun _ => ends_withBytes fun _ _ h =>
      ends_succeedBytes ⟨rfl, fun hs => fits (by
        rw [length_rijEncrypt hs.2.2.2.2.2.1 hk h]
        exact (rijSize_le (hs.2.2.2.2.2.1.1 hk).1).trans (by decide)) hs⟩
  | rijDec =>
    exact ends_require (by simp) fun hk => ends_require (by simp) fun _ => ends_withBytes fun _ _ h =>
      ends_succeedBytes ⟨rfl, fun hs => fits (by
        rw [length_rijDecrypt hs.2.2.2.2.2.1 hk h]
        exact (rijSize_le (hs.2.2.2.2.2.1.1 hk).1).trans (by decide)) hs⟩
  | rijKeyGen bsc =>
    exact ends_requireSome (by simp) fun bs hbs => ends_require (by simp) fun hks => ends_requireSome (by simp) fun m _ =>
      ends_require (by simp) fun hm => ends_withBytes fun key _ hl => ends_succeedBytes ⟨rfl, fits
        ((length_flatten_rijKeygen_le (blockSizeOf_rijSize hbs) (hl ▸ hks)).trans (by decide))⟩
  | rijSBox =>
    exact ends_requireSome (by simp) fun _ _ => ends_requireSome (by simp) fun _ _ =>
      ends_require (by simp) fun _ => ends_succeedScalar ⟨rfl, fits (by simp)⟩
  | rijInvSBox =>
    exact ends_requireSome (by simp) fun _ _ => ends_requireSome (by simp) fun _ _ =>
      ends_require (by simp) fun _ => ends_succeedScalar ⟨rfl, fits (by simp)⟩
  | rijSubBytes =>
    exact ends_require (by simp) fun hl => ends_requireSome (by simp) fun _ _ => ends_require (by simp) fun _ =>
      ends_withBytes fun _ _ h => ends_succeedBytes ⟨rfl, fits (by have := rijSize_le hl; simp [h]; omega)⟩
  | rijInvSubBytes =>
    exact ends_require (by simp) fun hl => ends_requireSome (by simp) fun _ _ => ends_require (by simp) fun _ =>
      ends_withBytes fun _ _ h => ends_succeedBytes ⟨rfl, fits (by have := rijSize_le hl; simp [h]; omega)⟩
  | rijShiftRows =>
    exact ends_require (by simp) fun hl => ends_withBytes fun _ _ h =>
      ends_succeedBytes ⟨rfl, fits (by have := rijSize_le hl; simp [h]; omega)⟩
  | rijInvShiftRows =>
    exact ends_require (by simp) fun hl => ends_withBytes fun _ _ h =>
      ends_succeedBytes ⟨rfl, fits (by have := rijSize_le hl; simp [h]; omega)⟩
  | rijMixColumns =>
    exact ends_require (by simp) fun hl => ends_requireSome (by simp) fun _ _ => ends_require (by simp) fun _ =>
      ends_withBytes fun _ _ h => ends_succeedBytes ⟨rfl, fits (by
        have := rijSize_le hl; rw [length_mixColumns, h, rijSize_div_mul hl]; omega)⟩
  | rijInvMixColumns =>
    exact ends_require (by simp) fun hl => ends_requireSome (by simp) fun _ _ => ends_require (by simp) fun _ =>
      ends_withBytes fun _ _ h => ends_succeedBytes ⟨rfl, fits (by
        have := rijSize_le hl; rw [length_invMixColumns, h, rijSize_div_mul hl]; omega)⟩
  | rijAddRoundKey =>
    exact ends_require (by simp) fun hl => ends_withBytes fun _ _ h => ends_withBytes fun _ _ _ =>
      ends_succeedBytes ⟨rfl, fits (by have := rijSize_le hl.1; simp [addRoundKey, h]; omega)⟩
  | rijRound =>
    exact ends_require (by simp) fun hl => ends_requireSome (by simp) fun _ _ => ends_require (by simp) fun _ =>
      ends_withBytes fun _ _ _ => ends_withBytes fun _ _ h => ends_succeedBytes ⟨rfl, fits
        ((length_rijRound_le _ _ _ _).trans (by have := rijSize_le hl.1; omega))⟩
  | rijFinalRound =>
    exact ends_require (by simp) fun hl => ends_requireSome (by simp) fun _ _ => ends_require (by simp) fun _ =>
      ends_withBytes fun _ _ _ => ends_withBytes fun _ _ h => ends_succeedBytes ⟨rfl, fits (by
        have := rijSize_le hl.1; simp [rijFinalRound, addRoundKey, h]; omega)⟩
  | modeEnc mode padc csel =>
    refine ends_requireSome (by simp) fun md _ => ends_requireSome (by simp) fun scheme _ =>
      ends_requireSome (by simp) fun sel _ => ends_require (by simp) fun hk => ends_require (by simp) fun hlen =>
      ends_require (by simp) fun hiv => ends_require (by simp) fun _ => ends_withBytes fun p _ hp =>
      ends_withBytes fun iv _ hivl => ends_succeedBytes ⟨⟨_, rfl⟩, fun hs => ?_⟩
    refine (length_modeEncOutput_le hs hk md scheme (fun h => by rw [hivl, if_neg h]) (length_filler s) p).trans ?_
    simp only [Params.obufBytes]; omega
  | modeDec mode padc csel =>
    refine ends_requireSome (by simp) fun md _ => ends_requireSome (by simp) fun scheme _ =>
      ends_requireSome (by simp) fun sel _ => ends_require (by simp) fun hk => ends_require (by simp) fun hlen =>
      ends_require (by simp) fun hiv => ends_require (by simp) fun hlast => ends_withBytes fun d _ hd =>
      ends_withBytes fun iv _ hivl => ends_succeedBytes ⟨rfl, fun hs => ?_⟩
    refine (length_modeDecOutput_le hs hk md scheme (fun h => by rw [hivl, if_neg h]) fun hm => ?_).trans ?_
    · simpa [hm, hd] using hlast
    · simp only [Params.obufBytes]; omega
  | pad padc =>
    refine ends_requireSome (by simp) fun scheme _ => ends_require (by simp) fun ha => ends_withBytes fun d _ hd =>
      ends_succeedBytes ⟨⟨_, rfl⟩, fun hs => ?_⟩
    refine (length_padBytes_le scheme ha.1 (length_filler s) d).trans ?_
    simp only [Params.obufBytes]; omega
  | unpad padc =>
    refine ends_requireSome (by simp) fun scheme _ => ends_require (by simp) fun ha => ends_withBytes fun d _ hd =>
      ends_succeedBytes ⟨rfl, fun hs => ?_⟩
    refine (length_unpadBytes_le scheme _ d).trans ?_
    simp only [Params.obufBytes]; omega

/-- The inversion lemma of a command that answers a next state. -/
theorem exec_next {i : Instr} {s t : State} (h : exec i s = .next t) :
    (∃ e, e ≠ ErrCode.ok ∧ t = s.raised e) ∨ ∃ u res out, Succeeds i s u out ∧ t = u.completed res out := by
  have := exec_ends i s
  rw [h] at this
  exact this

/-- A command faults only on bytes that hold no value. -/
theorem exec_fault {i : Instr} {s : State} {f : Fault} (h : exec i s = .fault f) :
    ∃ b n, f = .noValue b ∧ s.memRead b 0 n = none := by
  have := exec_ends i s
  rw [h] at this
  exact this

/-- No command is refused. -/
theorem exec_not_refused {i : Instr} {s : State} {r : Refusal} : exec i s ≠ .refused r := by
  intro h
  have := exec_ends i s
  rw [h] at this
  exact this

end Sys2Proof.Machine
end

