-- ==== Sys2Proof/Laws/PerInstr.lean ====
section
/-! SUPPORT. One lemma per command: its encoded word lies in the (match, mask) pair of its own row of
spec/opcode_table.json (30_encoding.md R78, R79). -/

set_option Elab.async false

namespace Sys2Proof.Laws.TableRow

/-- The word of `i` has the bits that its row of the opcode table fixes. -/
def Statement (i : Instr) : Prop := i.tableRow ∈ opcodeTable ∧ encode i &&& i.tableRow.2 = i.tableRow.1

theorem or_masked {a b k : Word} (hb : b &&& k = 0) : (a ||| b) &&& k = a &&& k := by
  have h := fun j => congrArg (fun v : Word => v.getLsbD j) hb
  apply BitVec.eq_of_getLsbD_eq
  intro j _
  have := h j
  simp only [BitVec.getLsbD_and, BitVec.getLsbD_or] at this ⊢
  revert this
  cases a.getLsbD j <;> cases b.getLsbD j <;> cases k.getLsbD j <;> simp

/-- MODE, PAD and CSEL lie in the free bits of the mode commands. -/
theorem modeFields_masked (mode padc : BitVec 4) (csel : BitVec 2) :
    mode.setWidth 32 <<< 12 &&& (0xFFC00FFF : Word) = 0 ∧ padc.setWidth 32 <<< 16 &&& (0xFFC00FFF : Word) = 0 ∧
      csel.setWidth 32 <<< 20 &&& (0xFFC00FFF : Word) = 0 := by
  refine ⟨?_, ?_, ?_⟩
  · revert mode; decide +kernel
  · revert padc; decide +kernel
  · revert csel; decide +kernel

theorem nop : Statement .nop := by unfold Statement; decide +kernel

theorem zeroize : Statement .zeroize := by unfold Statement; decide +kernel

theorem clrerr : Statement .clrerr := by unfold Statement; decide +kernel

theorem permute (bo ib : BitVec 1) : Statement (.permute bo ib) := by
  unfold Statement; revert bo ib; decide +kernel

theorem gfAdd : Statement .gfAdd := by unfold Statement; decide +kernel

theorem gfMul : Statement .gfMul := by unfold Statement; decide +kernel

theorem gfInv : Statement .gfInv := by unfold Statement; decide +kernel

theorem gfPow : Statement .gfPow := by unfold Statement; decide +kernel

theorem gfIsIrred : Statement .gfIsIrred := by unfold Statement; decide +kernel

theorem gfListIrred : Statement .gfListIrred := by unfold Statement; decide +kernel

theorem desSetKey : Statement .desSetKey := by unfold Statement; decide +kernel

theorem desEnc : Statement .desEnc := by unfold Statement; decide +kernel

theorem desDec : Statement .desDec := by unfold Statement; decide +kernel

theorem desKeyGen : Statement .desKeyGen := by unfold Statement; decide +kernel

theorem desRoundF : Statement .desRoundF := by unfold Statement; decide +kernel

theorem desRound : Statement .desRound := by unfold Statement; decide +kernel

theorem dealSetKey : Statement .dealSetKey := by unfold Statement; decide +kernel

theorem dealEnc : Statement .dealEnc := by unfold Statement; decide +kernel

theorem dealDec : Statement .dealDec := by unfold Statement; decide +kernel

theorem dealKeyGen : Statement .dealKeyGen := by unfold Statement; decide +kernel

theorem dealRoundF : Statement .dealRoundF := by unfold Statement; decide +kernel

theorem dealRound : Statement .dealRound := by unfold Statement; decide +kernel

theorem rijSetKey (bs : BitVec 2) : Statement (.rijSetKey bs) := by
  unfold Statement; revert bs; decide +kernel

theorem rijEnc : Statement .rijEnc := by unfold Statement; decide +kernel

theorem rijDec : Statement .rijDec := by unfold Statement; decide +kernel

theorem rijKeyGen (bs : BitVec 2) : Statement (.rijKeyGen bs) := by
  unfold Statement; revert bs; decide +kernel

theorem rijSBox : Statement .rijSBox := by unfold Statement; decide +kernel

theorem rijInvSBox : Statement .rijInvSBox := by unfold Statement; decide +kernel

theorem rijSubBytes : Statement .rijSubBytes := by unfold Statement; decide +kernel

theorem rijInvSubBytes : Statement .rijInvSubBytes := by unfold Statement; decide +kernel

theorem rijShiftRows : Statement .rijShiftRows := by unfold Statement; decide +kernel

theorem rijInvShiftRows : Statement .rijInvShiftRows := by unfold Statement; decide +kernel

theorem rijMixColumns : Statement .rijMixColumns := by unfold Statement; decide +kernel

theorem rijInvMixColumns : Statement .rijInvMixColumns := by unfold Statement; decide +kernel

theorem rijAddRoundKey : Statement .rijAddRoundKey := by unfold Statement; decide +kernel

theorem rijRound : Statement .rijRound := by unfold Statement; decide +kernel

theorem rijFinalRound : Statement .rijFinalRound := by unfold Statement; decide +kernel

theorem modeEnc (mode padc : BitVec 4) (csel : BitVec 2) : Statement (.modeEnc mode padc csel) := by
  obtain ⟨h1, h2, h3⟩ := modeFields_masked mode padc csel
  refine ⟨by simp only [Instr.tableRow]; decide +kernel, ?_⟩
  simp only [encode, assemble, Instr.tableRow]
  rw [or_masked h3, or_masked h2, or_masked h1]
  decide +kernel

theorem modeDec (mode padc : BitVec 4) (csel : BitVec 2) : Statement (.modeDec mode padc csel) := by
  obtain ⟨h1, h2, h3⟩ := modeFields_masked mode padc csel
  refine ⟨by simp only [Instr.tableRow]; decide +kernel, ?_⟩
  simp only [encode, assemble, Instr.tableRow]
  rw [or_masked h3, or_masked h2, or_masked h1]
  decide +kernel

theorem pad (padc : BitVec 4) : Statement (.pad padc) := by
  unfold Statement; revert padc; decide +kernel

theorem unpad (padc : BitVec 4) : Statement (.unpad padc) := by
  unfold Statement; revert padc; decide +kernel

end Sys2Proof.Laws.TableRow
end

