-- ==== Sys2Proof/Laws/Step.lean ====
section
/-! SUPPORT. What a step does, by the host's next access: the lemmas that statements about runs cite. -/

set_option Elab.async false

namespace Sys2Proof.Machine

@[simp] theorem step_idle {s : State} (h : s.host = []) : step s = .next s := by simp [step, nextAccess, h]

/-- A step performs the host's next access on the state without it. -/
@[simp] theorem step_facing (s : State) (a : HostAccess) (rest : List HostAccess) :
    step (s.facing a rest) = runAccess a { s with host := rest } := rfl

theorem step_pushCommand (s : State) (w : Word) : step (s.pushCommand w) = runCommand w s := by
  have h : step (s.pushCommand w) = runCommand (BitVec.ofNat 32 w.toNat) s := rfl
  rw [h, BitVec.ofNat_toNat, BitVec.setWidth_eq]

/-- withFetchWord makes the next step run the word (20_memory.md R62). -/
theorem step_withFetchWord (s : State) (w : Word) : step (s.withFetchWord 32 w.toNat) = runCommand w s := by
  rw [State.withFetchWord, Nat.mod_eq_of_lt w.isLt, BitVec.ofNat_toNat, BitVec.setWidth_eq, step_pushCommand]

/-- A step runs the decoded instruction (10_state.md R23). -/
theorem runCommand_ok {w : Word} {i : Instr} (h : decode w = .ok i) (s : State) : runCommand w s = exec i s := by
  rw [runCommand, h]

theorem runCommand_error {w : Word} {e : DecodeError} (h : decode w = .error e) (s : State) :
    runCommand w s = .next (s.raised .illegal) := by
  rw [runCommand, h, raiseError]

/-! ### Accesses -/

theorem busWrite_refused {p : Nat} {w : Width} {v : Nat} {s : State} {r : Refusal} (h : refusalOf s.params p w = some r) :
    busWrite p w v s = .refused r := by rw [busWrite, h]

theorem busRead_refused {p : Nat} {w : Width} {s : State} {r : Refusal} (h : refusalOf s.params p w = some r) :
    busRead p w s = .refused r := by rw [busRead, h]

theorem busRead_admitted {p : Nat} {w : Width} {s : State} (h : refusalOf s.params p w = none) :
    busRead p w s = .next { s.drew w.bytes with readData := s.busValue p w } := by rw [busRead, h]

/-- The value of a little-endian byte string (20_memory.md R53). -/
theorem leNat_bytesLE (v n : Nat) : leNat (bytesLE v n) = v % 256 ^ n := by
  induction n generalizing v with
  | zero => simp [bytesLE, leNat, Nat.mod_one]
  | succ n ih =>
    rw [bytesLE, leNat, ih, Nat.pow_succ', Nat.mod_mul]
    simp

/-! ### Accesses inside a buffer -/

/-- Byte `j` of a value (20_memory.md R56). -/
theorem getElem?_bytesLE {v n j : Nat} (h : j < n) : (bytesLE v n)[j]? = some (BitVec.ofNat 8 (v / 256 ^ j)) := by
  induction n generalizing v j with
  | zero => omega
  | succ n ih =>
    rw [bytesLE]
    cases j with
    | zero => simp
    | succ j => rw [List.getElem?_cons_succ, ih (by omega), Nat.div_div_eq_div_mul, Nat.pow_succ']

/-- Byte `j` of a buffer read: the byte there, or a free one (10_state.md R34). -/
theorem getElem?_readCells {m : Memory} {k off n j : Nat} (h : j < n) :
    (readCells m k off n)[j]? = some ((m.read (off + j)).getD (Config.freeByte (k + j))) := by
  induction n generalizing k off j with
  | zero => omega
  | succ n ih =>
    rw [readCells]
    cases j with
    | zero => simp
    | succ j => rw [List.getElem?_cons_succ, ih (by omega), Nat.add_right_comm off, Nat.add_right_comm k]; rfl

theorem leNat_lt (b : Bytes) : leNat b < 256 ^ b.length := by
  induction b with
  | nil => simp [leNat]
  | cons x xs ih =>
    rw [leNat, List.length_cons, Nat.pow_succ]
    have := x.isLt
    omega

/-- Byte `j` of the value of a little-endian byte string (20_memory.md R53). -/
theorem leNat_byte {b : Bytes} {j : Nat} {x : Byte} (h : b[j]? = some x) : leNat b / 256 ^ j % 256 = x.toNat := by
  induction b generalizing j with
  | nil => simp at h
  | cons y ys ih =>
    rw [leNat]
    have := y.isLt
    cases j with
    | zero => simp only [List.getElem?_cons_zero, Option.some.injEq] at h; subst h; simp; omega
    | succ j =>
      rw [List.getElem?_cons_succ] at h
      rw [← ih h, Nat.pow_succ', ← Nat.div_div_eq_div_mul, show (y.toNat + 256 * leNat ys) / 256 = leNat ys by omega]

/-- The buffers do not overlap (20_memory.md R51). -/
theorem holds_base {p : Params} (hp : p.inRange) {b : Buf} {k : Nat} (h : k < b.size p) (c : Buf) :
    c.holds p (b.base + k) = decide (c = b) := by
  obtain ⟨_, _, _, _⟩ := hp
  rw [Buf.holds, Bool.eq_iff_iff, Bool.and_eq_true, decide_eq_true_iff, decide_eq_true_iff, decide_eq_true_iff]
  cases b <;> cases c <;> simp only [Buf.size, Buf.base, Params.obufBytes, reduceCtorEq, iff_false, iff_true] at h ⊢ <;> omega

/-- An offset inside a buffer belongs to that buffer (20_memory.md R51). -/
theorem bufAt_base {p : Params} (hp : p.inRange) {b : Buf} {k : Nat} (h : k < b.size p) : bufAt p (b.base + k) = some b := by
  simp only [bufAt, holds_base hp h]
  cases b <;> rfl

theorem inRegisters_base (b : Buf) (k : Nat) : inRegisters (b.base + k) = false := by
  have : 0x100 ≤ b.base := by cases b <;> decide
  simp [inRegisters]; omega

/-- An aligned 8-, 16- or 32-bit access inside a buffer is admitted (20_memory.md R53). -/
theorem refusalOf_buffer {p : Params} (hp : p.inRange) {b : Buf} {k : Nat} {w : Width} (hw : w ≠ .w64)
    (ha : k % w.bytes = 0) (hk : k + w.bytes ≤ b.size p) : refusalOf p (b.base + k) w = none := by
  have hb : (b.base + k) % w.bytes = 0 ∧ 0x100 ≤ b.base + k ∧ 1 ≤ w.bytes := by
    cases b <;> cases w <;> simp_all [Buf.base, Width.bytes] <;> omega
  rw [refusalOf, if_neg (by simp [inRegisters_base]), if_neg hw, if_neg (by omega), bufAt_base hp (by omega)]
  simp [Buf.holds]; omega

/-- What an admitted write of a host-writable buffer does (20_memory.md R53, R58). -/
theorem busWrite_buffer {s : State} (hp : s.params.inRange) {b : Buf} (hb : b ≠ .obuf) {k : Nat} {w : Width} (hw : w ≠ .w64)
    (ha : k % w.bytes = 0) (hk : k + w.bytes ≤ b.size s.params) (v : Nat) :
    busWrite (b.base + k) w v s = .next { s with mem := s.mem.writeRange (b.base + k) (bytesLE v w.bytes) } := by
  have h1 : 1 ≤ w.bytes := by cases w <;> simp [Width.bytes]
  rw [busWrite, refusalOf_buffer hp hw ha hk]
  simp only [inRegisters_base, bufAt_base hp (show k < b.size s.params by omega)]
  cases b <;> first | rfl | exact absurd rfl hb

/-- What an admitted read of a buffer returns (20_memory.md R53). -/
theorem busValue_buffer {s : State} (hp : s.params.inRange) {b : Buf} {k : Nat} (w : Width) (hk : k < b.size s.params) :
    s.busValue (b.base + k) w = BitVec.ofNat 32 (leNat (readCells s.mem s.draws (b.base + k) w.bytes)) := by
  rw [State.busValue]
  simp only [inRegisters_base, bufAt_base hp hk]
  rfl

/-! ### The canonical form of memory -/

theorem completed_wf {s : State} (h : s.mem.wf = true) (res : Word) (out : Bytes) : (s.completed res out).mem.wf = true :=
  Memory.writeRange_wf h _ _

theorem becomes_mem {i : Instr} {s u : State} (h : Becomes i s u) : u.mem = s.mem := by
  cases i <;> simp only [Becomes] at h <;> (try subst h; rfl) <;> (try obtain ⟨_, rfl⟩ := h; rfl)
  obtain ⟨_, _, _, -, -, -, rfl⟩ := h
  rfl

/-- A command keeps the canonical form of memory. -/
theorem exec_wf {i : Instr} {s t : State} (hs : s.mem.wf = true) (h : exec i s = .next t) : t.mem.wf = true := by
  rcases exec_next h with ⟨e, -, rfl⟩ | ⟨u, res, out, hu, rfl⟩
  · exact hs
  · exact completed_wf (by rw [becomes_mem hu.1]; exact hs) res out

theorem reset_wf : State.reset.mem.wf = true := rfl

end Sys2Proof.Machine
end

