-- ==== Sys2Proof/Tests/Slice0.lean ====
section
/-! SUPPORT. The model's own tests. Expected results are those of spec/95_test_vectors.md and of the rules' examples; the
witnesses at the end show, for each statement with hypotheses, a state and operands that meet all of them. -/

set_option Elab.async false

namespace Sys2Proof.Tests

open Sys2Proof.Machine

/-! ### Helpers -/

/-- A buffer filled from offset 0. -/
def put (b : Buf) (bs : Bytes) (s : State) : State := { s with mem := s.mem.writeRange b.base bs }

/-- The reset state with data in IBUF and LEN, and a key in KBUF and KLEN. -/
def withData (d key : Bytes) : State :=
  put .kbuf key (put .ibuf d
    { State.reset with len := BitVec.ofNat 32 d.length, klen := BitVec.ofNat 32 key.length })

/-- The reset state with ARG0, ARG1, ARG2. -/
def withArgs (a b m : Word) : State := { State.reset with arg0 := a, arg1 := b, arg2 := m }

/-- STATUS, RES and OBUF[0:OUTLEN] of a next state. -/
def seen : Result → Option (Word × Word × Option Bytes)
  | .next t => some (t.status, t.res, t.memRead .obuf 0 t.outlen.toNat)
  | .fault _ => none
  | .refused _ => none

/-- The schedule of the all-zero DES key is sixteen all-zero round keys (42_des.md R124, corner cases). -/
def zeroKeyed : DesInst := { DesInst.cleared with keyed := true }

/-- The state a result holds. -/
def nextOr (d : State) : Result → State
  | .next t => t
  | .fault _ => d
  | .refused _ => d

theorem next_of_isNext {r : Result} (d : State) (h : isNext r = true) : r = .next (nextOr d r) := by
  cases r <;> simp [isNext, nextOr] at h ⊢

/-! ### Decoding: the word of each command, written out from 30_encoding.md R71 and R79 -/

theorem test_decode_system : decode 0x00000000 = .ok .nop ∧ decode 0x00000001 = .ok .zeroize ∧
    decode 0x00000002 = .ok .clrerr := by decide

theorem test_decode_permute : decode 0x00000008 = .ok (.permute 0 0) ∧ decode 0x00000108 = .ok (.permute 1 0) ∧
    decode 0x00000208 = .ok (.permute 0 1) ∧ decode 0x00000308 = .ok (.permute 1 1) := by decide

theorem test_decode_gf : decode 0x00000010 = .ok .gfAdd ∧ decode 0x00000011 = .ok .gfMul ∧ decode 0x00000012 = .ok .gfInv ∧
    decode 0x00000013 = .ok .gfPow ∧ decode 0x00000014 = .ok .gfIsIrred ∧ decode 0x00000015 = .ok .gfListIrred := by decide

theorem test_decode_des : decode 0x00000020 = .ok .desSetKey ∧ decode 0x00000021 = .ok .desEnc ∧
    decode 0x00000022 = .ok .desDec ∧ decode 0x00000023 = .ok .desKeyGen ∧ decode 0x00000024 = .ok .desRoundF ∧
    decode 0x00000025 = .ok .desRound := by decide

theorem test_decode_deal : decode 0x00000028 = .ok .dealSetKey ∧ decode 0x00000029 = .ok .dealEnc ∧
    decode 0x0000002A = .ok .dealDec ∧ decode 0x0000002B = .ok .dealKeyGen ∧ decode 0x0000002C = .ok .dealRoundF ∧
    decode 0x0000002D = .ok .dealRound := by decide

theorem test_decode_rijndael_cipher : decode 0x00000030 = .ok (.rijSetKey 0) ∧ decode 0x00000430 = .ok (.rijSetKey 1) ∧
    decode 0x00000830 = .ok (.rijSetKey 2) ∧ decode 0x00000031 = .ok .rijEnc ∧ decode 0x00000032 = .ok .rijDec ∧
    decode 0x00000033 = .ok (.rijKeyGen 0) ∧ decode 0x00000833 = .ok (.rijKeyGen 2) ∧ decode 0x00000034 = .ok .rijSBox ∧
    decode 0x00000035 = .ok .rijInvSBox := by decide

theorem test_decode_rijndael_steps : decode 0x00000036 = .ok .rijSubBytes ∧ decode 0x00000037 = .ok .rijInvSubBytes ∧
    decode 0x00000038 = .ok .rijShiftRows ∧ decode 0x00000039 = .ok .rijInvShiftRows ∧
    decode 0x0000003A = .ok .rijMixColumns ∧ decode 0x0000003B = .ok .rijInvMixColumns ∧
    decode 0x0000003C = .ok .rijAddRoundKey ∧ decode 0x0000003D = .ok .rijRound ∧ decode 0x0000003E = .ok .rijFinalRound := by
  decide

/-- The command words of 95_test_vectors.md L2.6, P1 and P6. -/
theorem test_decode_modes : decode 0x00011040 = .ok (.modeEnc 1 1 0) ∧ decode 0x00011041 = .ok (.modeDec 1 1 0) ∧
    decode 0x00204040 = .ok (.modeEnc 4 0 2) ∧ decode 0x00114040 = .ok (.modeEnc 4 1 1) ∧
    decode 0x00244040 = .ok (.modeEnc 4 4 2) ∧ decode 0x00010048 = .ok (.pad 1) ∧ decode 0x00030049 = .ok (.unpad 3) := by
  decide

/-- The illegal words of 95_test_vectors.md L2.7 and L2.2 (R78, R80). -/
theorem test_decode_illegal : decode 0x80000000 = .error .reservedBits ∧ decode 0x00000003 = .error (.illegalOpcode 3) ∧
    decode 0x00000100 = .error (.unusedField 0) ∧ decode 0x00000121 = .error (.unusedField 0x21) ∧
    decode 0x000000FF = .error (.illegalOpcode 0xFF) := by decide

theorem test_decodeTableWord : decodeTableWord 32 0x00011040 = some (.modeEnc 1 1 0) ∧
    decodeTableWord 8 0x21 = some .desEnc ∧ decodeTableWord 32 0x3F = none := by decide

/-! ### WellFormed refuses each ill-formed selector (30_encoding.md R74 to R77) -/

theorem test_illFormed_bs : Instr.wellFormed (.rijSetKey 3) = false ∧ Instr.wellFormed (.rijKeyGen 3) = false ∧
    Instr.wellFormed (.rijSetKey 2) = true := by decide
theorem test_illFormed_mode : Instr.wellFormed (.modeEnc 5 0 0) = false ∧ Instr.wellFormed (.modeDec 15 0 0) = false ∧
    Instr.wellFormed (.modeEnc 4 3 2) = true := by decide
theorem test_illFormed_pad : Instr.wellFormed (.pad 4) = false ∧ Instr.wellFormed (.unpad 15) = false ∧
    Instr.wellFormed (.modeEnc 0 4 0) = false := by decide
theorem test_illFormed_csel : Instr.wellFormed (.modeEnc 0 0 3) = false ∧ Instr.wellFormed (.modeDec 0 0 3) = false := by
  decide

/-! ### System commands and PERMUTE (95_test_vectors.md L2.7, L2.1) -/

theorem test_nop_keeps_errSeen : seen (exec .nop { State.reset with err := .reducible, errSeen := true }) =
    some (0x00000100, 0, some []) := by decide +kernel
theorem test_zeroize : seen (exec .zeroize { State.reset with des := zeroKeyed }) = some (0, 0, some []) := by decide +kernel
theorem test_clrerr : seen (exec .clrerr { State.reset with des := zeroKeyed, err := .unsupported, errSeen := true }) =
    some (0x00000010, 0, some []) := by decide +kernel

theorem test_permute_repeated_bit : seen (exec (.permute 1 1)
      (put .tbuf [1, 0, 1, 0, 1, 0] { withData [0x80] [] with tlen := 3 })) = some (0, 0, some [0xE0]) := by decide +kernel
theorem test_permute_out_of_range : seen (exec (.permute 0 0)
      (put .tbuf [0, 0, 8, 0, 100, 0, 7, 0] { withData [0xFF] [] with tlen := 4 })) = some (0, 0, some [0x09]) := by
  decide +kernel

/-! ### GF(2^8) (95_test_vectors.md L2.4) -/

theorem test_gfAdd : seen (exec .gfAdd (withArgs 0x57 0x83 0)) = some (0, 0xD4, some []) := by decide +kernel
theorem test_gfAdd_range : seen (exec .gfAdd (withArgs 0x100 1 0)) = some (0x101, 0, some []) := by decide +kernel
theorem test_gfMul : seen (exec .gfMul (withArgs 0x57 0x83 0x1B)) = some (0, 0xC1, some []) := by decide +kernel
theorem test_gfMul_reducible : seen (exec .gfMul (withArgs 0x57 0x83 0x1A)) = some (0x102, 0, some []) := by decide +kernel
theorem test_gfInv : seen (exec .gfInv (withArgs 0x53 0 0x1B)) = some (0, 0xCA, some []) := by decide +kernel
theorem test_gfInv_zero : seen (exec .gfInv (withArgs 0 0 0x1B)) = some (0x106, 0, some []) := by decide +kernel
theorem test_gfPow : seen (exec .gfPow (withArgs 0x03 0xFFFFFFFF 0x1B)) = some (0, 1, some []) := by decide +kernel
theorem test_gfPow_zero_zero : seen (exec .gfPow (withArgs 0 0 0x1B)) = some (0, 1, some []) := by decide +kernel
theorem test_gfIsIrred : seen (exec .gfIsIrred (withArgs 0x1D 0 0)) = some (0, 1, some []) := by decide +kernel
theorem test_gfIsIrred_reducible : seen (exec .gfIsIrred (withArgs 0xFF 0 0)) = some (0, 0, some []) := by decide +kernel
theorem test_gfListIrred : seen (exec .gfListIrred State.reset) = some (0, 30, some [0x1B, 0x1D, 0x2B, 0x2D, 0x39, 0x3F,
    0x4D, 0x5F, 0x63, 0x65, 0x69, 0x71, 0x77, 0x7B, 0x87, 0x8B, 0x8D, 0x9F, 0xA3, 0xA9, 0xB1, 0xBD, 0xC3, 0xCF, 0xD7, 0xDD,
    0xE7, 0xF3, 0xF5, 0xF9]) := by decide +kernel

/-! ### DES and DEAL (95_test_vectors.md L1-G, L2.2, L2.3) -/

/-- The schedule of key 133457799BBCDFF1, first and last round key (42_des.md R124). -/
theorem test_desSetKey : (let d := (nextOr State.reset (exec .desSetKey (withData [] (bytesBE 0x133457799BBCDFF1 8)))).des
    (d.keyed, d.rk[0]?, d.rk[15]?)) = (true, some (bytesBE 0x1B02EFFC7072 6), some (bytesBE 0xCB3D8B0E17F5 6)) := by
  decide +kernel
theorem test_desSetKey_length : seen (exec .desSetKey (withData [] (bytesBE 0 7))) = some (0x101, 0, some []) := by
  decide +kernel
theorem test_desEnc_zero : seen (exec .desEnc { withData (bytesBE 0 8) [] with des := zeroKeyed }) =
    some (0x10, 0, some (bytesBE 0x8CA64DE9C1B123A7 8)) := by decide +kernel
theorem test_desEnc_notKeyed : seen (exec .desEnc (withData (bytesBE 0 5) [])) = some (0x105, 0, some []) := by decide +kernel
theorem test_desDec : seen (exec .desDec
      { withData (bytesBE 0x85E813540F0AB405 8) [] with des := ⟨true, desKeygen (bytesBE 0x133457799BBCDFF1 8)⟩ }) =
    some (0x10, 0, some (bytesBE 0x0123456789ABCDEF 8)) := by decide +kernel
theorem test_desKeyGen_zero : seen (exec .desKeyGen (withData [] (bytesBE 0 8))) =
    some (0, 0, some (List.replicate 96 0)) := by decide +kernel
theorem test_desRoundF : seen (exec .desRoundF (withData (bytesBE 0xF0AAF0AA 4) (bytesBE 0x1B02EFFC7072 6))) =
    some (0, 0, some (bytesBE 0x234AA9BB 4)) := by decide +kernel
theorem test_desRound : seen (exec .desRound (withData (bytesBE 0xCC00CCFFF0AAF0AA 8) (bytesBE 0x1B02EFFC7072 6))) =
    some (0, 0, some (bytesBE 0xF0AAF0AAEF4A6544 8)) := by decide +kernel

theorem test_dealSetKey : ((nextOr State.reset (exec .dealSetKey
      (withData [] (bytesBE 0x0123456789ABCDEFFEDCBA9876543210 16)))).deal.rk)[3]? =
    some (bytesBE 0x43B096B4BA29CAAC 8) := by decide +kernel
theorem test_dealSetKey_length : seen (exec .dealSetKey (withData [] (bytesBE 0 8))) = some (0x101, 0, some []) := by
  decide +kernel
theorem test_dealEnc : seen (exec .dealEnc { withData (bytesBE 0x0011223344556677 8) [] with
      deal := ⟨true, [bytesBE 0xF08C57209593FEB3 8, bytesBE 0xC61B7502021B022F 8, bytesBE 0x3B8AB883C18C612B 8,
        bytesBE 0x43B096B4BA29CAAC 8, bytesBE 0x99DB155BD4EF39F5 8, bytesBE 0x4ECB37352125D921 8]⟩ }) =
    some (0x20, 0, some (bytesBE 0xB3BFFC27BBEA35A9 8)) := by decide +kernel
theorem test_dealDec_length : seen (exec .dealDec { withData (bytesBE 0 7) [] with deal := ⟨true, []⟩ }) =
    some (0x121, 0, some []) := by decide +kernel
theorem test_dealKeyGen : ((nextOr State.reset (exec .dealKeyGen (withData [] (bytesBE 0 16)))).memRead .obuf 24 8) =
    some (bytesBE 0x166B40B44ABA4BD6 8) := by decide +kernel
/-- The OPEN alternative DEAL_DUP = byte_twice (95_test_vectors.md L2.3). -/
theorem test_deal_byteTwice : dealEncrypt .byteTwice (dealKeygen (bytesBE 0x0123456789ABCDEFFEDCBA9876543210 16))
    (bytesBE 0x0011223344556677 8) = bytesBE 0xEA17BA0D43A24E1F 8 := by decide +kernel
theorem test_dealRoundF : seen (exec .dealRoundF (withData (bytesBE 0x44556677 4) (bytesBE 0xF08C57209593FEB3 8))) =
    some (0, 0, some (bytesBE 0x0F5673B6 4)) := by decide +kernel
theorem test_dealRound : seen (exec .dealRound (withData (bytesBE 0x0011223344556677 8) (bytesBE 0xF08C57209593FEB3 8))) =
    some (0, 0, some (bytesBE 0x445566770F475185 8)) := by decide +kernel

/-! ### Rijndael (95_test_vectors.md L1, L2.5) -/

/-- R191's example: STATUS 0x1B000040 and the second round key. -/
theorem test_rijSetKey : (let t := nextOr State.reset (exec (.rijSetKey 0)
      { withData [] (bytesBE 0 16) with arg2 := 0x1B })
    (t.status, t.rij.rk[1]?)) = (0x1B000040, some (bytesBE 0x62636363626363636263636362636363 16)) := by decide +kernel
theorem test_rijSetKey_unsupported : seen (exec (.rijSetKey 3) (withData [] (bytesBE 0 16))) = some (0x103, 0, some []) := by
  decide +kernel
/-- The source's vector (NF64 §8.8). -/
theorem test_rijEnc : seen (exec .rijEnc { withData (bytesBE 0 16) [] with rij := RijInst.build 16 0x1B (bytesBE 0 16) }) =
    some (0x1B000040, 0, some (bytesBE 0x66E94BD4EF8A2C3B884CFA59CA342B2E 16)) := by decide +kernel
theorem test_rijDec : seen (exec .rijDec
      { withData (bytesBE 0x66E94BD4EF8A2C3B884CFA59CA342B2E 16) [] with rij := RijInst.build 16 0x1B (bytesBE 0 16) }) =
    some (0x1B000040, 0, some (bytesBE 0 16)) := by decide +kernel
theorem test_rijKeyGen : (let t := nextOr State.reset (exec (.rijKeyGen 0)
      { withData [] (bytesBE 0x2B7E151628AED2A6ABF7158809CF4F3C 16) with arg2 := 0x1B })
    (t.outlen, t.memRead .obuf 160 16)) = (176, some (bytesBE 0xD014F9A8C9EE2589E13F0CC8B6630CA6 16)) := by decide +kernel
/-- A 192-bit block under a 128-bit key has 312 bytes of round keys (95_test_vectors.md, "RIJ_KEYGEN output lengths";
notes/assumptions/15.md). -/
theorem test_rijKeyGen_length : (nextOr State.reset (exec (.rijKeyGen 1)
    { withData [] (bytesBE 0 16) with arg2 := 0x1B })).outlen = 312 := by decide +kernel
theorem test_rijSBox : seen (exec .rijSBox (withArgs 0x53 0 0x1D)) = some (0, 0x68, some []) := by decide +kernel
theorem test_rijSBox_zero : seen (exec .rijSBox (withArgs 0 0 0x1D)) = some (0, 0x63, some []) := by decide +kernel
theorem test_rijInvSBox : seen (exec .rijInvSBox (withArgs 0x16 0 0x1B)) = some (0, 0xFF, some []) := by decide +kernel
theorem test_rijSubBytes : seen (exec .rijSubBytes
      { withData (bytesBE 0x000102030405060708090A0B0C0D0E0F 16) [] with arg2 := 0x1D }) =
    some (0, 0, some (bytesBE 0x637C5645F9527038948641E5EAC9CE5F 16)) := by decide +kernel
theorem test_rijInvSubBytes : seen (exec .rijInvSubBytes
      { withData (bytesBE 0x637C5645F9527038948641E5EAC9CE5F 16) [] with arg2 := 0x1D }) =
    some (0, 0, some (bytesBE 0x000102030405060708090A0B0C0D0E0F 16)) := by decide +kernel
theorem test_rijShiftRows : seen (exec .rijShiftRows
      (withData (bytesBE 0x000102030405060708090A0B0C0D0E0F1011121314151617 24) [])) =
    some (0, 0, some (bytesBE 0x00050A0F04090E13080D12170C111603101502071401060B 24)) := by decide +kernel
theorem test_rijInvShiftRows : seen (exec .rijInvShiftRows
      (withData (bytesBE 0x000102030405060708090A0B0C0D0E0F101112131415161718191A1B1C1D1E1F 32) [])) =
    some (0, 0, some (bytesBE 0x001D1A1704011E1B0805021F0C090603100D0A0714110E0B1815120F1C191613 32)) := by decide +kernel
theorem test_rijMixColumns : seen (exec .rijMixColumns
      { withData (bytesBE 0xDB135345F20A225C01010101C6C6C6C6 16) [] with arg2 := 0x1D }) =
    some (0, 0, some (bytesBE 0x884DA1BA99DC589B01010101C6C6C6C6 16)) := by decide +kernel
theorem test_rijInvMixColumns : seen (exec .rijInvMixColumns
      { withData (bytesBE 0x046681E5E0CB199A48F8D37A2806264C 16) [] with arg2 := 0x1B }) =
    some (0, 0, some (bytesBE 0xD4BF5D30E0B452AEB84111F11E2798E5 16)) := by decide +kernel
theorem test_rijAddRoundKey : seen (exec .rijAddRoundKey
      (withData (bytesBE 0x00112233445566778899AABBCCDDEEFF 16) (bytesBE 0x000102030405060708090A0B0C0D0E0F 16))) =
    some (0, 0, some (bytesBE 0x00102030405060708090A0B0C0D0E0F0 16)) := by decide +kernel
theorem test_rijRound : seen (exec .rijRound
      { withData (bytesBE 0x00102030405060708090A0B0C0D0E0F0 16) (bytesBE 0xD6AA74FDD2AF72FADAA678F1D6AB76FE 16) with
        arg2 := 0x1B }) =
    some (0, 0, some (bytesBE 0x89D810E8855ACE682D1843D8CB128FE4 16)) := by decide +kernel
theorem test_rijFinalRound : seen (exec .rijFinalRound
      { withData (bytesBE 0xEB40F21E592E38848BA113E71BC342D2 16) (bytesBE 0xD014F9A8C9EE2589E13F0CC8B6630CA6 16) with
        arg2 := 0x1B }) =
    some (0, 0, some (bytesBE 0x3925841D02DC09FBDC118597196A0B32 16)) := by decide +kernel

/-! ### Chaining modes and padding (95_test_vectors.md L2.6) -/

/-- The DES instance of key 0123456789ABCDEF and IV 1234567890ABCDEF. -/
def modeState (d : Bytes) : State :=
  put .ivbuf (bytesBE 0x1234567890ABCDEF 8)
    { withData d [] with ivlen := 8, des := ⟨true, desKeygen (bytesBE 0x0123456789ABCDEF 8)⟩ }

/-- "Hello World" in CTR: the last block is short (R232). -/
theorem test_modeEnc_ctr : seen (exec (.modeEnc 4 0 0) (modeState (bytesBE 0x48656C6C6F20576F726C64 11))) =
    some (0x10, 0, some (bytesBE 0xF5037905C1A7194A0C33C8 11)) := by decide +kernel
/-- CBC, PKCS7, LEN = 0: one full pad block. -/
theorem test_modeEnc_cbc_empty : seen (exec (.modeEnc 1 1 0) (modeState [])) =
    some (0x10, 0, some (bytesBE 0xC21106448C1E13C5 8)) := by decide +kernel
/-- A malformed pad is returned, with ERR = 0 (R227). -/
theorem test_modeDec_malformed : seen (exec (.modeDec 0 1 0) (modeState (bytesBE 0 8))) =
    some (0x10, 0, some (bytesBE 0x14AAD7F4DBB4E094 8)) := by decide +kernel
theorem test_modeDec_cfb : seen (exec (.modeDec 2 0 0) (modeState (bytesBE 0xF5037905C1A7194A921C0F 11))) =
    some (0x10, 0, some (bytesBE 0x48656C6C6F20576F726C64 11)) := by decide +kernel
theorem test_pad_pkcs7 : seen (exec (.pad 1) { withData [0x41, 0x42, 0x43] [] with arg0 := 8 }) =
    some (0, 0, some (bytesBE 0x4142430505050505 8)) := by decide +kernel
/-- ISO 10126: the length and the last byte, whatever the filler. -/
theorem test_pad_iso10126 : (let t := nextOr State.reset (exec (.pad 3) { withData [0x41] [] with arg0 := 32 })
    (t.outlen, t.bufByte .obuf 0, t.bufByte .obuf 31)) = (32, some 0x41, some 0x1F) := by decide +kernel
theorem test_unpad_pkcs7 : seen (exec (.unpad 1) { withData (bytesBE 0x4142430505050405 8) [] with arg0 := 8 }) =
    some (0, 0, some (bytesBE 0x4142430505050405 8)) := by decide +kernel
theorem test_unpad_ansix923 : seen (exec (.unpad 2) { withData (bytesBE 0x41000002 4) [] with arg0 := 8 }) =
    some (0, 0, some [0x41, 0x00]) := by decide +kernel

/-! ### The host window and a step -/

/-- R56 by one 32-bit write and a halfword read. -/
theorem test_step_word_write : (nextOr State.reset (step (State.reset.facing (.write32 0x40008 0x44332211) []))).memRead
    .ibuf 8 4 = some [0x11, 0x22, 0x33, 0x44] := by decide +kernel
theorem test_step_halfword_read : (nextOr State.reset (step ((put .ibuf [0x11, 0x22] State.reset).facing
    (.read 0x40000 .w16) []))).readData = 0x2211 := by decide +kernel
/-- A byte write of a register is refused (R52). -/
theorem test_step_register_byte : step (State.reset.facing (.write8 0x00008 1) []) = .refused .registerAccess := rfl
/-- The first command after reset. -/
theorem test_step_first_command : seen (step (State.reset.withFetchWord 32 0x00000121)) = some (0x104, 0, some []) := by
  decide +kernel
/-- A command that reads a byte nothing has written faults (R259). -/
theorem test_fault_noValue : exec .desSetKey { State.reset with klen := 8 } = .fault (.noValue .kbuf) := rfl

/-! ### Witnesses: for each statement with hypotheses, inputs that meet all of them, at the boundaries of their ranges -/

/-- The reset state with zero DES key, DEAL keys and IV loaded, data in IBUF. -/
def keyedState (d : Bytes) : State :=
  put .ivbuf (bytesBE 0 32) { withData d [] with ivlen := 8, des := zeroKeyed, deal := { DealInst.cleared with keyed := true } }

/-- A Rijndael instance with a 24-byte block and a 16-byte key. -/
def rij24 : RijInst := RijInst.build 24 0x1B (List.replicate 16 0)

theorem rij24_keyed : rij24.keyed = true := by unfold rij24 RijInst.build; rfl
theorem rij24_bs : rij24.bs = 24 := by unfold rij24 RijInst.build; rfl

theorem rij24_ok : rij24.ok := RijInst.build_ok (by decide) (by decide) (by decide +kernel)

theorem irreducible_1B : irreducible 0x1B = true := by decide +kernel
theorem irreducible_F9 : irreducible 0xF9 = true := by decide +kernel

theorem witness_LegalWordsAreTheTables :
    ((0x00000008, 0xFFFFFCFF) ∈ opcodeTable ∧ (0x00000308 : Word) &&& 0xFFFFFCFF = 0x00000008) ∧
    ((0x00000049, 0xFFF0FFFF) ∈ opcodeTable ∧ (0x000F0049 : Word) &&& 0xFFF0FFFF = 0x00000049) ∧
    (∀ row ∈ opcodeTable, (0x80000000 : Word) &&& row.2 ≠ row.1) ∧ (∀ row ∈ opcodeTable, (0x000000FF : Word) &&& row.2 ≠ row.1) ∧
    ∀ row ∈ opcodeTable, (0x00000003 : Word) &&& row.2 ≠ row.1 := by simp [opcodeTable]

theorem witness_DecodeAndEncodeAgree : decode 0x000F0049 = .ok (.unpad 15) := by decide

theorem witness_CmdWriteRunsTheCommand : decode 0x00000021 = .ok .desEnc ∧ ¬ ∃ i, decode 0x00000003 = .ok i := by
  refine ⟨by decide, ?_⟩
  rintro ⟨i, h⟩
  rw [show decode 0x00000003 = .error (.illegalOpcode 3) by decide] at h
  cases h

/-- First and last register byte, a misaligned word, a 64-bit read; the first and the last aligned word. -/
theorem witness_RegisterAccessAdmission :
    ((HostAccess.write8 0x00000 1).place = some (0, .w8) ∧ Width.w8 ≠ .w32) ∧
    ((HostAccess.read 0x000FF .w8).place = some (0xFF, .w8) ∧ 0xFF < 0x100) ∧
    ((HostAccess.write32 0x00002 1).place = some (2, .w32) ∧ 2 % 4 ≠ 0) ∧
    ((HostAccess.read 0x00008 .w64).place = some (8, .w64) ∧ Width.w64 ≠ .w32) ∧
    ((HostAccess.write32 0x00000 1).place = some (0, .w32) ∧ 0 % 4 = 0) ∧
    (HostAccess.read 0x000FC .w32).place = some (0xFC, .w32) ∧ 0xFC % 4 = 0 ∧ 0xFC < 0x100 := by decide

/-- A machine whose IBUF has 513 bytes, so that a halfword can straddle its end. -/
def oddState : State := State.resetWith { bufBytes := 513, tbufEntries := 64, dealDup := .halfTwice }

theorem witness_BufferAccessAdmission : oddState.params.inRange ∧
    ((HostAccess.write64 0x00100 1).place = some (0x100, .w64)) ∧
    ((HostAccess.read 0x40001 .w16).place = some (0x40001, .w16) ∧ 0x40001 % Width.bytes .w16 ≠ 0) ∧
    ((HostAccess.read 0x40200 .w16).place = some (0x40200, .w16) ∧ 0x40200 % Width.bytes .w16 = 0 ∧
      ∃ b : Buf, b.base ≤ 0x40200 ∧ 0x40200 < b.base + b.size oddState.params ∧
        b.base + b.size oddState.params < 0x40200 + Width.bytes .w16) ∧
    ((HostAccess.write32 0x401FC 1).place = some (0x401FC, .w32) ∧ 0x401FC % Width.bytes .w32 = 0 ∧
      ∀ b : Buf, b.base ≤ 0x401FC → 0x401FC < b.base + b.size oddState.params →
        0x401FC + Width.bytes .w32 ≤ b.base + b.size oddState.params) := by
  refine ⟨by decide, by decide, by decide, ⟨by decide, by decide, .ibuf, by decide⟩, by decide, by decide, ?_⟩
  intro b
  cases b <;> decide

/-- An access meets the hypotheses: inside buffer `b` at its offset `k`, aligned, at most 32 bits wide. -/
def inBuffer (p : Params) (a : HostAccess) (b : Buf) (k : Nat) (w : Width) : Prop :=
  w ≠ .w64 ∧ k % w.bytes = 0 ∧ k + w.bytes ≤ b.size p ∧ a.place = some (b.base + k, w)

/-- Writes at the ends of each buffer that the host may write, in every width, and reads at the ends of OBUF, one of a byte
that holds a value. -/
theorem witness_BufferAccessesLittleEndian : State.reset.params.inRange ∧
    inBuffer State.reset.params (.write32 0x40000 1) .ibuf 0 .w32 ∧
    inBuffer State.reset.params (.write32 0x40FFC 1) .ibuf 4092 .w32 ∧
    inBuffer State.reset.params (.write8 0x0011F 1) .kbuf 31 .w8 ∧
    inBuffer State.reset.params (.write16 0x0015E 1) .ivbuf 30 .w16 ∧
    inBuffer State.reset.params (.write16 0x01000 1) .tbuf 0 .w16 ∧
    inBuffer State.reset.params (.write8 0x011FF 1) .tbuf 511 .w8 ∧
    inBuffer State.reset.params (.read 0x80000 .w32) .obuf 0 .w32 ∧
    inBuffer State.reset.params (.read 0x8101F .w8) .obuf 4127 .w8 ∧
    (HostAccess.write8 0x0011F 1).writes = true ∧ (HostAccess.read 0x80000 .w32).writes = false ∧
    (put .obuf [7] State.reset).bufByte .obuf (0 + 0) = some 7 := by
  unfold inBuffer
  decide +kernel

/-- The ends of the reserved ranges, OBUF and the three read-only registers. -/
theorem witness_ReservedAndReadOnlyAccesses : State.reset.params.inRange ∧
    (∀ p ∈ [(0x2C, Width.w32), (0xFC, .w32), (0x120, .w8), (0x13F, .w8), (0x160, .w32), (0xFFC, .w32), (0x1200, .w16),
        (0x3FFFF, .w8), (0x41000, .w8), (0x7FFFF, .w8), (0x81020, .w32), (0xFFFFF, .w8), (0x80000, .w32), (0x8101F, .w8),
        (0x04, .w32), (0x24, .w32), (0x28, .w32)], refusalOf State.reset.params p.1 p.2 = none) ∧
    (∀ off ∈ [0x2C, 0xFC, 0x120, 0x13F, 0x160, 0xFFC, 0x1200, 0x3FFFF, 0x41000, 0x7FFFF, 0x81020, 0xFFFFF],
      reservedOffset State.reset.params off) ∧
    (HostAccess.write32 0x2C 1).writes = true ∧ (HostAccess.write32 0x2C 1).place = some (0x2C, .w32) ∧
    (HostAccess.read 0xFFFFF .w8).writes = false ∧ (HostAccess.read 0xFFFFF .w8).place = some (0xFFFFF, .w8) := by
  unfold reservedOffset
  decide

theorem witness_OnlyCmdAndResetChangeResults : State.reset.params.inRange ∧
    HostAccess.write8 0x00100 5 ≠ .reset ∧ (∀ v, HostAccess.write8 0x00100 5 ≠ .write32 0x00000 v) ∧
    (∃ t, step (State.reset.facing (.write8 0x00100 5) []) = .next t) ∧
    (∃ t, step (State.reset.facing (.read 0x00004 .w32) []) = .next t) ∧ State.reset.host = [] :=
  ⟨by decide, by decide, fun v => by simp, ⟨_, rfl⟩, ⟨_, rfl⟩, rfl⟩

/-- A command, a buffer write and a reset, each from a state that meets the invariant. -/
theorem witness_StepKeepsInvariant : (State.reset.facing (.write32 0x00000 0x15) []).inv ∧
    isNext (step (State.reset.facing (.write32 0x00000 0x15) [])) = true ∧
    (∃ t, step (State.reset.facing (.write32 0x40000 7) []) = .next t) ∧
    ∃ t, step (State.reset.facing .reset []) = .next t :=
  ⟨by decide +kernel, by decide +kernel, ⟨_, rfl⟩, ⟨_, rfl⟩⟩

theorem witness_StatusLayout : State.reset.rij.keyed = false ∧ rij24.keyed = true ∧ rij24.bs = 24 ∧ rij24.ks = 16 ∧
    (RijInst.build 16 0x1B (List.replicate 24 0)).bs = 16 ∧ (RijInst.build 16 0x1B (List.replicate 24 0)).ks = 24 ∧
    (RijInst.build 32 0x1B (List.replicate 32 0)).bs = 32 ∧ (RijInst.build 32 0x1B (List.replicate 32 0)).ks = 32 := by
  refine ⟨rfl, rfl, rfl, ?_, rfl, ?_, rfl, ?_⟩ <;> simp [rij24, RijInst.build]

/-- One state for each error of the table, and one with none. -/
theorem witness_ErrorsInOrder : (∀ row ∈ opcodeTable, (0x80000000 : Word) &&& row.2 ≠ row.1) ∧
    decode 0x00305040 = .ok (.modeEnc 5 0 3) ∧ firstError (.modeEnc 5 0 3) State.reset = some .unsupported ∧
    firstError .desEnc State.reset = some .notKeyed ∧ firstError .gfMul (withArgs 0x100 0 0x1A) = some .invalidArg ∧
    firstError .gfInv (withArgs 0 0 0x1A) = some .reducible ∧ firstError .gfInv (withArgs 0 0 0x1B) = some .zeroInv ∧
    firstError .gfInv (withArgs 1 0 0x1B) = none ∧ isNext (step (State.reset.pushCommand 0x15)) = true :=
  ⟨by simp [opcodeTable], by decide, by decide +kernel, by decide +kernel, by decide +kernel, by decide +kernel,
    by decide +kernel, by decide +kernel, by decide +kernel⟩

theorem witness_ErrorChangesOnlyStatus : step (State.reset.pushCommand 0x80000000) = .next (State.reset.raised .illegal) ∧
    (State.reset.raised .illegal).err ≠ .ok := ⟨rfl, by decide⟩

theorem witness_ErrSeenIsSticky : (∃ t, step (State.reset.pushCommand 0x80000000) = .next t ∧ t.err ≠ .ok) ∧
    (∃ t, step (State.reset.pushCommand 0x00000000) = .next t ∧ t.err = .ok) ∧
    (∃ t, step (State.reset.pushCommand 0x00000002) = .next t) ∧
    (∃ t, step ((State.reset.raised .illegal).facing .reset []) = .next t ∧
      ((State.reset.raised .illegal).facing .reset []).errSeen = true ∧ t.errSeen = false) ∧
    ∃ t, step ((State.reset.raised .illegal).facing (.write32 0x00000 0x00000002) []) = .next t ∧ t.errSeen = false :=
  ⟨⟨_, rfl, by decide⟩, ⟨_, rfl, rfl⟩, ⟨_, rfl⟩, ⟨_, rfl, rfl, rfl⟩, ⟨_, rfl, rfl⟩⟩

theorem witness_CommandsKeepInputs : State.reset.inv ∧ isNext (exec .gfListIrred State.reset) = true ∧
    ∃ t, exec .desEnc State.reset = .next t ∧ t.err ≠ .ok :=
  ⟨by decide +kernel, by decide +kernel, ⟨_, rfl, by decide⟩⟩

theorem witness_FaultsExactlyOnMissingBytes : State.reset.inv := by decide +kernel

/-- A second memory with other bytes outside the named ones; DES_SETKEY then answers a next state, and a fault without
the key. -/
theorem witness_OtherBytesNeverMatter :
    (withData [] (bytesBE 0 8)).inv ∧
    State.inv { withData [] (bytesBE 0 8) with mem := (withData [1] (bytesBE 0 9)).mem } ∧
    (∀ p ∈ operandRanges (withData [] (bytesBE 0 8)) .desSetKey, ∀ k < p.2,
      (withData [1] (bytesBE 0 9)).mem.read (p.1.base + k) = (withData [] (bytesBE 0 8)).bufByte p.1 k) ∧
    isNext (exec .desSetKey (withData [] (bytesBE 0 8))) = true ∧
    exec .desSetKey { State.reset with klen := 8 } = .fault (.noValue .kbuf) :=
  ⟨by decide +kernel, by decide +kernel, by decide +kernel, by decide +kernel, rfl⟩

theorem witness_CommandsIgnoreErr : exec .desSetKey { State.reset with klen := 8 } = .fault (.noValue .kbuf) ∧
    ∃ t, exec .nop State.reset = .next t := ⟨rfl, ⟨_, rfl⟩⟩

theorem witness_InstancesChangeOnlyBySetkey : ∃ t, exec .zeroize State.reset = .next t := ⟨_, rfl⟩

/-- LEN and TLEN at 0 and at their capacities are inside the checks; a table with an in-range entry, an entry beyond the
input and entry 0. -/
theorem witness_PermuteBitByBit :
    (let s := put .tbuf [1, 0, 0, 0, 9, 0] { withData [0x80] [] with tlen := 3 }
     s.len.toNat ≤ s.params.bufBytes ∧ s.tlen.toNat ≤ s.params.tbufEntries ∧
       s.memRead .ibuf 0 s.len.toNat = some [0x80] ∧ s.memRead .tbuf 0 (2 * s.tlen.toNat) = some [1, 0, 0, 0, 9, 0]) ∧
    (State.reset.memRead .ibuf 0 State.reset.len.toNat = some [] ∧
      State.reset.memRead .tbuf 0 (2 * State.reset.tlen.toNat) = some []) := by decide +kernel

theorem witness_GfAddAndMulComplete : (withArgs 0xFF 0xFF 0xF9).arg0.toNat ≤ 0xFF ∧
    (withArgs 0xFF 0xFF 0xF9).arg1.toNat ≤ 0xFF ∧ (withArgs 0xFF 0xFF 0xF9).arg2.toNat ≤ 0xFF ∧
    irreducible ((withArgs 0xFF 0xFF 0xF9).arg2.setWidth 8) = true :=
  ⟨by decide, by decide, by decide, irreducible_F9⟩

theorem witness_GfFieldLaws : irreducible 0x1B = true ∧ (0xFF : Byte) ≠ 0 := ⟨irreducible_1B, by decide⟩

theorem witness_GfInvCompletes : (withArgs 0xFF 0 0x1B).arg0.toNat ≤ 0xFF ∧ (withArgs 0xFF 0 0x1B).arg2.toNat ≤ 0xFF ∧
    irreducible ((withArgs 0xFF 0 0x1B).arg2.setWidth 8) = true ∧ (withArgs 0xFF 0 0x1B).arg0 ≠ 0 :=
  ⟨by decide, by decide, irreducible_1B, by decide⟩

theorem witness_GfPowIsRepeatedProduct : (withArgs 0 0xFFFFFFFF 0x1B).arg0.toNat ≤ 0xFF ∧
    (withArgs 0 0xFFFFFFFF 0x1B).arg2.toNat ≤ 0xFF ∧
    irreducible ((withArgs 0 0xFFFFFFFF 0x1B).arg2.setWidth 8) = true := ⟨by decide, by decide, irreducible_1B⟩

theorem witness_GfIsIrredFindsFactors : (withArgs 0xFF 0 0).arg0.toNat ≤ 0xFF ∧ (withArgs 0 0 0).arg0.toNat ≤ 0xFF := by
  decide

theorem witness_FeistelRoundsAndInverse : (∀ half k : Bytes, half.length = 4 → (desF half k).length = 4) ∧
    (bytesBE 0x0123456789ABCDEF 8).length = 8 := ⟨fun _ _ _ => length_desF _ _, rfl⟩

theorem witness_DesAndDealSetKeyComplete :
    ((withData [] (bytesBE 1 8)).klen = 8 ∧ (withData [] (bytesBE 1 8)).memRead .kbuf 0 8 = some (bytesBE 1 8)) ∧
    ((withData [] (bytesBE 1 16)).klen = 16 ∧ (withData [] (bytesBE 1 16)).memRead .kbuf 0 16 = some (bytesBE 1 16)) := by
  decide +kernel

/-- Keys that differ in every parity bit. -/
theorem witness_DesScheduleIgnoresParity : (List.replicate 8 (0xFE : Byte)).length = 8 ∧
    (List.replicate 8 (0xFF : Byte)).length = 8 ∧
    ∀ i < 8, ((List.replicate 8 (0xFE : Byte)).getD i 0) >>> 1 = ((List.replicate 8 (0xFF : Byte)).getD i 0) >>> 1 := by
  decide

theorem witness_BlockCommandsComplete :
    (let s := keyedState (bytesBE 7 8)
     s.len = 8 ∧ s.memRead .ibuf 0 8 = some (bytesBE 7 8) ∧ s.des.keyed = true ∧ s.deal.keyed = true) ∧
    (let s := { withData (bytesBE 7 24) [] with rij := rij24 }
     s.rij.keyed = true ∧ s.len.toNat = s.rij.bs ∧ s.memRead .ibuf 0 s.rij.bs = some (bytesBE 7 24)) := by decide +kernel

theorem witness_KeygenCommandsComplete :
    ((withData [] (bytesBE 1 8)).klen = 8 ∧ (withData [] (bytesBE 1 8)).memRead .kbuf 0 8 = some (bytesBE 1 8)) ∧
    ((withData [] (bytesBE 1 16)).klen = 16 ∧ (withData [] (bytesBE 1 16)).memRead .kbuf 0 16 = some (bytesBE 1 16)) ∧
    (let s := { withData [] (bytesBE 1 32) with arg2 := 0x1B }
     (2 : BitVec 2) ≠ 3 ∧ 32 = 16 + 8 * (2 : BitVec 2).toNat ∧ rijSize s.klen.toNat ∧
       14 = max (32 / 4) (s.klen.toNat / 4) + 6 ∧ s.arg2.toNat ≤ 0xFF ∧ irreducible (s.arg2.setWidth 8) = true ∧
       s.memRead .kbuf 0 s.klen.toNat = some (bytesBE 1 32)) := by decide +kernel

theorem witness_RoundCommandsComplete :
    (let s := withData (bytesBE 1 4) (bytesBE 2 6)
     s.len = 4 ∧ s.memRead .ibuf 0 4 = some (bytesBE 1 4) ∧ s.klen = 6 ∧ s.memRead .kbuf 0 6 = some (bytesBE 2 6)) ∧
    (let s := withData (bytesBE 1 4) (bytesBE 2 8)
     s.len = 4 ∧ s.klen = 8 ∧ s.memRead .kbuf 0 8 = some (bytesBE 2 8)) ∧
    (let s := withData (bytesBE 1 8) (bytesBE 2 6)
     s.len = 8 ∧ s.memRead .ibuf 0 8 = some (bytesBE 1 8) ∧ s.klen = 6 ∧ s.memRead .kbuf 0 6 = some (bytesBE 2 6)) ∧
    (let s := withData (bytesBE 1 8) (bytesBE 2 8)
     s.len = 8 ∧ s.klen = 8 ∧ s.memRead .kbuf 0 8 = some (bytesBE 2 8)) := by decide +kernel

theorem witness_DesAndDealRoundTrip : (bytesBE 0 8).length = 8 := rfl

theorem witness_RijSetKeyBuildsInstance :
    (let s := { withData [] (bytesBE 1 24) with arg2 := 0xF9 }
     (1 : BitVec 2) ≠ 3 ∧ rijSize s.klen.toNat ∧ s.arg2 = (0xF9 : Byte).setWidth 32 ∧ irreducible 0xF9 = true ∧
       s.memRead .kbuf 0 s.klen.toNat = some (bytesBE 1 24)) := by decide +kernel

theorem witness_RijSboxLookups : (withArgs 0 0 0x1B).arg0 = (0 : Byte).setWidth 32 ∧
    (withArgs 0xFF 0 0x1B).arg0 = (0xFF : Byte).setWidth 32 ∧ (withArgs 0 0 0x1B).arg2 = (0x1B : Byte).setWidth 32 ∧
    irreducible 0x1B = true := ⟨by decide, by decide, by decide, irreducible_1B⟩

/-- The step commands on a state of 16, 24 and 32 bytes. -/
theorem witness_RijStepCommands : ∀ n ∈ [16, 24, 32],
    (let s := { withData (bytesBE 5 n) (bytesBE 6 n) with arg2 := 0x1B }
     rijSize s.len.toNat ∧ s.klen = s.len ∧ s.arg2 = (0x1B : Byte).setWidth 32 ∧
       s.memRead .ibuf 0 s.len.toNat = some (bytesBE 5 n) ∧ s.memRead .kbuf 0 s.len.toNat = some (bytesBE 6 n)) := by
  decide +kernel

theorem witness_RijSubBytesByteByByte :
    (let s := { withData (bytesBE 5 24) [] with arg2 := 0x1B }
     rijSize s.len.toNat ∧ s.arg2 = (0x1B : Byte).setWidth 32 ∧ irreducible 0x1B = true ∧
       s.memRead .ibuf 0 s.len.toNat = some (bytesBE 5 24)) := by decide +kernel

theorem witness_RijShiftRowsCellByCell :
    (let s := withData (bytesBE 5 32) []
     rijSize s.len.toNat ∧ 8 = s.len.toNat / 4 ∧ s.memRead .ibuf 0 s.len.toNat = some (bytesBE 5 32)) := by decide +kernel

theorem witness_RijMixColumnsColumnByColumn :
    (let s := { withData (bytesBE 5 16) [] with arg2 := 0xF9 }
     rijSize s.len.toNat ∧ s.arg2 = (0xF9 : Byte).setWidth 32 ∧ irreducible 0xF9 = true ∧
       s.memRead .ibuf 0 s.len.toNat = some (bytesBE 5 16)) := by decide +kernel

theorem witness_MixColumnsInverse : (bytesBE 5 16).length % 4 = 0 ∧ ([] : Bytes).length % 4 = 0 := by decide

/-- A 32-byte key and a 16-byte block, so that every clause has its word: Nk = 8, Nb = 4, Nr = 14. -/
theorem witness_RijKeyExpansionRecurrence : rijSize 16 ∧ rijSize (bytesBE 1 32).length ∧ irreducible 0x1B = true ∧
    8 = (bytesBE 1 32).length / 4 ∧ 4 = 16 / 4 ∧ 14 = max 4 8 + 6 ∧
    (8 ≤ 8 ∧ 8 < 4 * (14 + 1) ∧ 8 % 8 = 0) ∧ (12 < 4 * (14 + 1) ∧ 12 % 8 = 4 ∧ 6 < 8) ∧
    (59 < 4 * (14 + 1) ∧ 59 % 8 ≠ 0 ∧ ¬(59 % 8 = 4 ∧ 6 < 8)) :=
  ⟨by decide, by decide, irreducible_1B, by decide, by decide, by decide, by decide, by decide, by decide⟩

theorem witness_RijRoundCommandsComplete :
    (let s := { withData (bytesBE 5 32) (bytesBE 6 32) with arg2 := 0x1B }
     rijSize s.len.toNat ∧ s.klen = s.len ∧ s.memRead .ibuf 0 s.len.toNat = some (bytesBE 5 32) ∧
       s.memRead .kbuf 0 s.len.toNat = some (bytesBE 6 32) ∧ s.arg2 = (0x1B : Byte).setWidth 32 ∧
       irreducible 0x1B = true) := by decide +kernel

theorem witness_RijndaelRoundTrip : rij24.ok ∧ rij24.keyed = true ∧ (bytesBE 9 24).length = rij24.bs := ⟨rij24_ok, rij24_keyed, by rw [rij24_bs]; rfl⟩

/-- MODE_ENC and MODE_DEC with the DES instance on a whole block, in each mode. -/
theorem witness_ModeReady (mode : ChainMode) : ModeReady (keyedState (bytesBE 7 8)) mode .des (bytesBE 7 8) (bytesBE 0 8) :=
  ⟨by decide +kernel, rfl, by decide, fun _ => rfl, by decide +kernel, fun _ => by decide +kernel⟩

/-- The same on no data at all, and with a short last block. -/
theorem witness_ModeReady_empty (mode : ChainMode) : ModeReady (keyedState []) mode .deal [] (bytesBE 0 8) ∧
    ModeReady (keyedState (bytesBE 7 11)) mode .deal (bytesBE 7 11) (bytesBE 0 8) :=
  ⟨⟨by decide +kernel, rfl, by decide, fun _ => rfl, by decide +kernel, fun _ => by decide +kernel⟩,
    ⟨by decide +kernel, rfl, by decide, fun _ => rfl, by decide +kernel, fun _ => by decide +kernel⟩⟩

theorem witness_ModeEcbBlockByBlock : CipherSel.ofCode 0 = some .des ∧ PadScheme.ofCode 3 = some .iso10126 ∧
    ModeReady (keyedState (bytesBE 7 8)) .ecb .des (bytesBE 7 8) [] ∧
    (bytesBE 7 8).length % (cipherOf (keyedState (bytesBE 7 8)) .des).bs = 0 :=
  ⟨rfl, rfl, ⟨by decide +kernel, rfl, by decide, fun h => absurd rfl h, by decide +kernel, fun h => absurd rfl h⟩, rfl⟩

theorem witness_ModeCbcBlockByBlock : CipherSel.ofCode 0 = some .des ∧ PadScheme.ofCode 1 = some .pkcs7 ∧
    ModeReady (keyedState (bytesBE 7 8)) .cbc .des (bytesBE 7 8) (bytesBE 0 8) ∧
    (bytesBE 7 8).length % (cipherOf (keyedState (bytesBE 7 8)) .des).bs = 0 := ⟨rfl, rfl, witness_ModeReady _, rfl⟩

theorem witness_ModeCfbBlockByBlock : CipherSel.ofCode 1 = some .deal ∧ PadScheme.ofCode 0 = some .zeros ∧
    ModeReady (keyedState (bytesBE 7 11)) .cfb .deal (bytesBE 7 11) (bytesBE 0 8) :=
  ⟨rfl, rfl, (witness_ModeReady_empty _).2⟩

theorem witness_ModeOfbBlockByBlock : CipherSel.ofCode 1 = some .deal ∧ PadScheme.ofCode 2 = some .ansix923 ∧
    ModeReady (keyedState (bytesBE 7 11)) .ofb .deal (bytesBE 7 11) (bytesBE 0 8) :=
  ⟨rfl, rfl, (witness_ModeReady_empty _).2⟩

theorem witness_ModeCtrBlockByBlock : CipherSel.ofCode 1 = some .deal ∧ PadScheme.ofCode 2 = some .ansix923 ∧
    ModeReady (keyedState []) .ctr .deal [] (bytesBE 0 8) := ⟨rfl, rfl, (witness_ModeReady_empty _).1⟩

theorem witness_StreamModesIgnorePad : 2 ≤ (2 : BitVec 4).toNat ∧ (2 : BitVec 4).toNat ≤ 4 ∧ 2 ≤ (4 : BitVec 4).toNat ∧
    (4 : BitVec 4).toNat ≤ 4 ∧ (0 : BitVec 4).toNat ≤ 3 ∧ (3 : BitVec 4).toNat ≤ 3 ∧ 4 ≤ (4 : BitVec 4).toNat ∧
    4 ≤ (15 : BitVec 4).toNat := by decide

/-- Block sizes 1 and 32, data of 0 and 3 bytes. -/
theorem witness_PadCommandCompletes :
    (let s := { withData [0x41, 0x42, 0x43] [] with arg0 := 1 }
     1 = s.arg0.toNat ∧ s.len.toNat ≤ s.params.bufBytes ∧ s.memRead .ibuf 0 s.len.toNat = some [0x41, 0x42, 0x43]) ∧
    (let s := { withData [] [] with arg0 := 32 }
     32 = s.arg0.toNat ∧ s.len.toNat ≤ s.params.bufBytes ∧ s.memRead .ibuf 0 s.len.toNat = some []) := by decide +kernel

/-- A pad of each scheme that is well formed, and a malformed one. -/
theorem witness_UnpadCommandCompletes :
    (let s := { withData [0x41, 0, 0, 3] [] with arg0 := 8 }
     8 = s.arg0.toNat ∧ s.len.toNat ≤ s.params.bufBytes ∧ s.memRead .ibuf 0 s.len.toNat = some [0x41, 0, 0, 3]) ∧
    (∀ i, 4 - 3 ≤ i → i < 4 - 1 → ([0x41, 0, 0, 3] : Bytes)[i]? = some 0) ∧
    (∀ i, 4 - 3 ≤ i → i < 4 - 1 → ([0x41, 3, 3, 3] : Bytes)[i]? = some (BitVec.ofNat 8 3)) ∧
    ([0x41, 0, 0, 3] : Bytes)[4 - 1]? = some (BitVec.ofNat 8 3) ∧
    ∀ n, 1 ≤ n → n ≤ 8 → n ≤ 4 → ([0x41, 0, 0, 9] : Bytes)[4 - 1]? ≠ some (BitVec.ofNat 8 n) := by
  refine ⟨by decide +kernel, ?_, ?_, by decide, ?_⟩
  · intro i h1 h2
    obtain rfl | rfl : i = 1 ∨ i = 2 := by omega
    all_goals rfl
  · intro i h1 h2
    obtain rfl | rfl : i = 1 ∨ i = 2 := by omega
    all_goals rfl
  · intro n h1 _ h4
    obtain rfl | rfl | rfl | rfl : n = 1 ∨ n = 2 ∨ n = 3 ∨ n = 4 := by omega
    all_goals decide

theorem witness_UnpadInvertsPad : (∀ n, (State.reset.filler n).length = n) ∧
    (PadScheme.zeros = .zeros → ([0x41] : Bytes).getLast? ≠ some 0) ∧ 1 ≤ 255 ∧ 255 ≤ 255 :=
  ⟨fun n => length_filler _ n, fun _ => by decide, by decide, by decide⟩

/-- "ABC" under the zero DES key; MODE_ENC in ECB with PKCS7; then the host copies OBUF[0:OUTLEN] to IBUF and OUTLEN to
LEN. -/
def plainState : State := keyedState [0x41, 0x42, 0x43]

def sealedState : State := nextOr plainState (exec (.modeEnc 0 1 0) plainState)

def copiedState : State :=
  put .ibuf ((sealedState.memRead .obuf 0 8).getD []) { plainState with len := 8 }

theorem witness_ModeRoundTrip : plainState.inv ∧ copiedState.inv ∧ CipherSel.ofCode 0 = some .des ∧
    plainState.memRead .ibuf 0 plainState.len.toNat = some [0x41, 0x42, 0x43] ∧
    plainState.len.toNat + (cipherOf plainState .des).bs ≤ plainState.params.bufBytes ∧
    ((1 : BitVec 4) = 0 → 2 ≤ (0 : BitVec 4).toNat ∨ ([0x41, 0x42, 0x43] : Bytes).getLast? ≠ some 0) ∧
    exec (.modeEnc 0 1 0) plainState = .next sealedState ∧ sealedState.err = .ok ∧
    copiedState.params = plainState.params ∧ InstancesKept plainState copiedState ∧
    copiedState.ivlen = plainState.ivlen ∧ (∀ k < 32, copiedState.bufByte .ivbuf k = plainState.bufByte .ivbuf k) ∧
    copiedState.len = sealedState.outlen ∧
    ∀ k < sealedState.outlen.toNat, copiedState.bufByte .ibuf k = sealedState.bufByte .obuf k :=
  ⟨by decide +kernel, by decide +kernel, rfl, by decide +kernel, by decide, by decide,
    next_of_isNext _ (by decide +kernel), by decide +kernel, rfl, ⟨rfl, rfl, rfl⟩, rfl, by decide +kernel,
    by decide +kernel, by decide +kernel⟩

end Sys2Proof.Tests
end

section
/-! SUPPORT. What every command and every host write can do, as the proofs about state use it: the one change that a success
makes outside its results, and the three things a host write can be (10_state.md R20, R33, R38). -/

namespace Sys2Proof.Machine

/-! ### The one change of a successful command -/

/-- The changes that `Becomes` allows, each with the command that makes it; every command but five changes at most the
free-value counter. -/
theorem becomes_cases {i : Instr} {s u : State} (h : Becomes i s u) :
    (∃ n, u = s.drew n) ∨
    (i = .zeroize ∧ u = { s with des := .cleared, deal := .cleared, rij := .cleared }) ∨
    (i = .clrerr ∧ u = { s with errSeen := false }) ∨
    (i = .desSetKey ∧ ∃ key, u = { s with des := { keyed := true, rk := desKeygen key } }) ∨
    (i = .dealSetKey ∧ ∃ mk, u = { s with deal := { keyed := true, rk := dealKeygen mk } }) ∨
    ∃ bsc bs m key, i = .rijSetKey bsc ∧ rijSize bs ∧ rijSize key.length ∧ irreducible m = true ∧
      u = { s with rij := RijInst.build bs m key } := by
  have hsame : u = s → ∃ n, u = s.drew n := fun h => ⟨0, h⟩
  cases i with
  | zeroize => exact .inr (.inl ⟨rfl, h⟩)
  | clrerr => exact .inr (.inr (.inl ⟨rfl, h⟩))
  | desSetKey => exact .inr (.inr (.inr (.inl ⟨rfl, h⟩)))
  | dealSetKey => exact .inr (.inr (.inr (.inr (.inl ⟨rfl, h⟩))))
  | rijSetKey bsc =>
    obtain ⟨bs, m, key, hbs, hks, hm, hu⟩ := h
    exact .inr (.inr (.inr (.inr (.inr ⟨bsc, bs, m, key, rfl, hbs, hks, hm, hu⟩))))
  | modeEnc _ _ _ => exact .inl h
  | pad _ => exact .inl h
  | _ => exact .inl (hsame h)

/-- What a success becomes keeps everything but the instances, ERRSEEN and the free-value counter (10_state.md R33). -/
theorem becomes_frame {i : Instr} {s u : State} (h : Becomes i s u) :
    u = { s with des := u.des, deal := u.deal, rij := u.rij, errSeen := u.errSeen, draws := u.draws } := by
  rcases becomes_cases h with
    ⟨_, rfl⟩ | ⟨_, rfl⟩ | ⟨_, rfl⟩ | ⟨_, _, rfl⟩ | ⟨_, _, rfl⟩ | ⟨_, _, _, _, _, _, _, _, rfl⟩ <;> rfl

theorem becomes_inputsKept {i : Instr} {s u : State} (h : Becomes i s u) : InputsKept s u := by
  rw [becomes_frame h]
  constructor <;> intros <;> rfl

/-! ### Well-formed instances -/

theorem DesInst.cleared_ok : DesInst.cleared.ok := by decide

theorem DealInst.cleared_ok : DealInst.cleared.ok := by decide

theorem RijInst.cleared_ok : RijInst.cleared.ok := ⟨nofun, fun _ => rfl⟩

/-- A success leaves well-formed instances: a SETKEY builds one (10_state.md R40). -/
theorem becomes_instances_ok {i : Instr} {s u : State} (h : Becomes i s u) (hdes : s.des.ok) (hdeal : s.deal.ok)
    (hrij : s.rij.ok) : u.des.ok ∧ u.deal.ok ∧ u.rij.ok := by
  rcases becomes_cases h with ⟨_, rfl⟩ | ⟨_, rfl⟩ | ⟨_, rfl⟩ | ⟨_, key, rfl⟩ | ⟨_, mk, rfl⟩ |
    ⟨_, _, _, _, _, hbs, hks, hm, rfl⟩
  · exact ⟨hdes, hdeal, hrij⟩
  · exact ⟨DesInst.cleared_ok, DealInst.cleared_ok, RijInst.cleared_ok⟩
  · exact ⟨hdes, hdeal, hrij⟩
  · exact ⟨⟨length_desKeygen key, length_of_mem_desKeygen key, nofun⟩, hdeal, hrij⟩
  · exact ⟨hdes, ⟨length_dealKeygen mk, length_of_mem_dealKeygen mk, nofun⟩, hrij⟩
  · exact ⟨hdes, hdeal, RijInst.build_ok hbs hks hm⟩

/-! ### Register accesses (20_memory.md R51, R52) -/

/-- Only the word offsets 0x00 to 0x28 hold registers. -/
theorem regAt_eq_some {off : Nat} {r : HostReg} (h : regAt off = some r) : off ≤ 0x28 ∧ off % 4 = 0 := by
  unfold regAt at h
  split at h
  on_goal 12 => cases h
  all_goals exact ⟨by decide, by decide⟩

/-- CMD is at offset 0 and nowhere else. -/
theorem regAt_eq_cmd {off : Nat} (h : regAt off = some .cmd) : off = 0 := by
  unfold regAt at h
  split at h
  · rfl
  all_goals cases h

theorem inRegisters_of_regAt {off : Nat} {r : HostReg} (h : regAt off = some r) : inRegisters off = true := by
  have := regAt_eq_some h
  simp only [inRegisters, decide_eq_true_eq]; omega

theorem refusalOf_register {p : Params} {off : Nat} {r : HostReg} (h : regAt off = some r) :
    refusalOf p off .w32 = none := by
  rw [refusalOf, if_pos (inRegisters_of_regAt h), if_pos ⟨rfl, (regAt_eq_some h).2⟩]

/-- A 32-bit write of a register's offset writes the register. -/
theorem busWrite_register {off : Nat} {r : HostReg} (h : regAt off = some r) (v : Word) (s : State) :
    busWrite off .w32 v.toNat s = regWrite r v s := by
  simp only [busWrite, refusalOf_register h, inRegisters_of_regAt h, h, if_true, BitVec.ofNat_toNat,
    BitVec.setWidth_eq]

/-- A 32-bit read of a register's offset returns the register. -/
theorem busRead_register {off : Nat} {r : HostReg} (h : regAt off = some r) (s : State) :
    busRead off .w32 s = .next { s.drew 4 with readData := s.regRead r } := by
  have hv : s.busValue off .w32 = s.regRead r := by simp only [State.busValue, inRegisters_of_regAt h, h, if_true]
  rw [busRead_admitted (refusalOf_register h), hv, Width.bytes]

/-! ### What a host write can do -/

/-- In the register range only 32-bit accesses are admitted (20_memory.md R52). -/
theorem width_of_admitted {p : Params} {off : Nat} {w : Width} (hw : refusalOf p off w = none)
    (hr : inRegisters off = true) : w = .w32 := by
  rw [refusalOf, if_pos hr] at hw
  split at hw
  · next h => exact h.1
  · cases hw

/-- The bytes of an admitted access that begins in a buffer lie in that buffer (20_memory.md R53). -/
theorem holds_of_admitted {p : Params} {off : Nat} {w : Width} {b : Buf} (hw : refusalOf p off w = none)
    (hr : inRegisters off = false) (hb : bufAt p off = some b) {a : Nat} (h1 : off ≤ a) (h2 : a < off + w.bytes) :
    b.holds p a = true := by
  have hfirst : b.holds p off = true := by simpa using List.find?_some hb
  have hlast : b.holds p (off + (w.bytes - 1)) = true := by
    by_contra hn
    simp only [refusalOf, hr, hb, hn, if_false, Bool.false_eq_true] at hw
    split at hw
    · cases hw
    · split at hw <;> cases hw
  simp only [Buf.holds, Bool.and_eq_true, decide_eq_true_eq] at hfirst hlast ⊢
  omega

/-- An offset that some buffer holds belongs to a buffer. -/
theorem bufAt_isSome {p : Params} {b : Buf} {a : Nat} (h : b.holds p a = true) : (bufAt p a).isSome = true := by
  rw [bufAt, List.find?_isSome]
  exact ⟨b, by cases b <;> simp, h⟩

/-- `t` is `s` but for the seven registers that the host writes (10_state.md R22). -/
def RegistersWritten (s t : State) : Prop :=
  t = { s with
    len := t.len, klen := t.klen, ivlen := t.ivlen, tlen := t.tlen
    arg0 := t.arg0, arg1 := t.arg1, arg2 := t.arg2 }

theorem RegistersWritten.refl (s : State) : RegistersWritten s s := rfl

/-- A register write other than one of CMD stores at most into the seven registers (20_memory.md R54). -/
theorem regWrite_next {r : HostReg} {v : Word} {s t : State} (hr : r ≠ .cmd) (h : regWrite r v s = .next t) :
    RegistersWritten s t := by
  cases r with
  | cmd => exact absurd rfl hr
  | _ =>
    cases h
    exact Eq.refl _

theorem admitted_of_busWrite_next {off v : Nat} {w : Width} {s t : State} (h : busWrite off w v s = .next t) :
    refusalOf s.params off w = none := by
  by_contra hn
  obtain ⟨r, hr⟩ := Option.ne_none_iff_exists'.1 hn
  rw [busWrite_refused hr] at h
  cases h

/-- A host write that is not refused runs a command, writes registers, or writes bytes inside a buffer. -/
theorem busWrite_next {off v : Nat} {w : Width} {s t : State} (h : busWrite off w v s = .next t) :
    (off = 0 ∧ w = .w32 ∧ runCommand (BitVec.ofNat 32 v) s = .next t) ∨
    RegistersWritten s t ∨
    ((∀ a, off ≤ a → a < off + w.bytes → (bufAt s.params a).isSome = true) ∧
      t = { s with mem := s.mem.writeRange off (bytesLE v w.bytes) }) := by
  have hadm := admitted_of_busWrite_next h
  simp only [busWrite, hadm] at h
  cases hin : inRegisters off with
  | true =>
    rw [if_pos hin] at h
    split at h
    · next r hr =>
      by_cases hc : r = .cmd
      · subst hc
        exact .inl ⟨regAt_eq_cmd hr, width_of_admitted hadm hin, h⟩
      · exact .inr (.inl (regWrite_next hc h))
    · cases h
      exact .inr (.inl (.refl s))
  | false =>
    rw [if_neg (by simp [hin])] at h
    split at h
    · next b hb =>
      split at h
      · cases h
        exact .inr (.inr ⟨fun a h1 h2 => bufAt_isSome (holds_of_admitted hadm hin hb h1 h2), rfl⟩)
      · cases h
        exact .inr (.inl (.refl s))
    · cases h
      exact .inr (.inl (.refl s))

end Sys2Proof.Machine
end

section
/-! SUPPORT. Every step keeps the invariant (10_state.md R33, R40): the operations that write state, one by one. -/

namespace Sys2Proof.Machine

/-! ### Memory inside the buffers -/

/-- The canonical form of memory inside the buffers: the two clauses of the invariant about memory. -/
def MemoryOk (p : Params) (m : Memory) : Prop := m.wf = true ∧ ∀ c ∈ m, (bufAt p c.1).isSome = true

/-- A write inside the buffers keeps memory canonical and inside them. -/
theorem MemoryOk.writeRange {p : Params} {m : Memory} (hm : MemoryOk p m) {base : Nat} {bs : Bytes}
    (h : ∀ a, base ≤ a → a < base + bs.length → (bufAt p a).isSome = true) : MemoryOk p (m.writeRange base bs) := by
  refine ⟨Memory.writeRange_wf hm.1 base bs, fun c hc => ?_⟩
  rcases Memory.mem_writeRange hc with hc | ⟨h1, h2⟩
  · exact hm.2 c hc
  · exact h c.1 h1 h2

/-- An output that fits OBUF is written inside it (20_memory.md R64). -/
theorem bufAt_output {p : Params} {out : Bytes} (h : out.length ≤ p.obufBytes) (a : Nat) (h1 : Buf.obuf.base ≤ a)
    (h2 : a < Buf.obuf.base + out.length) : (bufAt p a).isSome = true := by
  refine bufAt_isSome (b := .obuf) ?_
  simp only [Buf.holds, Bool.and_eq_true, decide_eq_true_eq]
  exact ⟨h1, h2.trans_le (Nat.add_le_add_left h _)⟩

/-! ### The invariant -/

/-- The reset state of a machine with legal parameters meets the invariant (10_state.md R41). -/
theorem resetWith_inv {p : Params} (hp : p.inRange) : (State.resetWith p).inv :=
  ⟨hp, rfl, nofun, DesInst.cleared_ok, DealInst.cleared_ok, RijInst.cleared_ok, Nat.zero_le _⟩

theorem RegistersWritten.inv {s t : State} (h : RegistersWritten s t) (hs : s.inv) : t.inv := by
  rw [h]
  exact hs

/-- A write of bytes inside the buffers keeps the invariant (20_memory.md R53). -/
theorem writeRange_inv {s : State} (hs : s.inv) {base : Nat} {bs : Bytes}
    (h : ∀ a, base ≤ a → a < base + bs.length → (bufAt s.params a).isSome = true) :
    State.inv { s with mem := s.mem.writeRange base bs } := by
  obtain ⟨hp, hwf, hin, hrest⟩ := hs
  obtain ⟨hwf', hin'⟩ := MemoryOk.writeRange ⟨hwf, hin⟩ h
  exact ⟨hp, hwf', hin', hrest⟩

/-- Success with an output that fits OBUF keeps the invariant (60_exceptions.md R256). -/
theorem completed_inv {u : State} (hu : u.inv) (res : Word) {out : Bytes} (h : out.length ≤ u.params.obufBytes) :
    (u.completed res out).inv := by
  obtain ⟨hp, hwf, hin, hdes, hdeal, hrij, -⟩ := writeRange_inv hu (bufAt_output h)
  refine ⟨hp, hwf, hin, hdes, hdeal, hrij, ?_⟩
  calc (BitVec.ofNat 32 out.length).toNat
      ≤ out.length := by rw [BitVec.toNat_ofNat]; exact Nat.mod_le _ _
    _ ≤ u.params.obufBytes := h

theorem becomes_inv {i : Instr} {s u : State} (h : Becomes i s u) (hs : s.inv) : u.inv := by
  obtain ⟨hp, hwf, hin, hdes, hdeal, hrij, hout⟩ := hs
  obtain ⟨hdes', hdeal', hrij'⟩ := becomes_instances_ok h hdes hdeal hrij
  rw [becomes_frame h]
  exact ⟨hp, hwf, hin, hdes', hdeal', hrij', hout⟩

/-- Every command keeps the invariant. -/
theorem exec_inv {i : Instr} {s t : State} (hs : s.inv) (h : exec i s = .next t) : t.inv := by
  rcases exec_next h with ⟨e, -, rfl⟩ | ⟨u, res, out, ⟨hu, hfit⟩, rfl⟩
  · exact hs
  · refine completed_inv (becomes_inv hu hs) res ?_
    rw [(becomes_inputsKept hu).params]
    exact hfit hs

theorem runCommand_inv {w : Word} {s t : State} (hs : s.inv) (h : runCommand w s = .next t) : t.inv := by
  cases hd : decode w with
  | ok i =>
    rw [runCommand_ok hd] at h
    exact exec_inv hs h
  | error e =>
    rw [runCommand_error hd] at h
    cases h
    exact hs

theorem busWrite_inv {off v : Nat} {w : Width} {s t : State} (hs : s.inv) (h : busWrite off w v s = .next t) :
    t.inv := by
  rcases busWrite_next h with ⟨-, -, hc⟩ | hr | ⟨hin, rfl⟩
  · exact runCommand_inv hs hc
  · exact hr.inv hs
  · exact writeRange_inv hs (by simpa only [length_bytesLE] using hin)

theorem busRead_inv {off : Nat} {w : Width} {s t : State} (hs : s.inv) (h : busRead off w s = .next t) : t.inv := by
  rw [busRead] at h
  split at h
  · cases h
  · cases h
    exact hs

/-- Every host access keeps the invariant. -/
theorem runAccess_inv {a : HostAccess} {s t : State} (hs : s.inv) (h : runAccess a s = .next t) : t.inv := by
  cases a with
  | read off w => exact busRead_inv hs h
  | reset =>
    cases h
    exact resetWith_inv hs.1
  | _ => exact busWrite_inv hs h

/-! ### Obligations -/

/-- Settles O14: a step is idle or performs one host access, and each of them keeps the invariant. -/
theorem stepKeepsInvariant : Obligations.StepKeepsInvariant := by
  unfold Obligations.StepKeepsInvariant
  intro s t hs h
  match hh : s.host with
  | [] =>
    rw [step_idle hh] at h
    cases h
    exact hs
  | a :: rest =>
    have hstep : step s = runAccess a { s with host := rest } := by simp only [step, nextAccess, hh]
    rw [hstep] at h
    exact runAccess_inv (s := { s with host := rest }) hs h

/-- Settles O13: the suggested parameters are in range. -/
theorem resetMeetsInvariant : Obligations.ResetMeetsInvariant :=
  ⟨resetWith_inv (by decide), reset_wf⟩

end Sys2Proof.Machine
end

section
/-! SUPPORT. What commands leave alone (10_state.md R33, R38; 60_exceptions.md R255, R256), the sticky bit ERRSEEN (10_state.md
R27), and the registers as the host sees them (10_state.md R22 to R30), with the reset values (R41). -/

namespace Sys2Proof.Machine

/-! ### The CLRERR word -/

/-- A word with nothing above its lowest byte is its opcode. -/
theorem eq_setWidth_of_masked {w : Word} (h : w &&& ~~~0x000000FF = 0) : w = (fieldOPC w).setWidth 32 := by
  have hmask : (0x000000FF : Word) = (BitVec.allOnes 8).setWidth 32 := by decide
  rw [hmask] at h
  refine BitVec.eq_of_getLsbD_eq fun k hk => ?_
  have hbit := congrArg (fun x : Word => x.getLsbD k) h
  by_cases h8 : k < 8
  · simp [fieldOPC, h8, hk]
  · simp only [BitVec.getLsbD_and, BitVec.getLsbD_not, BitVec.getLsbD_setWidth, BitVec.getLsbD_allOnes] at hbit
    simpa [fieldOPC, h8, hk] using hbit

/-- Only row 0x02 of the opcode map builds CLRERR, and it uses no field (30_encoding.md R79). -/
theorem opcodeRow_clrerr {opc : Byte} {row : OpcodeRow} {w : Word} (h : opcodeRow opc = some row)
    (hb : row.build w = .clrerr) : opc.toNat = 2 ∧ row.used = 0 := by
  unfold opcodeRow at h
  split at h
  on_goal 42 => cases h
  on_goal 3 =>
    next hopc =>
      cases h
      exact ⟨hopc, rfl⟩
  all_goals
    cases h
    cases hb

/-- Only the word 0x00000002 decodes to CLRERR. -/
theorem eq_of_decode_clrerr {w : Word} (h : decode w = .ok .clrerr) : w = 0x00000002 := by
  unfold decode at h
  split at h
  · cases h
  · split at h
    · cases h
    · next row hrow =>
      split at h
      · cases h
      · next hused =>
        obtain ⟨hopc, hu⟩ := opcodeRow_clrerr hrow (Except.ok.inj h)
        have hw := eq_setWidth_of_masked (by simpa [hu] using hused)
        rw [hw, BitVec.eq_of_toNat_eq (y := 2#8) hopc]
        rfl

/-! ### ERRSEEN -/

/-- ERRSEEN after a success is that before it, but for CLRERR. -/
theorem becomes_errSeen {i : Instr} {s u : State} (h : Becomes i s u) (hi : i ≠ .clrerr) : u.errSeen = s.errSeen := by
  rcases becomes_cases h with
    ⟨_, rfl⟩ | ⟨_, rfl⟩ | ⟨hc, -⟩ | ⟨_, _, rfl⟩ | ⟨_, _, rfl⟩ | ⟨_, _, _, _, _, _, _, _, rfl⟩
  case inr.inr.inl => exact absurd hc hi
  all_goals rfl

/-- A command other than CLRERR sets ERRSEEN when it fails and keeps it when it succeeds (10_state.md R27). -/
theorem runCommand_errSeen {w : Word} {s t : State} (hw : w ≠ 0x00000002) (h : runCommand w s = .next t) :
    (t.err ≠ .ok → t.errSeen = true) ∧ (t.err = .ok → t.errSeen = s.errSeen) := by
  have hraised : ∀ e, e ≠ ErrCode.ok → ((s.raised e).err ≠ .ok → (s.raised e).errSeen = true) ∧
      ((s.raised e).err = .ok → (s.raised e).errSeen = s.errSeen) := fun e he => ⟨fun _ => rfl, fun h => absurd h he⟩
  cases hd : decode w with
  | error e =>
    rw [runCommand_error hd] at h
    cases h
    exact hraised .illegal nofun
  | ok i =>
    rw [runCommand_ok hd] at h
    rcases exec_next h with ⟨e, he, rfl⟩ | ⟨u, res, out, ⟨hu, -⟩, rfl⟩
    · exact hraised e he
    · have hi : i ≠ .clrerr := by
        rintro rfl
        exact hw (eq_of_decode_clrerr hd)
      exact ⟨fun h => absurd rfl h, fun _ => (State.completed_errSeen u res out).trans (becomes_errSeen hu hi)⟩

/-- A host write clears ERRSEEN only as a write of the CLRERR word to CMD. -/
theorem busWrite_errSeen {off v : Nat} {w : Width} {s t : State} (h : busWrite off w v s = .next t)
    (hs : s.errSeen = true) (ht : t.errSeen = false) : off = 0 ∧ w = .w32 ∧ BitVec.ofNat 32 v = 0x00000002 := by
  rcases busWrite_next h with ⟨hoff, hw, hc⟩ | hr | ⟨-, rfl⟩
  · refine ⟨hoff, hw, ?_⟩
    by_contra hne
    obtain ⟨hfail, hok⟩ := runCommand_errSeen hne hc
    by_cases he : t.err = .ok
    · rw [hok he, hs] at ht
      cases ht
    · rw [hfail he] at ht
      cases ht
  · rw [hr] at ht
    exact absurd (hs.symm.trans ht) nofun
  · exact absurd (hs.symm.trans ht) nofun

/-! ### STATUS -/

/-- Skipping a whole lower part of a concatenation. -/
theorem extractLsb'_append_of_le {n m start : Nat} (h : m ≤ start) (x : BitVec n) (y : BitVec m) (len : Nat) :
    (x ++ y).extractLsb' start len = x.extractLsb' (start - m) len := by
  refine BitVec.eq_of_getLsbD_eq fun k hk => ?_
  rw [BitVec.getLsbD_extractLsb', BitVec.getLsbD_extractLsb', BitVec.getLsbD_append, if_neg (by omega),
    Nat.sub_add_comm h]

/-- A field inside the lower part of a concatenation. -/
theorem extractLsb'_append_of_add_le {n m start len : Nat} (h : start + len ≤ m) (x : BitVec n) (y : BitVec m) :
    (x ++ y).extractLsb' start len = y.extractLsb' start len := by
  refine BitVec.eq_of_getLsbD_eq fun k hk => ?_
  rw [BitVec.getLsbD_extractLsb', BitVec.getLsbD_extractLsb', BitVec.getLsbD_append, if_pos (by omega)]

/-- The fields of STATUS of more than one bit (10_state.md R24). -/
theorem status_fields (s : State) :
    s.status.extractLsb' 0 4 = s.err.code ∧ s.status.extractLsb' 9 7 = 0 ∧
    s.status.extractLsb' 16 2 = s.rij.shown (sizeCode s.rij.bs) ∧
    s.status.extractLsb' 18 2 = s.rij.shown (sizeCode s.rij.ks) ∧
    s.status.extractLsb' 20 4 = 0 ∧ s.status.extractLsb' 24 8 = s.rij.shown s.rij.m := by
  unfold State.status
  refine ⟨?_, ?_, ?_, ?_, ?_, ?_⟩ <;>
    simp (disch := decide) only [extractLsb'_append_of_le, extractLsb'_append_of_add_le, Nat.reduceSub,
      BitVec.extractLsb'_eq_self]

/-- The single bits of STATUS (10_state.md R24). -/
theorem status_bits (s : State) :
    s.status.getLsbD 4 = s.des.keyed ∧ s.status.getLsbD 5 = s.deal.keyed ∧ s.status.getLsbD 6 = s.rij.keyed ∧
    s.status.getLsbD 7 = false ∧ s.status.getLsbD 8 = s.errSeen := by
  unfold State.status
  simp only [BitVec.getLsbD_append]
  simp

/-! ### Obligations -/

/-- Settles O18: an error sets ERRSEEN, and a success clears it only through the one change of CLRERR. -/
theorem errSeenIsSticky : Obligations.ErrSeenIsSticky := by
  unfold Obligations.ErrSeenIsSticky
  refine ⟨fun s t w h => ?_, fun s t a rest h hs ht => ?_⟩
  · rw [step_pushCommand] at h
    by_cases hw : w = 0x00000002
    · have hclr : runCommand 0x00000002 s = execClrerr s := rfl
      rw [hw, hclr] at h
      cases h
      exact ⟨fun h => absurd rfl h, fun _ h => absurd hw h, fun _ => rfl⟩
    · obtain ⟨hfail, hok⟩ := runCommand_errSeen hw h
      exact ⟨hfail, fun he _ => hok he, fun h => absurd h hw⟩
  · rw [step_facing] at h
    cases a with
    | reset => exact .inl rfl
    | read off w =>
      simp only [runAccess, busRead] at h
      split at h
      · cases h
      · cases h
        exact absurd (hs.symm.trans ht) nofun
    | write32 off v =>
      obtain ⟨hoff, -, hv⟩ := busWrite_errSeen h hs ht
      rw [BitVec.ofNat_toNat, BitVec.setWidth_eq] at hv
      rw [BitVec.eq_of_toNat_eq (x := off) (y := 0x00000) hoff, hv]
      exact .inr rfl
    | write8 off v | write16 off v | write64 off v =>
      obtain ⟨-, hw, -⟩ := busWrite_errSeen h hs ht
      cases hw

/-- Settles O19: an error writes STATUS alone, and a success writes its results and OBUF from offset 0 only. -/
theorem commandsKeepInputs : Obligations.CommandsKeepInputs := by
  unfold Obligations.CommandsKeepInputs
  intro i s t hs h
  rcases exec_next h with ⟨e, -, rfl⟩ | ⟨u, res, out, ⟨hu, hfit⟩, rfl⟩
  · exact ⟨by constructor <;> intros <;> rfl, fun _ => rfl, fun _ _ => rfl⟩
  · have hdone : Completed s (u.completed res out) res out :=
      completed_of_inputs res out (becomes_inputsKept hu) fun a => by rw [becomes_mem hu]
    have hlen : (u.completed res out).outlen.toNat = out.length := by
      have hout := hfit hs
      have hbuf := hs.1.2.1
      simp only [Params.obufBytes] at hout
      rw [hdone.outlen, BitVec.toNat_ofNat, Nat.mod_eq_of_lt (by omega)]
    refine ⟨hdone.kept, fun he => absurd hdone.err he, fun a ha => ?_⟩
    rw [hlen] at ha
    exact hdone.others a ha

/-- Settles O23: of the changes that a success can make, only those of ZEROIZE and the three SETKEY commands reach a
cipher's key state, and an error changes none of it. -/
theorem instancesChangeOnlyBySetkey : Obligations.InstancesChangeOnlyBySetkey := by
  unfold Obligations.InstancesChangeOnlyBySetkey
  intro i s t h
  rcases exec_next h with ⟨e, -, rfl⟩ | ⟨u, res, out, ⟨hu, -⟩, rfl⟩
  · exact ⟨.inl rfl, .inl rfl, .inl rfl⟩
  · rcases becomes_cases hu with ⟨n, rfl⟩ | ⟨hi, rfl⟩ | ⟨hi, rfl⟩ | ⟨hi, key, rfl⟩ | ⟨hi, mk, rfl⟩ |
      ⟨bsc, _, _, _, hi, -, -, -, rfl⟩
    · exact ⟨.inl rfl, .inl rfl, .inl rfl⟩
    · exact ⟨.inr (.inl hi), .inr (.inl hi), .inr (.inl hi)⟩
    · exact ⟨.inl rfl, .inl rfl, .inl rfl⟩
    · exact ⟨.inr (.inr ⟨hi, rfl⟩), .inl rfl, .inl rfl⟩
    · exact ⟨.inl rfl, .inr (.inr ⟨hi, rfl⟩), .inl rfl⟩
    · exact ⟨.inl rfl, .inl rfl, .inr (.inr ⟨⟨bsc, hi⟩, rfl⟩)⟩

/-- Settles O4: offset 0 is CMD, whose write runs the word and whose read is 0. -/
theorem cmdWriteRunsTheCommand : Obligations.CmdWriteRunsTheCommand := by
  unfold Obligations.CmdWriteRunsTheCommand
  intro s w rest
  have hstep : step (s.facing (.write32 0x00000 w) rest) = runCommand w { s with host := rest } :=
    busWrite_register (off := 0) (r := .cmd) rfl w _
  refine ⟨fun i hi => ?_, fun hn => ?_, ?_⟩
  · rw [hstep, runCommand_ok hi]
  · rw [hstep]
    cases hd : decode w with
    | ok i => exact absurd ⟨i, hd⟩ hn
    | error e => exact runCommand_error hd _
  · exact ⟨_, busRead_register (off := 0) (r := .cmd) rfl _, rfl⟩

/-- Settles O9: each of the offsets is that of its register. -/
theorem registersStoreAndReadBack : Obligations.RegistersStoreAndReadBack := by
  unfold Obligations.RegistersStoreAndReadBack
  intro s v rest
  have hwrite : ∀ {off : Offset} {r : HostReg}, regAt off.toNat = some r →
      step (s.facing (.write32 off v) rest) = regWrite r v { s with host := rest } := fun h => busWrite_register h v _
  have hread : ∀ {off : Offset} {r : HostReg}, regAt off.toNat = some r →
      ∃ t, step (s.facing (.read off .w32) rest) = .next t ∧ t.readData = State.regRead { s with host := rest } r ∧
        t = { s with host := rest, readData := t.readData, draws := t.draws } := fun h => ⟨_, busRead_register h _, rfl, rfl⟩
  refine ⟨hwrite (r := .len) rfl, hwrite (r := .klen) rfl, hwrite (r := .ivlen) rfl, hwrite (r := .tlen) rfl,
    hwrite (r := .arg0) rfl, hwrite (r := .arg1) rfl, hwrite (r := .arg2) rfl, ?_⟩
  simp only [List.forall_mem_cons, List.not_mem_nil, false_imp_iff, implies_true, and_true]
  exact ⟨hread (r := .status) rfl, hread (r := .len) rfl, hread (r := .klen) rfl, hread (r := .ivlen) rfl,
    hread (r := .tlen) rfl, hread (r := .arg0) rfl, hread (r := .arg1) rfl, hread (r := .arg2) rfl,
    hread (r := .res) rfl, hread (r := .outlen) rfl⟩

/-- Settles O12: every field of the reset state is a literal; no byte is listed, so none has a value. -/
theorem resetValues : Obligations.ResetValues := by
  unfold Obligations.ResetValues
  refine ⟨by decide, rfl, rfl, rfl, rfl, rfl, rfl, ?_, rfl, rfl, fun _ _ => rfl⟩
  decide +kernel

/-- Settles O15: STATUS is the concatenation of its fields, and each field is read off it. -/
theorem statusLayout : Obligations.StatusLayout := by
  unfold Obligations.StatusLayout
  intro s
  obtain ⟨herr, h9, hbs, hks, h20, hmod⟩ := status_fields s
  obtain ⟨hdes, hdeal, hrij, h7, hseen⟩ := status_bits s
  refine ⟨?_, hdes, hdeal, hrij, h7, hseen, h9, h20, fun hk => ?_, fun hk => ?_⟩
  · rw [herr]
    cases s.err <;> rfl
  · rw [hbs, hks, hmod]
    simp [RijInst.shown, hk]
  · rw [hbs, hks, hmod]
    simp +contextual [RijInst.shown, hk, sizeCode]

end Sys2Proof.Machine
end

section
/-! SUPPORT. What a command answers, said once for all of them by the tables of Safety.lean (`exec_answers`): the first error
of `firstError` where one applies, else a success or a fault as the bytes of `operandRanges` hold values or not
(60_exceptions.md R253, R259). -/

namespace Sys2Proof.Machine

/-! ### The first error -/

section FirstError

variable {i : Instr} {s : State}

theorem firstError_unsupported (h : unsupportedWhen i = true) : firstError i s = some .unsupported := by
  simp [firstError, h]

theorem firstError_notKeyed (hu : unsupportedWhen i = false) (h : notKeyedWhen s i = true) :
    firstError i s = some .notKeyed := by
  simp [firstError, hu, h]

theorem firstError_invalidArg (hu : unsupportedWhen i = false) (hk : notKeyedWhen s i = false)
    (h : invalidArgWhen s i = true) : firstError i s = some .invalidArg := by
  simp [firstError, hu, hk, h]

theorem firstError_reducible (hu : unsupportedWhen i = false) (hk : notKeyedWhen s i = false)
    (ha : invalidArgWhen s i = false) (h : reducibleWhen s i = true) : firstError i s = some .reducible := by
  simp [firstError, hu, hk, ha, h]

theorem firstError_zeroInv (hu : unsupportedWhen i = false) (hk : notKeyedWhen s i = false)
    (ha : invalidArgWhen s i = false) (hr : reducibleWhen s i = false) (h : zeroInvWhen s i = true) :
    firstError i s = some .zeroInv := by
  simp [firstError, hu, hk, ha, hr, h]

theorem firstError_none (hu : unsupportedWhen i = false) (hk : notKeyedWhen s i = false)
    (ha : invalidArgWhen s i = false) (hr : reducibleWhen s i = false) (hz : zeroInvWhen s i = false) :
    firstError i s = none := by
  simp [firstError, hu, hk, ha, hr, hz]

end FirstError

/-! ### Answers, operation by operation -/

/-- `Answers s e ranges r`: a command that runs in `s` answers `r`, where `e` is its first error and `ranges` are the bytes
it reads when there is none. -/
inductive Answers (s : State) : Option ErrCode → List (Buf × Nat) → Result → Prop where
  | raised (e : ErrCode) (ranges : List (Buf × Nat)) : Answers s (some e) ranges (.next (s.raised e))
  | done {ranges : List (Buf × Nat)} {t : State} (ht : t.err = .ok)
      (hall : ∀ p ∈ ranges, s.memRead p.1 0 p.2 ≠ none) : Answers s none ranges (.next t)
  | missing {ranges : List (Buf × Nat)} {f : Fault} (hmiss : ∃ p ∈ ranges, s.memRead p.1 0 p.2 = none) :
      Answers s none ranges (.fault f)

section Rules

variable {s : State} {e : Option ErrCode} {ranges : List (Buf × Nat)}

theorem answers_require {p : Prop} [Decidable p] {c : ErrCode} {go : Result} (hneg : ¬p → e = some c)
    (hpos : p → Answers s e ranges go) : Answers s e ranges (require p c s fun _ => go) := by
  by_cases hp : p
  · rw [require_pos hp]
    exact hpos hp
  · rw [require_neg hp, hneg hp]
    exact .raised c ranges

theorem answers_requireSome {α : Type} {o : Option α} {c : ErrCode} {go : α → Result} (hnone : o = none → e = some c)
    (hsome : ∀ a, o = some a → Answers s e ranges (go a)) : Answers s e ranges (requireSome o c s go) := by
  cases o with
  | none =>
    rw [requireSome_none, hnone rfl]
    exact .raised c ranges
  | some a => exact hsome a rfl

theorem answers_withBytes {b : Buf} {n : Nat} {go : Bytes → Result} (he : e = none)
    (h : ∀ bs, Answers s none ranges (go bs)) : Answers s e ((b, n) :: ranges) (withBytes b n s go) := by
  subst he
  cases hr : s.memRead b 0 n with
  | none =>
    rw [withBytes_none hr]
    exact .missing ⟨(b, n), List.mem_cons_self, hr⟩
  | some bs =>
    rw [withBytes_some hr]
    have hgo := h bs
    generalize go bs = r at hgo
    cases hgo with
    | done ht hall => exact .done ht (List.forall_mem_cons.2 ⟨by simp [hr], hall⟩)
    | missing hmiss =>
      obtain ⟨p, hp, hnone⟩ := hmiss
      exact .missing ⟨p, List.mem_cons_of_mem _ hp, hnone⟩

theorem answers_succeedBytes (he : e = none) (out : Bytes) (u : State) : Answers s e [] (succeedBytes out u) :=
  he ▸ .done rfl nofun

theorem answers_succeedScalar (he : e = none) (res : Word) (u : State) : Answers s e [] (succeedScalar res u) :=
  he ▸ .done rfl nofun

end Rules

/-! ### Operands and selectors, against the tables -/

theorem byteArg_eq_none {r : Word} (h : byteArg r = none) : 0xFF < r.toNat := by
  by_contra hle
  rw [byteArg_of_le (by omega)] at h
  cases h

theorem byteArg_eq_some {r : Word} {b : Byte} (h : byteArg r = some b) : r.toNat ≤ 0xFF ∧ b = r.setWidth 8 := by
  by_cases hle : r.toNat ≤ 0xFF
  · rw [byteArg_of_le hle] at h
    exact ⟨hle, (Option.some.inj h).symm⟩
  · rw [byteArg_of_gt (by omega)] at h
    cases h

/-- A register that holds a byte is 0 exactly when the byte is. -/
theorem setWidth_eq_zero {r : Word} (h : r.toNat ≤ 0xFF) : r.setWidth 8 = (0 : Byte) ↔ r = 0 := by
  rw [← BitVec.toNat_inj, ← BitVec.toNat_inj, BitVec.toNat_setWidth, Nat.mod_eq_of_lt (by omega)]
  rfl

theorem badSize_eq (r : Word) : badSize r = !decide (rijSize r.toNat) := by
  rw [Bool.eq_iff_iff]
  simp [badSize, rijSize, and_assoc]

theorem blockSizeOf_eq_none {c : BitVec 2} : blockSizeOf c = none ↔ c = 3 := by
  revert c; decide

theorem ChainMode.ofCode_eq_none {mode : BitVec 4} : ChainMode.ofCode mode = none ↔ 5 ≤ mode.toNat := by
  revert mode; decide

theorem PadScheme.ofCode_eq_none {padc : BitVec 4} : PadScheme.ofCode padc = none ↔ 4 ≤ padc.toNat := by
  revert padc; decide

theorem CipherSel.ofCode_eq_none {csel : BitVec 2} : CipherSel.ofCode csel = none ↔ csel = 3 := by
  revert csel; decide

/-- Code 0 is ECB, and codes 0 and 1 are the block-structured modes (30_encoding.md R75, 46_modes_padding.md R217). -/
theorem ChainMode.ofCode_eq_some {mode : BitVec 4} {md : ChainMode} (h : ChainMode.ofCode mode = some md) :
    (md = .ecb ↔ mode = 0) ∧ (md.padded = true ↔ mode.toNat ≤ 1) := by
  have hall : ∀ mode : BitVec 4, ∀ md ∈ ChainMode.ofCode mode,
      (md = .ecb ↔ mode = 0) ∧ (md.padded = true ↔ mode.toNat ≤ 1) := by decide
  exact hall mode md h

/-- The selected cipher is the one that CSEL names (46_modes_padding.md R215). -/
theorem selected_eq {csel : BitVec 2} {sel : CipherSel} (h : CipherSel.ofCode csel = some sel) (s : State) :
    selected s csel = ((cipherOf s sel).keyed, (cipherOf s sel).bs) := by
  unfold CipherSel.ofCode at h
  split at h <;> cases h <;> next hc => rw [selected, hc]; rfl

/-! ### The checks of a command, against its first error -/

section Checks

variable {s : State} {i : Instr} {e : Option ErrCode} {ranges : List (Buf × Nat)}

/-- The check that the cipher is keyed (60_exceptions.md R252, E_NOT_KEYED). -/
theorem answers_keyed {b : Bool} {go : Result} (hu : unsupportedWhen i = false) (hk : notKeyedWhen s i = !b)
    (h : notKeyedWhen s i = false → Answers s (firstError i s) ranges go) :
    Answers s (firstError i s) ranges (require (b = true) .notKeyed s fun _ => go) :=
  answers_require (fun hb => firstError_notKeyed hu (by simpa [hk] using hb)) fun hb => h (by simp [hk, hb])

/-- The one argument check of a command without a modulus. -/
theorem answers_args {p : Prop} [Decidable p] {go : Result} (hu : unsupportedWhen i = false)
    (hk : notKeyedWhen s i = false) (ha : invalidArgWhen s i = !decide p) (hr : reducibleWhen s i = false)
    (hz : zeroInvWhen s i = false) (h : firstError i s = none → Answers s (firstError i s) ranges go) :
    Answers s (firstError i s) ranges (require p .invalidArg s fun _ => go) :=
  answers_require (fun hp => firstError_invalidArg hu hk (by simp [ha, hp])) fun hp =>
    h (firstError_none hu hk (by simp [ha, hp]) hr hz)

/-- The check of a byte argument (10_state.md R30). -/
theorem answers_byteArg {r : Word} {go : Byte → Result} (hgt : 0xFF < r.toNat → e = some .invalidArg)
    (hle : r.toNat ≤ 0xFF → Answers s e ranges (go (r.setWidth 8))) :
    Answers s e ranges (requireSome (byteArg r) .invalidArg s go) := by
  refine answers_requireSome (fun hr => hgt (byteArg_eq_none hr)) fun b hb => ?_
  obtain ⟨h, rfl⟩ := byteArg_eq_some hb
  exact hle h

/-- The check of the modulus ARG2 (44_gf256.md R156). -/
theorem answers_modulus {go : Result} (hu : unsupportedWhen i = false) (hk : notKeyedWhen s i = false)
    (ha : invalidArgWhen s i = false) (hr : reducibleWhen s i = !irreducible (s.arg2.setWidth 8))
    (h : reducibleWhen s i = false → Answers s (firstError i s) ranges go) :
    Answers s (firstError i s) ranges (requireIrreducible (s.arg2.setWidth 8) s fun _ => go) :=
  answers_require (fun hm => firstError_reducible hu hk ha (by simp [hr, hm])) fun hm => h (by simp [hr, hm])

/-- The checks of a field element ARG0 and a modulus ARG2 (44_gf256.md R165, 45_rijndael.md R195). -/
theorem answers_elementAndModulus {go : Byte → Byte → Result} (hu : unsupportedWhen i = false)
    (hk : notKeyedWhen s i = false)
    (ha : invalidArgWhen s i = (decide (0xFF < s.arg0.toNat) || decide (0xFF < s.arg2.toNat)))
    (hr : reducibleWhen s i = !irreducible (s.arg2.setWidth 8))
    (h : s.arg0.toNat ≤ 0xFF → invalidArgWhen s i = false → reducibleWhen s i = false →
      Answers s (firstError i s) ranges (go (s.arg0.setWidth 8) (s.arg2.setWidth 8))) :
    Answers s (firstError i s) ranges
      (requireSome (byteArg s.arg0) .invalidArg s fun x => requireSome (byteArg s.arg2) .invalidArg s fun m =>
        requireIrreducible m s fun _ => go x m) := by
  refine answers_byteArg (fun hgt => ?_) fun h0 => answers_byteArg (fun hgt => ?_) fun h2 => ?_
  · exact firstError_invalidArg hu hk (by simp [ha, hgt])
  · exact firstError_invalidArg hu hk (by simp [ha, hgt])
  · have hargs : invalidArgWhen s i = false := by simp [ha, h0, h2]
    exact answers_modulus hu hk hargs hr fun hred => h h0 hargs hred

end Checks

/-! ### The shared checks of a family, for one command of it -/

section Families

variable {s : State}

theorem answers_withRijKey (bsc : BitVec 2) {go : Nat → Byte → Bytes → Result}
    (h : ∀ bs m key, Answers s none [] (go bs m key)) :
    Answers s (firstError (.rijSetKey bsc) s) (operandRanges s (.rijSetKey bsc)) (withRijKey bsc s go) := by
  refine answers_requireSome (fun hb => ?_) fun bs hb => ?_
  · exact firstError_unsupported (by simpa [unsupportedWhen] using blockSizeOf_eq_none.1 hb)
  have hu : unsupportedWhen (.rijSetKey bsc) = false := by
    simp only [unsupportedWhen, decide_eq_false_iff_not, ← blockSizeOf_eq_none, hb]
    nofun
  refine answers_require (fun hk => ?_) fun hk => answers_byteArg (fun hm => ?_) fun hm => ?_
  · exact firstError_invalidArg hu rfl (by simp [invalidArgWhen, badSize_eq, hk])
  · exact firstError_invalidArg hu rfl (by simp [invalidArgWhen, hm])
  have ha : invalidArgWhen s (.rijSetKey bsc) = false := by simp [invalidArgWhen, badSize_eq, hk, hm]
  exact answers_modulus hu rfl ha rfl fun hr =>
    answers_withBytes (firstError_none hu rfl ha hr rfl) fun key => h _ _ key

theorem answers_withRijState {go : Byte → Bytes → Result} (h : ∀ m st, Answers s none [] (go m st)) :
    Answers s (firstError .rijSubBytes s) (operandRanges s .rijSubBytes) (withRijState s go) := by
  refine answers_require (fun hl => ?_) fun hl => answers_byteArg (fun hm => ?_) fun hm => ?_
  · exact firstError_invalidArg rfl rfl (by simp [invalidArgWhen, badSize_eq, hl])
  · exact firstError_invalidArg rfl rfl (by simp [invalidArgWhen, hm])
  have ha : invalidArgWhen s .rijSubBytes = false := by simp [invalidArgWhen, badSize_eq, hl, hm]
  exact answers_modulus rfl rfl ha rfl fun hr =>
    answers_withBytes (firstError_none rfl rfl ha hr rfl) fun st => h _ st

theorem answers_withRijRound {go : Byte → Bytes → Bytes → Result} (h : ∀ m st k, Answers s none [] (go m st k)) :
    Answers s (firstError .rijRound s) (operandRanges s .rijRound) (withRijRound s go) := by
  refine answers_require (fun hl => ?_) fun hl => answers_byteArg (fun hm => ?_) fun hm => ?_
  · refine firstError_invalidArg rfl rfl ?_
    rcases not_and_or.1 hl with hsize | hklen
    · simp [invalidArgWhen, badSize_eq, hsize]
    · simp [invalidArgWhen, hklen]
  · exact firstError_invalidArg rfl rfl (by simp [invalidArgWhen, hm])
  have ha : invalidArgWhen s .rijRound = false := by simp [invalidArgWhen, badSize_eq, hl.1, hl.2, hm]
  exact answers_modulus rfl rfl ha rfl fun hr =>
    answers_withBytes (firstError_none rfl rfl ha hr rfl) fun st => answers_withBytes rfl fun k => h _ st k

theorem answers_withPad (padc : BitVec 4) {go : PadScheme → Nat → Bytes → Result}
    (h : ∀ scheme bs d, Answers s none [] (go scheme bs d)) :
    Answers s (firstError (.pad padc) s) (operandRanges s (.pad padc)) (withPad padc s go) := by
  refine answers_requireSome (fun hp => ?_) fun scheme hp => ?_
  · exact firstError_unsupported (by simpa [unsupportedWhen] using PadScheme.ofCode_eq_none.1 hp)
  have hu : unsupportedWhen (.pad padc) = false := by
    simp only [unsupportedWhen, decide_eq_false_iff_not, ← PadScheme.ofCode_eq_none, hp]
    nofun
  refine answers_args hu rfl ?_ rfl rfl fun he => answers_withBytes he fun d => h _ _ d
  rw [Bool.eq_iff_iff]
  simp [invalidArgWhen]
  omega

/-- The checks of MODE_ENC and MODE_DEC, which differ in the last one only (46_modes_padding.md R234, R235). -/
theorem answers_withMode {i : Instr} {mode padc : BitVec 4} {csel : BitVec 2}
    (hi : i = .modeEnc mode padc csel ∨ i = .modeDec mode padc csel) {lastCheck : ChainMode → BlockCipher → Bool}
    (hlast : ∀ md sel, ChainMode.ofCode mode = some md → CipherSel.ofCode csel = some sel →
      (invalidArgWhen s i = false ↔ s.len.toNat ≤ s.params.bufBytes ∧
        (md = .ecb ∨ s.ivlen.toNat = (cipherOf s sel).bs) ∧ lastCheck md (cipherOf s sel) = true))
    {go : ChainMode → PadScheme → BlockCipher → Bytes → Bytes → Result}
    (h : ∀ md scheme c d iv, Answers s none [] (go md scheme c d iv)) :
    Answers s (firstError i s) (operandRanges s i) (withMode mode padc csel lastCheck s go) := by
  have hunsup : unsupportedWhen i = (decide (5 ≤ mode.toNat) || decide (4 ≤ padc.toNat) || decide (csel = 3)) := by
    rcases hi with rfl | rfl <;> rfl
  have hkeyed : notKeyedWhen s i = !(selected s csel).1 := by rcases hi with rfl | rfl <;> rfl
  have hranges : operandRanges s i =
      (.ibuf, s.len.toNat) :: if mode = 0 then [] else [(.ivbuf, (selected s csel).2)] := by
    rcases hi with rfl | rfl <;> rfl
  have hrest : reducibleWhen s i = false ∧ zeroInvWhen s i = false := by rcases hi with rfl | rfl <;> exact ⟨rfl, rfl⟩
  refine answers_requireSome (fun hm => ?_) fun md hm => answers_requireSome (fun hp => ?_) fun scheme hp =>
    answers_requireSome (fun hc => ?_) fun sel hc => ?_
  · exact firstError_unsupported (by simp [hunsup, ChainMode.ofCode_eq_none.1 hm])
  · exact firstError_unsupported (by simp [hunsup, PadScheme.ofCode_eq_none.1 hp])
  · exact firstError_unsupported (by simp [hunsup, CipherSel.ofCode_eq_none.1 hc])
  have hu : unsupportedWhen i = false := by
    simp only [hunsup, Bool.or_eq_false_iff, decide_eq_false_iff_not, ← ChainMode.ofCode_eq_none,
      ← PadScheme.ofCode_eq_none, ← CipherSel.ofCode_eq_none, hm, hp, hc]
    exact ⟨⟨nofun, nofun⟩, nofun⟩
  rw [selected_eq hc s] at hkeyed hranges
  refine answers_keyed hu hkeyed fun hk => ?_
  have hbad {p : Prop} (hp : ¬p) (himp : invalidArgWhen s i = false → p) : firstError i s = some .invalidArg :=
    firstError_invalidArg hu hk (by simpa using fun ha => hp (himp ha))
  have harg := hlast md sel hm hc
  refine answers_require (fun hp => hbad hp fun ha => (harg.1 ha).1) fun hlen =>
    answers_require (fun hp => hbad hp fun ha => (harg.1 ha).2.1) fun hiv =>
    answers_require (fun hp => hbad hp fun ha => (harg.1 ha).2.2) fun hfin => ?_
  rw [hranges]
  refine answers_withBytes (firstError_none hu hk (harg.2 ⟨hlen, hiv, hfin⟩) hrest.1 hrest.2) fun d => ?_
  by_cases hmd : md = .ecb
  · rw [if_pos ((ChainMode.ofCode_eq_some hm).1.1 hmd), if_pos hmd,
      withBytes_some (bs := []) (Memory.readRange_zero _ _)]
    exact h _ _ _ _ _
  · rw [if_neg fun h0 => hmd ((ChainMode.ofCode_eq_some hm).1.2 h0), if_neg hmd]
    exact answers_withBytes rfl fun iv => h _ _ _ _ iv

end Families

/-! ### Every command -/

theorem execModeEnc_answers (mode padc : BitVec 4) (csel : BitVec 2) (s : State) :
    Answers s (firstError (.modeEnc mode padc csel) s) (operandRanges s (.modeEnc mode padc csel))
      (execModeEnc mode padc csel s) := by
  refine answers_withMode (.inl rfl) (fun md sel hm hc => ?_) fun _ _ _ _ _ => answers_succeedBytes rfl _ _
  obtain ⟨hecb, -⟩ := ChainMode.ofCode_eq_some hm
  simp [invalidArgWhen, selected_eq hc, hecb, or_iff_not_imp_left]

theorem execModeDec_answers (mode padc : BitVec 4) (csel : BitVec 2) (s : State) :
    Answers s (firstError (.modeDec mode padc csel) s) (operandRanges s (.modeDec mode padc csel))
      (execModeDec mode padc csel s) := by
  refine answers_withMode (.inr rfl) (fun md sel hm hc => ?_) fun _ _ _ _ _ => answers_succeedBytes rfl _ _
  obtain ⟨hecb, hpadded⟩ := ChainMode.ofCode_eq_some hm
  have hstream : md.padded = false ↔ ¬mode.toNat ≤ 1 := by rw [← hpadded, Bool.not_eq_true]
  simp [invalidArgWhen, selected_eq hc, hecb, hstream, or_iff_not_imp_left, and_assoc]

theorem execPad_answers (padc : BitVec 4) (s : State) :
    Answers s (firstError (.pad padc) s) (operandRanges s (.pad padc)) (execPad padc s) :=
  answers_withPad padc fun _ _ _ => answers_succeedBytes rfl _ _

/-- What a command answers: its first error, or else a success or a fault as its operand bytes hold values or not. -/
theorem exec_answers (i : Instr) (s : State) : Answers s (firstError i s) (operandRanges s i) (exec i s) := by
  cases i with
  | nop | zeroize | clrerr => exact answers_succeedScalar rfl _ _
  | permute bo ib =>
    refine answers_args rfl rfl ?_ rfl rfl fun he => answers_withBytes he fun _ => answers_withBytes rfl fun _ =>
      answers_succeedBytes rfl _ _
    rw [Bool.eq_iff_iff]
    simp [invalidArgWhen]
  | gfAdd =>
    refine answers_byteArg (fun h => ?_) fun h0 => answers_byteArg (fun h => ?_) fun h1 => answers_succeedScalar ?_ _ _
    · exact firstError_invalidArg rfl rfl (by simp [invalidArgWhen, h])
    · exact firstError_invalidArg rfl rfl (by simp [invalidArgWhen, h])
    · exact firstError_none rfl rfl (by simp [invalidArgWhen, h0, h1]) rfl rfl
  | gfMul =>
    refine answers_byteArg (fun h => ?_) fun h0 => answers_byteArg (fun h => ?_) fun h1 =>
      answers_byteArg (fun h => ?_) fun h2 => ?_
    · exact firstError_invalidArg rfl rfl (by simp [invalidArgWhen, h])
    · exact firstError_invalidArg rfl rfl (by simp [invalidArgWhen, h])
    · exact firstError_invalidArg rfl rfl (by simp [invalidArgWhen, h])
    · have ha : invalidArgWhen s .gfMul = false := by simp [invalidArgWhen, h0, h1, h2]
      exact answers_modulus rfl rfl ha rfl fun hr => answers_succeedScalar (firstError_none rfl rfl ha hr rfl) _ _
  | gfInv =>
    refine answers_elementAndModulus rfl rfl rfl rfl fun h0 ha hr => answers_require (fun hz => ?_) fun hz => ?_
    · rw [ne_eq, not_not, setWidth_eq_zero h0] at hz
      exact firstError_zeroInv rfl rfl ha hr (by simp [zeroInvWhen, hz])
    · rw [ne_eq, setWidth_eq_zero h0] at hz
      exact answers_succeedScalar (firstError_none rfl rfl ha hr (by simpa [zeroInvWhen] using hz)) _ _
  | gfPow | rijSBox | rijInvSBox =>
    exact answers_elementAndModulus rfl rfl rfl rfl fun _ ha hr =>
      answers_succeedScalar (firstError_none rfl rfl ha hr rfl) _ _
  | gfIsIrred =>
    refine answers_byteArg (fun h => ?_) fun h0 => answers_succeedScalar ?_ _ _
    · exact firstError_invalidArg rfl rfl (by simp [invalidArgWhen, h])
    · exact firstError_none rfl rfl (by simp [invalidArgWhen, h0]) rfl rfl
  | gfListIrred => exact .done rfl nofun
  | desSetKey | dealSetKey =>
    exact answers_args rfl rfl (by simp [invalidArgWhen]) rfl rfl fun he => answers_withBytes he fun _ =>
      answers_succeedScalar rfl _ _
  | desKeyGen | dealKeyGen =>
    exact answers_args rfl rfl (by simp [invalidArgWhen]) rfl rfl fun he => answers_withBytes he fun _ =>
      answers_succeedBytes rfl _ _
  | desEnc | desDec | dealEnc | dealDec | rijEnc | rijDec =>
    exact answers_keyed rfl rfl fun hk => answers_args rfl hk (by simp [invalidArgWhen]) rfl rfl fun he =>
      answers_withBytes he fun _ => answers_succeedBytes rfl _ _
  | desRoundF | desRound | dealRoundF | dealRound | rijAddRoundKey =>
    exact answers_args rfl rfl (by simp [invalidArgWhen, badSize_eq]) rfl rfl fun he => answers_withBytes he fun _ =>
      answers_withBytes rfl fun _ => answers_succeedBytes rfl _ _
  | rijShiftRows | rijInvShiftRows =>
    exact answers_args rfl rfl (badSize_eq _) rfl rfl fun he => answers_withBytes he fun _ =>
      answers_succeedBytes rfl _ _
  | rijSetKey bsc => exact answers_withRijKey bsc fun _ _ _ => answers_succeedScalar rfl _ _
  | rijKeyGen bsc => exact answers_withRijKey bsc fun _ _ _ => answers_succeedBytes rfl _ _
  | rijSubBytes | rijInvSubBytes | rijMixColumns | rijInvMixColumns =>
    exact answers_withRijState fun _ _ => answers_succeedBytes rfl _ _
  | rijRound | rijFinalRound => exact answers_withRijRound fun _ _ _ => answers_succeedBytes rfl _ _
  | modeEnc mode padc csel => exact execModeEnc_answers mode padc csel s
  | modeDec mode padc csel => exact execModeDec_answers mode padc csel s
  | pad padc => exact execPad_answers padc s
  | unpad padc => exact answers_withPad padc fun _ _ _ => answers_succeedBytes rfl _ _

/-! ### Bytes without a value -/

/-- In canonical memory a range read fails exactly when one of its bytes holds no value (10_state.md R34). -/
theorem memRead_eq_none {s : State} (hm : s.mem.wf = true) (b : Buf) (n : Nat) :
    s.memRead b 0 n = none ↔ ∃ k < n, s.bufByte b k = none := by
  constructor
  · intro h
    by_contra! hall
    have hsome : s.memRead b 0 n = some ((List.range n).map fun k => (s.bufByte b k).getD 0) := by
      refine (Memory.readRange_eq_some hm).2 ⟨by simp, fun k hk => ?_⟩
      obtain ⟨x, hx⟩ := Option.ne_none_iff_exists'.1 (hall k hk)
      rw [List.getElem?_map, List.getElem?_range hk, Option.map_some, hx]
      exact hx
    rw [h] at hsome
    cases hsome
  · rintro ⟨k, hk, hnone⟩
    by_contra hn
    obtain ⟨bs, hbs⟩ := Option.ne_none_iff_exists'.1 hn
    obtain ⟨hlen, hread⟩ := (Memory.readRange_eq_some hm).1 hbs
    have hbyte : s.bufByte b k = bs[k]? := hread k hk
    rw [hnone, List.getElem?_eq_getElem (by omega)] at hbyte
    cases hbyte

/-! ### Obligations -/

/-- Settles O20: a command's answer is a fault in the one case of `Answers` where its first error is none and a range it
reads has a byte without a value. -/
theorem faultsExactlyOnMissingBytes : Obligations.FaultsExactlyOnMissingBytes := by
  unfold Obligations.FaultsExactlyOnMissingBytes
  intro i s hs
  refine ⟨?_, fun r => exec_not_refused⟩
  simp only [← memRead_eq_none hs.2.1]
  have h := exec_answers i s
  generalize exec i s = r, firstError i s = e, operandRanges s i = ranges at h
  cases h with
  | raised e => exact ⟨fun ⟨_, hf⟩ => (nomatch hf), fun ⟨he, _⟩ => (nomatch he)⟩
  | done ht hall => exact ⟨fun ⟨_, hf⟩ => (nomatch hf), fun ⟨_, p, hp, hnone⟩ => absurd hnone (hall p hp)⟩
  | missing hmiss => exact ⟨fun _ => ⟨rfl, hmiss⟩, fun _ => ⟨_, rfl⟩⟩

end Sys2Proof.Machine
end

section
/-! SUPPORT. The host window (20_memory.md R50 to R58): one rule for each thing that an access can meet, a register, a buffer or
a reserved offset, and the statements about admission and about what writes and reads do. -/

namespace Sys2Proof.Machine

/-! ### An access is a bus write or a bus read -/

theorem runAccess_write {a : HostAccess} {off : Nat} {w : Width} (hp : a.place = some (off, w)) (ha : a.writes = true)
    (s : State) : runAccess a s = busWrite off w a.data.toNat s := by
  cases a with
  | read _ _ | reset => cases ha
  | write8 _ v | write16 _ v | write32 _ v =>
    cases hp
    simp only [runAccess, HostAccess.data, BitVec.toNat_setWidth]
    rw [Nat.mod_eq_of_lt (by omega)]
  | write64 _ v =>
    cases hp
    rfl

theorem runAccess_read {a : HostAccess} {off : Nat} {w : Width} (hp : a.place = some (off, w)) (ha : a.writes = false)
    (s : State) : runAccess a s = busRead off w s := by
  cases a with
  | read _ _ =>
    cases hp
    rfl
  | reset => cases hp
  | _ => cases ha

theorem runAccess_refused {a : HostAccess} {off : Nat} {w : Width} {s : State} {r : Refusal}
    (hp : a.place = some (off, w)) (h : refusalOf s.params off w = some r) : runAccess a s = .refused r := by
  cases ha : a.writes with
  | true => rw [runAccess_write hp ha, busWrite_refused h]
  | false => rw [runAccess_read hp ha, busRead_refused h]

/-! ### What the offset of an access belongs to -/

theorem inRegisters_eq_true {off : Nat} : inRegisters off = true ↔ off < 0x100 := by simp [inRegisters]

theorem inRegisters_eq_false {off : Nat} : inRegisters off = false ↔ 0x100 ≤ off := by simp [inRegisters]

theorem Width.bytes_pos (w : Width) : 1 ≤ w.bytes := by cases w <;> decide

theorem holds_of_bufAt {p : Params} {off : Nat} {b : Buf} (h : bufAt p off = some b) :
    b.base ≤ off ∧ off < b.base + b.size p := by
  have hb : b.holds p off = true := by simpa using List.find?_some h
  simpa [Buf.holds] using hb

theorem le_of_bufAt {p : Params} {off : Nat} {b : Buf} (h : bufAt p off = some b) : 0x100 ≤ off := by
  have hbase : 0x100 ≤ b.base := by cases b <;> decide
  exact hbase.trans (holds_of_bufAt h).1

/-- The buffer of an offset is the one whose range has it (20_memory.md R51). -/
theorem bufAt_eq_some {p : Params} (hp : p.inRange) {off : Nat} {b : Buf} :
    bufAt p off = some b ↔ b.base ≤ off ∧ off < b.base + b.size p := by
  refine ⟨holds_of_bufAt, fun ⟨h1, h2⟩ => ?_⟩
  rw [← Nat.add_sub_cancel' h1]
  exact bufAt_base hp (by omega)

/-- A reserved offset is a register offset without a register or lies outside the buffers (20_memory.md R51). -/
theorem reservedOffset_cases {p : Params} (hp : p.inRange) {off : Nat} (h : reservedOffset p off) :
    (off < 0x100 ∧ regAt off = none) ∨ (0x100 ≤ off ∧ bufAt p off = none) := by
  by_cases hoff : off < 0x100
  · refine .inl ⟨hoff, Option.eq_none_iff_forall_ne_some.2 fun r hr => ?_⟩
    obtain ⟨hle, -⟩ := regAt_eq_some hr
    unfold reservedOffset at h
    omega
  · refine .inr ⟨by omega, Option.eq_none_iff_forall_ne_some.2 fun b hb => ?_⟩
    have hin := holds_of_bufAt hb
    unfold reservedOffset at h
    obtain ⟨_, _, _, _⟩ := hp
    cases b <;> simp only [Buf.base, Buf.size, Params.obufBytes] at hin h <;> omega

/-! ### Admission -/

theorem refusalOf_registers {p : Params} {off : Nat} (h : off < 0x100) (w : Width) :
    refusalOf p off w = if w = .w32 ∧ off % 4 = 0 then none else some .registerAccess := by
  rw [refusalOf, if_pos (inRegisters_eq_true.2 h)]

theorem refusalOf_w64 {p : Params} {off : Nat} (h : 0x100 ≤ off) : refusalOf p off .w64 = some .access64 := by
  rw [refusalOf, if_neg (by simp [inRegisters_eq_false.2 h]), if_pos rfl]

theorem refusalOf_misaligned {p : Params} {off : Nat} {w : Width} (h : 0x100 ≤ off) (hw : w ≠ .w64)
    (ha : off % w.bytes ≠ 0) : refusalOf p off w = some .bufferMisaligned := by
  rw [refusalOf, if_neg (by simp [inRegisters_eq_false.2 h]), if_neg hw, if_pos ha]

/-- An aligned access of at most 32 bits that begins in a buffer is admitted when its last byte is in it too. -/
theorem refusalOf_bufAt {p : Params} {off : Nat} {w : Width} {b : Buf} (hw : w ≠ .w64) (ha : off % w.bytes = 0)
    (hb : bufAt p off = some b) :
    refusalOf p off w = if off + w.bytes ≤ b.base + b.size p then none else some .bufferStraddles := by
  have hlast : b.holds p (off + (w.bytes - 1)) = true ↔ off + w.bytes ≤ b.base + b.size p := by
    have hpos := w.bytes_pos
    have hfirst := (holds_of_bufAt hb).1
    simp only [Buf.holds, Bool.and_eq_true, decide_eq_true_eq]
    omega
  rw [refusalOf, if_neg (by simp [inRegisters_eq_false.2 (le_of_bufAt hb)]), if_neg hw, if_neg (by simpa using ha), hb]
  exact if_congr hlast rfl rfl

theorem refusalOf_no_buffer {p : Params} {off : Nat} {w : Width} (h : 0x100 ≤ off) (hw : w ≠ .w64)
    (ha : off % w.bytes = 0) (hb : bufAt p off = none) : refusalOf p off w = none := by
  rw [refusalOf, if_neg (by simp [inRegisters_eq_false.2 h]), if_neg hw, if_neg (by simpa using ha), hb]

/-! ### Admitted writes -/

/-- A write of a register's offset writes the low 32 bits of its value to the register. -/
theorem busWrite_regAt {off : Nat} {r : HostReg} (h : regAt off = some r) (v : Nat) (s : State) :
    busWrite off .w32 v s = regWrite r (BitVec.ofNat 32 v) s := by
  simp only [busWrite, refusalOf_register h, inRegisters_of_regAt h, h, if_true]

/-- A write of a reserved offset is ignored (20_memory.md R54). -/
theorem busWrite_reserved {s : State} (hp : s.params.inRange) {off : Nat} {w : Width} (h : refusalOf s.params off w = none)
    (hr : reservedOffset s.params off) (v : Nat) : busWrite off w v s = .next s := by
  rcases reservedOffset_cases hp hr with ⟨hin, hreg⟩ | ⟨hin, hbuf⟩
  · simp only [busWrite, h, inRegisters_eq_true.2 hin, hreg, if_true]
  · simp only [busWrite, h, inRegisters_eq_false.2 hin, hbuf, Bool.false_eq_true, if_false]

/-- A write outside the registers stores its bytes in a buffer that the host may write, and is ignored elsewhere. -/
theorem busWrite_outside {s : State} {off : Nat} {w : Width} (h : refusalOf s.params off w = none) (hoff : 0x100 ≤ off)
    (v : Nat) : busWrite off w v s = .next s ∨
      ∃ b, bufAt s.params off = some b ∧ b.hostWritable = true ∧
        busWrite off w v s = .next { s with mem := s.mem.writeRange off (bytesLE v w.bytes) } := by
  simp only [busWrite, h, inRegisters_eq_false.2 hoff, Bool.false_eq_true, if_false]
  split
  · next b hb =>
    split
    · next hw => exact .inr ⟨b, hb, hw, rfl⟩
    · exact .inl rfl
  · exact .inl rfl

/-- A write of OBUF is ignored (10_state.md R33, 20_memory.md R54). -/
theorem busWrite_obuf {s : State} {off : Nat} {w : Width} (h : refusalOf s.params off w = none)
    (hb : bufAt s.params off = some .obuf) (v : Nat) : busWrite off w v s = .next s := by
  rcases busWrite_outside h (le_of_bufAt hb) v with hs | ⟨b, hb', hw, -⟩
  · exact hs
  · rw [hb] at hb'
    cases hb'
    cases hw

theorem runCommand_not_refused {word : Word} {s : State} {r : Refusal} : runCommand word s ≠ .refused r := by
  cases hd : decode word with
  | ok i =>
    rw [runCommand_ok hd]
    exact exec_not_refused
  | error e =>
    rw [runCommand_error hd]
    nofun

/-- An admitted write is never refused: at most it runs a command, and no command is. -/
theorem busWrite_not_refused {s : State} {off : Nat} {w : Width} (h : refusalOf s.params off w = none) (v : Nat)
    (r : Refusal) : busWrite off w v s ≠ .refused r := by
  by_cases hoff : off < 0x100
  · simp only [busWrite, h, inRegisters_eq_true.2 hoff, if_true]
    split
    · next reg _ =>
      cases reg with
      | cmd =>
        exact runCommand_not_refused
      | _ => nofun
    · nofun
  · rcases busWrite_outside h (by omega) v with hs | ⟨b, -, -, hs⟩ <;> rw [hs] <;> nofun

/-! ### Reads -/

/-- A read changes nothing but the model's own two fields (20_memory.md R58). -/
theorem busRead_next {off : Nat} {w : Width} {s t : State} (h : busRead off w s = .next t) :
    t = { s with readData := t.readData, draws := t.draws } := by
  cases hr : refusalOf s.params off w with
  | some r =>
    rw [busRead_refused hr] at h
    cases h
  | none =>
    rw [busRead_admitted hr] at h
    cases h
    rfl

/-- A reserved offset reads 0 (20_memory.md R54). -/
theorem busValue_reserved {s : State} (hp : s.params.inRange) {off : Nat} (hr : reservedOffset s.params off) (w : Width) :
    s.busValue off w = 0 := by
  rcases reservedOffset_cases hp hr with ⟨hin, hreg⟩ | ⟨hin, hbuf⟩
  · simp only [State.busValue, inRegisters_eq_true.2 hin, hreg, if_true]
  · simp only [State.busValue, inRegisters_eq_false.2 hin, hbuf, Bool.false_eq_true, if_false]

/-! ### Admitted accesses -/

theorem runAccess_not_refused {a : HostAccess} {off : Nat} {w : Width} {s : State} (hp : a.place = some (off, w))
    (h : refusalOf s.params off w = none) (r : Refusal) : runAccess a s ≠ .refused r := by
  cases ha : a.writes with
  | true =>
    rw [runAccess_write hp ha]
    exact busWrite_not_refused h _ r
  | false =>
    rw [runAccess_read hp ha, busRead_admitted h]
    nofun

/-- An admitted access outside the registers runs no command, so it has its transition. -/
theorem runAccess_next_outside {a : HostAccess} {off : Nat} {w : Width} {s : State} (hp : a.place = some (off, w))
    (hoff : 0x100 ≤ off) (h : refusalOf s.params off w = none) : ∃ t, runAccess a s = .next t := by
  cases ha : a.writes with
  | true =>
    rw [runAccess_write hp ha]
    rcases busWrite_outside h hoff a.data.toNat with hs | ⟨_, _, _, hs⟩ <;> exact ⟨_, hs⟩
  | false => exact ⟨_, (runAccess_read hp ha s).trans (busRead_admitted h)⟩

/-! ### Bytes of a value -/

/-- Byte `j` of a word, from its low end. -/
theorem extractLsb'_byte {n : Nat} (x : BitVec n) (j : Nat) :
    x.extractLsb' (8 * j) 8 = BitVec.ofNat 8 (x.toNat / 256 ^ j) := by
  rw [BitVec.extractLsb', Nat.shiftRight_eq_div_pow, Nat.pow_mul]

/-! ### Accesses inside a buffer -/

/-- A write of a host-writable buffer stores the bytes of its value, the lowest one first, and nothing else (20_memory.md
R53, R56). -/
theorem busWrite_stores {s : State} (hp : s.params.inRange) {b : Buf} (hb : b ≠ .obuf) {k : Nat} {w : Width}
    (hw : w ≠ .w64) (ha : k % w.bytes = 0) (hk : k + w.bytes ≤ b.size s.params) (v : Nat) :
    ∃ t, busWrite (b.base + k) w v s = .next t ∧ t = { s with mem := t.mem } ∧
      (∀ j < w.bytes, t.bufByte b (k + j) = some (BitVec.ofNat 8 (v / 256 ^ j))) ∧
      ∀ o, o < b.base + k ∨ b.base + k + w.bytes ≤ o → t.mem.read o = s.mem.read o := by
  refine ⟨_, busWrite_buffer hp hb hw ha hk v, rfl, fun j hj => ?_, fun o ho => ?_⟩
  · rw [State.bufByte, ← Nat.add_assoc, Memory.read_writeRange_inside (by rwa [length_bytesLE]), getElem?_bytesLE hj]
  · exact Memory.read_writeRange_outside (by rwa [length_bytesLE])

theorem leNat_readCells_lt (m : Memory) (k off n : Nat) : leNat (readCells m k off n) < 2 ^ (8 * n) := by
  have hlt := leNat_lt (readCells m k off n)
  rwa [length_readCells, show (256 : Nat) = 2 ^ 8 from rfl, ← Nat.pow_mul] at hlt

/-- At most 32 bits are read, so no byte is cut off. -/
theorem busValue_toNat {s : State} (hp : s.params.inRange) {b : Buf} {k : Nat} {w : Width} (hw : w ≠ .w64)
    (hk : k < b.size s.params) :
    (s.busValue (b.base + k) w).toNat = leNat (readCells s.mem s.draws (b.base + k) w.bytes) := by
  have hle : 2 ^ (8 * w.bytes) ≤ 2 ^ 32 := by
    refine Nat.pow_le_pow_right (by decide) ?_
    cases w with
    | w64 => exact absurd rfl hw
    | _ => decide
  rw [busValue_buffer hp w hk, BitVec.toNat_ofNat, Nat.mod_eq_of_lt ((leNat_readCells_lt ..).trans_le hle)]

/-- What a read of a buffer returns fits the width of the access (20_memory.md R53). -/
theorem busValue_lt {s : State} (hp : s.params.inRange) {b : Buf} {k : Nat} {w : Width} (hw : w ≠ .w64)
    (hk : k < b.size s.params) : (s.busValue (b.base + k) w).toNat < 2 ^ (8 * w.bytes) := by
  rw [busValue_toNat hp hw hk]
  exact leNat_readCells_lt ..

/-- A read of a buffer returns every byte that holds a value in its place (20_memory.md R53). -/
theorem busValue_byte {s : State} (hp : s.params.inRange) {b : Buf} {k : Nat} {w : Width} (hw : w ≠ .w64)
    (hk : k < b.size s.params) {j : Nat} (hj : j < w.bytes) {x : Byte} (hx : s.bufByte b (k + j) = some x) :
    (s.busValue (b.base + k) w).extractLsb' (8 * j) 8 = x := by
  have hcell : (readCells s.mem s.draws (b.base + k) w.bytes)[j]? = some x := by
    rw [State.bufByte, ← Nat.add_assoc] at hx
    rw [getElem?_readCells hj, hx, Option.getD_some]
  rw [extractLsb'_byte, busValue_toNat hp hw hk]
  exact BitVec.eq_of_toNat_eq ((BitVec.toNat_ofNat _ _).trans (leNat_byte hcell))

/-! ### Host accesses and results -/

/-- The bytes of an access that begins in a buffer which is not OBUF do not reach OBUF (20_memory.md R51, R53). -/
theorem not_in_access_of_obuf {p : Params} (hp : p.inRange) {off : Nat} {w : Width} {b : Buf}
    (hadm : refusalOf p off w = none) (hb : bufAt p off = some b) (hne : b ≠ .obuf) {k : Nat}
    (hk : k < p.obufBytes) : Buf.obuf.base + k < off ∨ off + w.bytes ≤ Buf.obuf.base + k := by
  by_contra hin
  have hholds := holds_of_admitted hadm (inRegisters_eq_false.2 (le_of_bufAt hb)) hb (a := Buf.obuf.base + k)
    (by omega) (by omega)
  rw [holds_base hp (b := .obuf) hk, decide_eq_true_eq] at hholds
  exact hne hholds

/-- ERR, ERRSEEN, RES, OUTLEN, the instances and the bytes of OBUF in `t` are those in `s`. -/
structure ResultsKept (s t : State) : Prop where
  err     : t.err = s.err
  errSeen : t.errSeen = s.errSeen
  res     : t.res = s.res
  outlen  : t.outlen = s.outlen
  des     : t.des = s.des
  deal    : t.deal = s.deal
  rij     : t.rij = s.rij
  obuf    : ∀ k < s.params.obufBytes, t.bufByte .obuf k = s.bufByte .obuf k

theorem ResultsKept.refl (s : State) : ResultsKept s s := by constructor <;> intros <;> rfl

/-- A host write that is not a write of CMD stores registers or bytes outside OBUF (10_state.md R33, R38). -/
theorem busWrite_keeps_results {s t : State} (hp : s.params.inRange) {off v : Nat} {w : Width}
    (hcmd : ¬(off = 0 ∧ w = .w32)) (h : busWrite off w v s = .next t) : ResultsKept s t := by
  have hadm := admitted_of_busWrite_next h
  by_cases hobuf : bufAt s.params off = some .obuf
  · rw [busWrite_obuf hadm hobuf] at h
    cases h
    exact .refl s
  rcases busWrite_next h with ⟨hoff, hw, -⟩ | hr | ⟨hin, rfl⟩
  · exact absurd ⟨hoff, hw⟩ hcmd
  · rw [hr]
    constructor <;> intros <;> rfl
  · refine ⟨rfl, rfl, rfl, rfl, rfl, rfl, rfl, fun k hk => Memory.read_writeRange_outside ?_⟩
    obtain ⟨b, hb⟩ := Option.isSome_iff_exists.1 (hin off le_rfl (Nat.lt_add_of_pos_right w.bytes_pos))
    rw [length_bytesLE]
    exact not_in_access_of_obuf hp hadm hb (fun he => hobuf (he ▸ hb)) hk

/-- Every host access but reset and a 32-bit write of CMD keeps the results. -/
theorem runAccess_keeps_results {a : HostAccess} {s t : State} (hp : s.params.inRange) (hreset : a ≠ .reset)
    (hcmd : ∀ v, a ≠ .write32 0x00000 v) (h : runAccess a s = .next t) : ResultsKept s t := by
  cases a with
  | reset => exact absurd rfl hreset
  | read off w =>
    rw [busRead_next h]
    constructor <;> intros <;> rfl
  | write32 off v =>
    refine busWrite_keeps_results hp (fun ⟨hoff, _⟩ => hcmd v ?_) h
    rw [BitVec.eq_of_toNat_eq (x := off) (y := 0x00000) hoff]
  | write8 off v | write16 off v | write64 off v =>
    refine busWrite_keeps_results hp (fun ⟨_, hw⟩ => ?_) h
    cases hw

/-! ### Obligations -/

/-- Settles O5: below 0x100 admission asks for a 32-bit width and alignment, and an admitted access is never refused. -/
theorem registerAccessAdmission : Obligations.RegisterAccessAdmission := by
  unfold Obligations.RegisterAccessAdmission
  intro s a rest off w hp hoff
  have hadm := refusalOf_registers (p := s.params) hoff w
  rw [step_facing]
  refine ⟨fun hbad => ?_, fun hw ha r => ?_⟩
  · rw [if_neg (not_and_or.2 hbad)] at hadm
    exact runAccess_refused hp hadm
  · rw [if_pos ⟨hw, ha⟩] at hadm
    exact runAccess_not_refused (s := { s with host := rest }) hp hadm r

/-- Settles O6: outside the registers the width, then the alignment, then the end of the buffer decide. -/
theorem bufferAccessAdmission : Obligations.BufferAccessAdmission := by
  unfold Obligations.BufferAccessAdmission
  intro s a rest off w hrange hp hoff
  rw [step_facing]
  refine ⟨fun hw => ?_, fun hw ha => ?_, fun hw ha ⟨b, h1, h2, hend⟩ => ?_, fun hw ha hend => ?_⟩
  · subst hw
    exact runAccess_refused hp (refusalOf_w64 hoff)
  · exact runAccess_refused hp (refusalOf_misaligned hoff hw ha)
  · refine runAccess_refused hp ?_
    exact (refusalOf_bufAt hw ha ((bufAt_eq_some hrange).2 ⟨h1, h2⟩)).trans (if_neg (by omega))
  · refine runAccess_next_outside hp hoff ?_
    cases hb : bufAt s.params off with
    | none => exact refusalOf_no_buffer hoff hw ha hb
    | some b =>
      obtain ⟨h1, h2⟩ := holds_of_bufAt hb
      exact (refusalOf_bufAt hw ha hb).trans (if_pos (hend b h1 h2))

/-- Settles O7: the bytes of the value are written from the offset on, and read back from there in the same order. -/
theorem bufferAccessesLittleEndian : Obligations.BufferAccessesLittleEndian := by
  unfold Obligations.BufferAccessesLittleEndian
  intro s a rest b k w hrange hw ha hend hp
  rw [step_facing]
  refine ⟨fun hwr hb => ?_, fun hrd => ?_⟩
  · obtain ⟨t, ht, hframe, hbytes, hother⟩ :=
      busWrite_stores (s := { s with host := rest }) hrange hb hw ha hend a.data.toNat
    rw [runAccess_write hp hwr]
    exact ⟨t, ht, hframe, fun j hj => (hbytes j hj).trans (by rw [extractLsb'_byte]), hother⟩
  · have hk : k < b.size s.params := (Nat.lt_add_of_pos_right w.bytes_pos).trans_le hend
    rw [runAccess_read hp hrd, busRead_admitted (s := { s with host := rest }) (refusalOf_buffer hrange hw ha hend)]
    exact ⟨_, rfl, rfl, busValue_lt (s := { s with host := rest }) hrange hw hk, fun j hj x hx =>
      busValue_byte (s := { s with host := rest }) hrange hw hk hj hx⟩

/-- Settles O8: a reserved offset has neither a register nor a buffer; OBUF and the read-only registers ignore writes. -/
theorem reservedAndReadOnlyAccesses : Obligations.ReservedAndReadOnlyAccesses := by
  unfold Obligations.ReservedAndReadOnlyAccesses
  intro s a rest off w hrange hp hadm
  rw [step_facing]
  refine ⟨fun hwr hoff => ?_, fun hrd hoff => ?_⟩
  · refine (runAccess_write hp hwr _).trans ?_
    rcases hoff with hres | hobuf | hstatus | hres | houtlen
    · exact busWrite_reserved (s := { s with host := rest }) hrange hadm hres _
    · exact busWrite_obuf (s := { s with host := rest }) hadm ((bufAt_eq_some (b := .obuf) hrange).2 hobuf) _
    · subst hstatus
      rw [width_of_admitted hadm rfl, busWrite_regAt (r := .status) rfl, regWrite]
    · subst hres
      rw [width_of_admitted hadm rfl, busWrite_regAt (r := .res) rfl, regWrite]
    · subst houtlen
      rw [width_of_admitted hadm rfl, busWrite_regAt (r := .outlen) rfl, regWrite]
  · exact ⟨_, (runAccess_read hp hrd _).trans (busRead_admitted hadm), busValue_reserved hrange hoff w⟩

/-- Settles O10: a write of anything but CMD stores registers or bytes of the other buffers, and a read stores nothing. -/
theorem onlyCmdAndResetChangeResults : Obligations.OnlyCmdAndResetChangeResults := by
  unfold Obligations.OnlyCmdAndResetChangeResults
  refine ⟨fun s t a rest hrange hreset hcmd h => ?_, fun s t off w rest h => ?_, fun s h => step_idle h⟩
  · rw [step_facing] at h
    obtain ⟨herr, hseen, hres, houtlen, hdes, hdeal, hrij, hobuf⟩ :=
      runAccess_keeps_results (s := { s with host := rest }) hrange hreset hcmd h
    exact ⟨herr, hseen, hres, houtlen, ⟨hdes, hdeal, hrij⟩, hobuf⟩
  · rw [step_facing] at h
    exact busRead_next h

end Sys2Proof.Machine
end

section
/-! SUPPORT. What a command answers in two states that differ in memory alone (20_memory.md R65): the same, as soon as the two
memories give the command's operand ranges the same bytes, or the same lack of values. -/

namespace Sys2Proof.Machine

/-! ### One outcome in two memories -/

/-- The state with other buffer contents. -/
def State.withMemory (s : State) (m : Memory) : State := { s with mem := m }

/-- The ciphers do not depend on the buffers (46_modes_padding.md R215). -/
@[simp] theorem cipherOf_withMemory (s : State) (m : Memory) (sel : CipherSel) :
    cipherOf (s.withMemory m) sel = cipherOf s sel := by
  cases sel <;> rfl

/-- `SameOutcome s m r r'`: `r` in the state `s` and `r'` in `s` with memory `m` are one outcome of a command, whose success
writes the same output over either memory. -/
inductive SameOutcome (s : State) (m : Memory) : Result → Result → Prop where
  | raised {e : ErrCode} (he : e ≠ .ok) :
      SameOutcome s m (.next (s.raised e)) (.next ((s.withMemory m).raised e))
  | success {u : State} (hu : u.mem = s.mem) (res : Word) (out : Bytes) :
      SameOutcome s m (.next (u.completed res out)) (.next ((u.withMemory m).completed res out))
  | fault (f : Fault) : SameOutcome s m (.fault f) (.fault f)

/-- The outcomes are one when the two memories agree on `ranges`, the bytes still to be read. -/
def Alike (s : State) (m : Memory) (ranges : List (Buf × Nat)) (r r' : Result) : Prop :=
  (∀ p ∈ ranges, (s.withMemory m).memRead p.1 0 p.2 = s.memRead p.1 0 p.2) → SameOutcome s m r r'

section Rules

variable {s : State} {m : Memory} {ranges : List (Buf × Nat)}

theorem alike_require {p : Prop} [Decidable p] {c : ErrCode} {go go' : Result} (h : Alike s m ranges go go')
    (hc : c ≠ .ok := by decide) :
    Alike s m ranges (require p c s fun _ => go) (require p c (s.withMemory m) fun _ => go') := by
  by_cases hp : p
  · rw [require_pos hp, require_pos hp]
    exact h
  · rw [require_neg hp, require_neg hp]
    exact fun _ => .raised hc

theorem alike_requireSome {α : Type} {o : Option α} {c : ErrCode} {go go' : α → Result}
    (h : ∀ a, o = some a → Alike s m ranges (go a) (go' a)) (hc : c ≠ .ok := by decide) :
    Alike s m ranges (requireSome o c s go) (requireSome o c (s.withMemory m) go') := by
  cases o with
  | none => exact fun _ => .raised hc
  | some a => exact h a rfl

/-- The bytes, or their lack of values, are the same in both memories. -/
theorem alike_withBytes {b : Buf} {n : Nat} {go go' : Bytes → Result} (h : ∀ bs, Alike s m ranges (go bs) (go' bs)) :
    Alike s m ((b, n) :: ranges) (withBytes b n s go) (withBytes b n (s.withMemory m) go') := by
  intro hread
  obtain ⟨hfirst, hrest⟩ := List.forall_mem_cons.1 hread
  cases hr : s.memRead b 0 n with
  | none =>
    rw [withBytes_none hr, withBytes_none (hfirst.trans hr)]
    exact .fault _
  | some bs =>
    rw [withBytes_some hr, withBytes_some (hfirst.trans hr)]
    exact h bs hrest

/-- A read of no bytes names none. -/
theorem alike_withBytes_zero {b : Buf} {go go' : Bytes → Result} (h : Alike s m ranges (go []) (go' [])) :
    Alike s m ranges (withBytes b 0 s go) (withBytes b 0 (s.withMemory m) go') := by
  rw [withBytes_some (Memory.readRange_zero _ _), withBytes_some (Memory.readRange_zero _ _)]
  exact h

/-- A success writes the same result and output over either memory; it starts from a state with the memory untouched. -/
theorem alike_success {u : State} (res : Word) (out : Bytes) (hu : u.mem = s.mem := by rfl) :
    Alike s m ranges (.next (u.completed res out)) (.next ((u.withMemory m).completed res out)) :=
  fun _ => .success hu res out

/-- The checks and reads of MODE_ENC and MODE_DEC: the IV is read, and named, in every mode but ECB (46_modes_padding.md
R228). -/
theorem alike_withMode {mode padc : BitVec 4} {csel : BitVec 2} {lastCheck : ChainMode → BlockCipher → Bool}
    {go go' : ChainMode → PadScheme → BlockCipher → Bytes → Bytes → Result}
    (h : ∀ md scheme sel d iv,
      Alike s m [] (go md scheme (cipherOf s sel) d iv) (go' md scheme (cipherOf s sel) d iv)) :
    Alike s m ((.ibuf, s.len.toNat) :: if mode = 0 then [] else [(.ivbuf, (selected s csel).2)])
      (withMode mode padc csel lastCheck s go) (withMode mode padc csel lastCheck (s.withMemory m) go') := by
  refine alike_requireSome fun md hm => alike_requireSome fun scheme _ => alike_requireSome fun sel hc => ?_
  rw [cipherOf_withMemory, selected_eq hc]
  refine alike_require <| alike_require <| alike_require <| alike_require <| alike_withBytes fun d => ?_
  obtain ⟨hecb, -⟩ := ChainMode.ofCode_eq_some hm
  by_cases hmd : md = .ecb
  · rw [if_pos (hecb.1 hmd), if_pos hmd]
    exact alike_withBytes_zero (h md scheme sel d [])
  · rw [if_neg fun h0 => hmd (hecb.2 h0), if_neg hmd]
    exact alike_withBytes fun iv => h md scheme sel d iv

end Rules

/-! ### Every command -/

theorem execModeEnc_alike (mode padc : BitVec 4) (csel : BitVec 2) (s : State) (m : Memory) :
    Alike s m (operandRanges s (.modeEnc mode padc csel)) (execModeEnc mode padc csel s)
      (execModeEnc mode padc csel (s.withMemory m)) :=
  alike_withMode fun _ _ _ _ _ => alike_success _ _

theorem execModeDec_alike (mode padc : BitVec 4) (csel : BitVec 2) (s : State) (m : Memory) :
    Alike s m (operandRanges s (.modeDec mode padc csel)) (execModeDec mode padc csel s)
      (execModeDec mode padc csel (s.withMemory m)) :=
  alike_withMode fun _ _ _ _ _ => alike_success _ _

/-- A command has one outcome in two memories that agree on its operand ranges. -/
theorem exec_alike (i : Instr) (s : State) (m : Memory) :
    Alike s m (operandRanges s i) (exec i s) (exec i (s.withMemory m)) := by
  cases i with
  | nop | zeroize | clrerr | gfListIrred => exact alike_success _ _
  | gfAdd => exact alike_requireSome fun _ _ => alike_requireSome fun _ _ => alike_success _ _
  | gfMul =>
    exact alike_requireSome fun _ _ => alike_requireSome fun _ _ => alike_requireSome fun _ _ =>
      alike_require <| alike_success _ _
  | gfInv =>
    exact alike_requireSome fun _ _ => alike_requireSome fun _ _ => alike_require <| alike_require <|
      alike_success _ _
  | gfPow | rijSBox | rijInvSBox =>
    exact alike_requireSome fun _ _ => alike_requireSome fun _ _ => alike_require <| alike_success _ _
  | gfIsIrred => exact alike_requireSome fun _ _ => alike_success _ _
  | desSetKey | dealSetKey | desKeyGen | dealKeyGen | rijShiftRows | rijInvShiftRows =>
    exact alike_require <| alike_withBytes fun _ => alike_success _ _
  | desEnc | desDec | dealEnc | dealDec | rijEnc | rijDec =>
    exact alike_require <| alike_require <| alike_withBytes fun _ => alike_success _ _
  | permute _ _ | desRoundF | desRound | dealRoundF | dealRound | rijAddRoundKey =>
    exact alike_require <| alike_withBytes fun _ => alike_withBytes fun _ => alike_success _ _
  | rijSetKey _ | rijKeyGen _ =>
    exact alike_requireSome fun _ _ => alike_require <| alike_requireSome fun _ _ => alike_require <|
      alike_withBytes fun _ => alike_success _ _
  | rijSubBytes | rijInvSubBytes | rijMixColumns | rijInvMixColumns =>
    exact alike_require <| alike_requireSome fun _ _ => alike_require <| alike_withBytes fun _ =>
      alike_success _ _
  | rijRound | rijFinalRound =>
    exact alike_require <| alike_requireSome fun _ _ => alike_require <| alike_withBytes fun _ =>
      alike_withBytes fun _ => alike_success _ _
  | modeEnc mode padc csel => exact execModeEnc_alike mode padc csel s m
  | modeDec mode padc csel => exact execModeDec_alike mode padc csel s m
  | pad _ | unpad _ =>
    exact alike_requireSome fun _ _ => alike_require <| alike_withBytes fun _ => alike_success _ _

/-! ### The bytes of two memories -/

/-- Range reads of two canonical memories with the same bytes in the range are the same. -/
theorem Memory.readRange_congr {m m' : Memory} (hm : m.wf = true) (hm' : m'.wf = true) {base n : Nat}
    (h : ∀ k < n, m'.read (base + k) = m.read (base + k)) : m'.readRange base n = m.readRange base n := by
  refine Option.ext fun bs => ?_
  rw [Memory.readRange_eq_some hm, Memory.readRange_eq_some hm']
  exact and_congr_right fun _ => forall₂_congr fun k hk => by rw [h k hk]

/-- A success writes one output over both memories: its bytes agree, and elsewhere each keeps its own. -/
theorem read_completed_congr {u : State} {m : Memory} (res : Word) (out : Bytes) {a : Nat}
    (h : (Buf.obuf.base ≤ a ∧ a < Buf.obuf.base + out.length) ∨ m.read a = u.mem.read a) :
    ((u.withMemory m).completed res out).mem.read a = (u.completed res out).mem.read a := by
  rw [State.completed_mem, State.completed_mem, Memory.read_writeRange, Memory.read_writeRange]
  split
  · rfl
  · next hout => exact h.resolve_left hout

/-! ### Obligations -/

/-- Settles O21: with the same bytes in its operand ranges a command has one outcome in both states, and its success writes
the same output over both memories. -/
theorem otherBytesNeverMatter : Obligations.OtherBytesNeverMatter := by
  unfold Obligations.OtherBytesNeverMatter
  intro i s m ⟨_, hwf, _⟩ ⟨_, hwf', _⟩ hbytes
  have hsame : SameOutcome s m (exec i s) (exec i { s with mem := m }) := exec_alike i s m fun p hp =>
    Memory.readRange_congr hwf hwf' (hbytes p hp)
  generalize exec i s = r, exec i { s with mem := m } = r' at hsame
  cases hsame with
  | fault f => exact ⟨fun _ h => h, nofun⟩
  | raised he =>
    refine ⟨nofun, ?_⟩
    rintro t ⟨⟩
    exact ⟨_, rfl, rfl, fun hok => absurd hok he, fun _ ha => ha⟩
  | success hu res out =>
    refine ⟨nofun, ?_⟩
    rintro t ⟨⟩
    refine ⟨_, rfl, rfl, fun _ k hk => ?_, fun a ha => read_completed_congr res out (.inr (by rw [ha, hu]))⟩
    have hlen : k < out.length := hk.trans_le (by
      rw [State.completed_outlen, BitVec.toNat_ofNat]
      exact Nat.mod_le _ _)
    exact read_completed_congr res out (.inl ⟨by omega, by omega⟩)

end Sys2Proof.Machine
end

section
/-! SUPPORT. The command word (30_encoding.md R71, R78 to R81, R85): a word decodes exactly when the bits outside the used
fields of some row of the opcode map are that row's opcode, and encoding is the inverse of decoding. -/

namespace Sys2Proof

open Machine

/-! ### The fields of an assembled word (30_encoding.md R85) -/

section Fields

variable (opc : Byte) (bo ib : BitVec 1) (bs : BitVec 2) (mode padc : BitVec 4) (csel : BitVec 2)

/-- Assembling loses no selector field, and no field reaches into another. -/
theorem fields_assemble : let w := assemble opc bo ib bs mode padc csel
    fieldBO w = bo ∧ fieldIB w = ib ∧ fieldBS w = bs ∧ fieldMODE w = mode ∧ fieldPAD w = padc ∧ fieldCSEL w = csel := by
  refine ⟨?_, ?_, ?_, ?_, ?_, ?_⟩
  all_goals
    ext k hk
    simp only [fieldBO, fieldIB, fieldBS, fieldMODE, fieldPAD, fieldCSEL, assemble, BitVec.getElem_extractLsb',
      BitVec.getLsbD_or, BitVec.getLsbD_shiftLeft, BitVec.getLsbD_setWidth]
    grind

end Fields

/-! ### Words and masks -/

@[simp] theorem fieldOPC_setWidth (opc : Byte) : fieldOPC (opc.setWidth 32) = opc := by
  ext k hk
  simp only [fieldOPC, BitVec.getElem_extractLsb', BitVec.getLsbD_setWidth]
  grind

/-- The bits of a word under a field's mask are the field, shifted to its place. -/
theorem and_fieldMask (w : Word) (k n : Nat) :
    w &&& (BitVec.allOnes n).setWidth 32 <<< k = (w.extractLsb' k n).setWidth 32 <<< k := by
  ext j hj
  simp only [BitVec.getElem_and, BitVec.getElem_shiftLeft, BitVec.getElem_setWidth, BitVec.getLsbD_allOnes,
    BitVec.getLsbD_extractLsb']
  grind

theorem and_bitsBO (w : Word) : w &&& bitsBO = (fieldBO w).setWidth 32 <<< 8 := and_fieldMask w 8 1
theorem and_bitsIB (w : Word) : w &&& bitsIB = (fieldIB w).setWidth 32 <<< 9 := and_fieldMask w 9 1
theorem and_bitsBS (w : Word) : w &&& bitsBS = (fieldBS w).setWidth 32 <<< 10 := and_fieldMask w 10 2
theorem and_bitsMODE (w : Word) : w &&& bitsMODE = (fieldMODE w).setWidth 32 <<< 12 := and_fieldMask w 12 4
theorem and_bitsPAD (w : Word) : w &&& bitsPAD = (fieldPAD w).setWidth 32 <<< 16 := and_fieldMask w 16 4
theorem and_bitsCSEL (w : Word) : w &&& bitsCSEL = (fieldCSEL w).setWidth 32 <<< 20 := and_fieldMask w 20 2

/-! ### The opcode map (30_encoding.md R79) -/

variable {opc : Byte} {row : OpcodeRow} {w : Word} {i : Instr}

/-- The used fields of a row meet neither OPC nor the reserved bits (30_encoding.md R71). -/
theorem opcodeRow_used (h : opcodeRow opc = some row) :
    fieldOPC (~~~row.used) = BitVec.allOnes 8 ∧ bitsReserved &&& ~~~(0x000000FF ||| row.used) = bitsReserved := by
  have hall : ∀ opc : Byte, ∀ row ∈ opcodeRow opc,
      fieldOPC (~~~row.used) = BitVec.allOnes 8 ∧ bitsReserved &&& ~~~(0x000000FF ||| row.used) = bitsReserved := by
    decide +kernel
  exact hall opc row h

theorem setWidth_eq_of_toNat_eq {n : Nat} (h : opc.toNat = n) : opc.setWidth 32 = BitVec.ofNat 32 n := by
  rw [← h, BitVec.ofNat_toNat]

/-- A row builds commands of the row of the opcode table with its opcode and its free bits. -/
theorem tableRow_build (h : opcodeRow opc = some row) (w : Word) :
    (row.build w).tableRow = (opc.setWidth 32, ~~~row.used) := by
  unfold opcodeRow at h
  split at h
  on_goal 42 => cases h
  all_goals
    next hopc =>
      cases h
      rw [setWidth_eq_of_toNat_eq hopc]
      rfl

/-- The word of a row's command has the row's opcode and the used bits of the word it was built from. -/
theorem encode_build (h : opcodeRow opc = some row) (w : Word) :
    encode (row.build w) = opc.setWidth 32 ||| w &&& row.used := by
  unfold opcodeRow at h
  split at h
  on_goal 42 => cases h
  all_goals
    next hopc =>
      cases h
      simp [setWidth_eq_of_toNat_eq hopc, encode, assemble, BitVec.and_or_distrib_left, BitVec.or_assoc, and_bitsBO,
        and_bitsIB, and_bitsBS, and_bitsMODE, and_bitsPAD, and_bitsCSEL]

/-- A command is built from its own word by a row with its opcode. -/
theorem build_encode (i : Instr) :
    ∃ row, opcodeRow (fieldOPC i.tableRow.1) = some row ∧ row.build (encode i) = i := by
  cases i with
  | permute _ _ | rijSetKey _ | rijKeyGen _ | modeEnc _ _ _ | modeDec _ _ _ | pad _ | unpad _ =>
    exact ⟨_, rfl, by simp [encode, fields_assemble]⟩
  | _ => exact ⟨_, rfl, rfl⟩

/-! ### The legal words (30_encoding.md R78) -/

/-- The used fields of a row do not reach into OPC. -/
theorem fieldOPC_and_not_used (h : opcodeRow opc = some row) (w : Word) : fieldOPC (w &&& ~~~row.used) = fieldOPC w := by
  have hfield : fieldOPC (w &&& ~~~row.used) = fieldOPC w &&& fieldOPC (~~~row.used) := BitVec.extractLsb'_and
  rw [hfield, (opcodeRow_used h).1, BitVec.and_allOnes]

/-- The decoder's test for unused fields, on a word of a row's opcode: outside the used fields the word is its opcode. -/
theorem and_not_used_eq_iff (h : opcodeRow opc = some row) :
    w &&& ~~~row.used = opc.setWidth 32 ↔ fieldOPC w = opc ∧ w &&& ~~~(0x000000FF ||| row.used) = 0 := by
  have hsplit : w &&& ~~~(0x000000FF ||| row.used) = w &&& ~~~row.used &&& ~~~0x000000FF := by
    rw [BitVec.not_or, BitVec.and_comm (~~~0x000000FF), BitVec.and_assoc]
  have hopc := fieldOPC_and_not_used h w
  rw [hsplit]
  constructor
  · intro hw
    have hbyte : ∀ opc : Byte, opc.setWidth 32 &&& ~~~0x000000FF = 0 := by decide +kernel
    rw [hw, fieldOPC_setWidth] at hopc
    exact ⟨hopc.symm, by rw [hw, hbyte]⟩
  · rintro ⟨rfl, hw⟩
    rw [eq_setWidth_of_masked hw, hopc]

/-- A word decodes exactly when, outside the used fields of some row, it is that row's opcode (30_encoding.md R78). -/
theorem decode_eq_ok_iff : decode w = .ok i ↔
    ∃ opc row, opcodeRow opc = some row ∧ w &&& ~~~row.used = opc.setWidth 32 ∧ row.build w = i := by
  constructor
  · intro h
    unfold decode at h
    split at h
    · cases h
    · split at h
      · cases h
      · next row hrow =>
        split at h
        · cases h
        · next hw =>
          exact ⟨fieldOPC w, row, hrow, (and_not_used_eq_iff hrow).2 ⟨rfl, not_not.1 hw⟩, Except.ok.inj h⟩
  · rintro ⟨opc, row, hrow, hw, rfl⟩
    obtain ⟨rfl, hunused⟩ := (and_not_used_eq_iff hrow).1 hw
    have hreserved : w &&& bitsReserved = 0 := by
      rw [← (opcodeRow_used hrow).2, BitVec.and_comm bitsReserved, ← BitVec.and_assoc, hunused]
      exact BitVec.zero_and
    rw [decode, if_neg (not_not.2 hreserved), hrow]
    exact if_neg (not_not.2 hunused)

/-- Every command's row is a row of the opcode table, and its word matches it: `Laws.TableRow` for all commands at once. -/
theorem encode_matches_tableRow (i : Instr) : Laws.TableRow.Statement i := by
  open Laws.TableRow in
  cases i
  exacts [nop, zeroize, clrerr, permute _ _, gfAdd, gfMul, gfInv, gfPow, gfIsIrred, gfListIrred, desSetKey, desEnc, desDec,
    desKeyGen, desRoundF, desRound, dealSetKey, dealEnc, dealDec, dealKeyGen, dealRoundF, dealRound, rijSetKey _, rijEnc,
    rijDec, rijKeyGen _, rijSBox, rijInvSBox, rijSubBytes, rijInvSubBytes, rijShiftRows, rijInvShiftRows, rijMixColumns,
    rijInvMixColumns, rijAddRoundKey, rijRound, rijFinalRound, modeEnc _ _ _, modeDec _ _ _, pad _, unpad _]

/-- Each row of the opcode table is a row of the opcode map: its match is the opcode, its mask the bits not used. -/
theorem opcodeRow_of_mem_opcodeTable {row : Word × Word} (h : row ∈ opcodeTable) :
    ∃ opc r, opcodeRow opc = some r ∧ row = (opc.setWidth 32, ~~~r.used) := by
  have hall : opcodeTable.all fun row => (opcodeRow (fieldOPC row.1)).any
      fun r => row = ((fieldOPC row.1).setWidth 32, ~~~r.used) := by decide +kernel
  obtain ⟨r, hr, hrow⟩ := (Option.any_eq_true _ _).1 (List.all_eq_true.1 hall row h)
  exact ⟨_, r, hr, of_decide_eq_true hrow⟩

/-! ### Encoding and decoding are inverse -/

theorem decode_encode (i : Instr) : decode (encode i) = .ok i := by
  obtain ⟨row, hrow, hbuild⟩ := build_encode i
  have htable := tableRow_build hrow (encode i)
  obtain ⟨-, hword⟩ := encode_matches_tableRow i
  rw [hbuild] at htable
  obtain ⟨hmatch, hmask⟩ := Prod.ext_iff.1 htable
  rw [hmask, hmatch] at hword
  exact decode_eq_ok_iff.2 ⟨_, row, hrow, hword, hbuild⟩

theorem eq_encode_of_decode (h : decode w = .ok i) : w = encode i := by
  obtain ⟨opc, row, hrow, hw, rfl⟩ := decode_eq_ok_iff.1 h
  rw [encode_build hrow, ← hw, BitVec.or_comm, ← BitVec.and_or_distrib_left, BitVec.or_not_self, BitVec.and_allOnes]

/-! ### Obligations -/

/-- Settles O1: the fields of an assembled word are those assembled, and a legal word is its opcode and its used fields. -/
theorem decodeAndEncodeAgree : Obligations.DecodeAndEncodeAgree := by
  unfold Obligations.DecodeAndEncodeAgree
  exact ⟨decode_encode, fun _ _ => eq_encode_of_decode⟩

/-- Settles O2: the rows of the opcode table are those of the opcode map, and a word that decodes is its command's own word,
which matches a row. -/
theorem legalWordsAreTheTables : Obligations.LegalWordsAreTheTables := by
  unfold Obligations.LegalWordsAreTheTables
  refine ⟨fun w row hmem hw => ?_, fun w hno => ?_⟩
  · obtain ⟨opc, r, hr, rfl⟩ := opcodeRow_of_mem_opcodeTable hmem
    exact ⟨r.build w, decode_eq_ok_iff.2 ⟨opc, r, hr, hw, rfl⟩, tableRow_build hr w⟩
  · have hbad : ¬ ∃ i, decode w = .ok i := by
      rintro ⟨i, hi⟩
      obtain ⟨hmem, hmatch⟩ := encode_matches_tableRow i
      rw [← eq_encode_of_decode hi] at hmatch
      exact hno i.tableRow hmem hmatch
    refine ⟨hbad, fun s => ?_⟩
    rw [step_pushCommand]
    cases hd : decode w with
    | ok i => exact absurd ⟨i, hd⟩ hbad
    | error e => exact runCommand_error hd s

/-- A word with a decode error is no command. -/
theorem not_exists_ok_of_decode_error {e : DecodeError} (h : decode w = .error e) : ¬ ∃ i, decode w = .ok i := by
  simp [h]

/-- Settles O3: the decoder, run on each word. -/
theorem specWordsDecode : Obligations.SpecWordsDecode := by
  unfold Obligations.SpecWordsDecode
  refine ⟨by decide, by decide, by decide, by decide, by decide, by decide, by decide, by decide, by decide, by decide,
    not_exists_ok_of_decode_error (e := .reservedBits) (by decide),
    not_exists_ok_of_decode_error (e := .illegalOpcode 0x03) (by decide),
    not_exists_ok_of_decode_error (e := .unusedField 0x21) (by decide)⟩

end Sys2Proof
end

section
/-! SUPPORT. The bit permutation engine (40_permute.md R90 to R94), bit by bit: which bit of its answer a packed byte, a packed
string and a permutation hold at each place, in either bit order. -/

namespace Sys2Proof.Machine

/-! ### Bit places (00_scope.md R8) -/

theorem BitOrder.place_lt (order : BitOrder) (k : Nat) : order.place k < 8 := by
  cases order <;> simp only [BitOrder.place] <;> omega

/-- The bit at place `place k` of a byte is string bit `k`, and the other way round. -/
theorem BitOrder.place_place (order : BitOrder) {k : Nat} (h : k < 8) : order.place (order.place k) = k := by
  cases order <;> simp only [BitOrder.place] <;> omega

theorem BitOrder.place_inj (order : BitOrder) {j k : Nat} (hj : j < 8) (hk : k < 8) :
    order.place j = order.place k ↔ j = k :=
  ⟨fun h => by rw [← order.place_place hj, h, order.place_place hk], fun h => by rw [h]⟩

/-- The place of a bit depends on its number inside its byte only. -/
theorem BitOrder.place_sub_eight (order : BitOrder) {k : Nat} (h : 8 ≤ k) : order.place (k - 8) = order.place k := by
  have hmod : (k - 8) % 8 = k % 8 := by omega
  cases order <;> simp only [BitOrder.place, hmod]

/-! ### Packed bits (40_permute.md R92) -/

/-- What bit `k` of a string adds to its byte: its place value where it is set. -/
def placedBit (order : BitOrder) (b : Bool) (k : Nat) : Byte := BitVec.ofNat 8 (if b then 2 ^ order.place k else 0)

theorem getLsbD_placedBit (order : BitOrder) (b : Bool) {j k : Nat} (hj : j < 8) (hk : k < 8) :
    (placedBit order b k).getLsbD (order.place j) = (decide (j = k) && b) := by
  rw [placedBit, BitVec.getLsbD_ofNat, decide_eq_true (order.place_lt j), Bool.true_and]
  cases b
  · simp
  · simp [Nat.testBit_two_pow, order.place_inj hk hj, eq_comm]

@[simp] theorem packByte_nil (order : BitOrder) : packByte order [] = 0 := rfl

theorem packByte_concat (order : BitOrder) (bits : List Bool) (b : Bool) :
    packByte order (bits ++ [b]) = packByte order bits + placedBit order b bits.length := by
  simp [packByte, placedBit, List.zipIdx_append, BitVec.ofNat_add]

/-- The bits of a packed byte are the given ones and 0 after them: no two of them share a place, so the sum has no carry. -/
theorem getLsbD_packByte (order : BitOrder) {bits : List Bool} (hb : bits.length ≤ 8) {k : Nat} (hk : k < 8) :
    (packByte order bits).getLsbD (order.place k) = bits[k]?.getD false := by
  induction bits using List.reverseRecOn generalizing k with
  | nil => simp
  | append_singleton bits b ih =>
    rw [List.length_append, List.length_singleton] at hb
    have hclear : packByte order bits &&& placedBit order b bits.length = 0 := by
      apply BitVec.eq_of_getLsbD_eq
      intro j hj
      rw [← order.place_place hj, BitVec.getLsbD_and, ih (by omega) (order.place_lt j),
        getLsbD_placedBit order b (order.place_lt j) (by omega)]
      by_cases h : order.place j = bits.length <;> simp [h]
    rw [packByte_concat, BitVec.add_eq_or_of_and_eq_zero _ _ hclear, BitVec.getLsbD_or, ih (by omega) hk,
      getLsbD_placedBit order b hk (by omega)]
    rcases lt_trichotomy k bits.length with h | rfl | h
    · simp [List.getElem?_append_left h, h.ne]
    · simp
    · rw [List.getElem?_eq_none (by omega), List.getElem?_eq_none (by simp; omega)]
      simp [h.ne']

theorem bitOf_cons (order : BitOrder) (b : Byte) (bs : Bytes) (k : Nat) :
    bitOf order (b :: bs) k = if k < 8 then b.getLsbD (order.place k) else bitOf order bs (k - 8) := by
  unfold bitOf
  split
  · next h => rw [Nat.div_eq_of_lt h, List.getD_cons_zero]
  · next h =>
    have hdiv : k / 8 = (k - 8) / 8 + 1 := by omega
    rw [hdiv, List.getD_cons_succ, order.place_sub_eight (by omega)]

/-- String bit `k` of packed bits is bit `k`, and 0 beyond the last of them. -/
theorem bitOf_packBits (order : BitOrder) {n : Nat} {bits : List Bool} (h : bits.length ≤ 8 * n) (k : Nat) :
    bitOf order (packBits order n bits) k = bits[k]?.getD false := by
  induction n generalizing bits k with
  | zero =>
    have hnil : bits = [] := List.eq_nil_of_length_eq_zero (by omega)
    simp [hnil, packBits, bitOf]
  | succ n ih =>
    rw [packBits, bitOf_cons]
    split
    · next hk =>
      rw [getLsbD_packByte order (List.length_take_le ..) hk, List.getElem?_take_of_lt hk]
    · next hk =>
      rw [ih (by simp; omega), List.getElem?_drop, Nat.add_sub_cancel' (by omega)]

/-- R90, R92: output bit `k` is the source bit of entry `k`, and 0 beyond the table. -/
theorem bitOf_permute (input : Bytes) (table : List Nat) (order : BitOrder) (base k : Nat) :
    bitOf order (permute input table order base) k = (table[k]?.map (sourceBit input order base)).getD false := by
  rw [permute, bitOf_packBits order (by simp; omega), List.getElem?_map]

/-! ### Source bits (40_permute.md R91) -/

theorem sourceBit_inside {input : Bytes} {order : BitOrder} {base entry : Nat} (h : base ≤ entry)
    (hin : entry - base < 8 * input.length) : sourceBit input order base entry = bitOf order input (entry - base) :=
  if_pos ⟨h, hin⟩

theorem sourceBit_outside {input : Bytes} {order : BitOrder} {base entry : Nat}
    (h : entry < base ∨ base + 8 * input.length ≤ entry) : sourceBit input order base entry = false :=
  if_neg (by omega)

/-! ### Byte strings and their bits -/

/-- Two byte strings of one length with the same string bits are equal. -/
theorem eq_of_bitOf_eq (order : BitOrder) {a b : Bytes} (hlen : a.length = b.length)
    (h : ∀ k < 8 * b.length, bitOf order a k = bitOf order b k) : a = b := by
  induction a generalizing b with
  | nil => exact (List.eq_nil_of_length_eq_zero hlen.symm).symm
  | cons x a ih =>
    obtain _ | ⟨y, b⟩ := b
    · cases hlen
    rw [List.length_cons] at h
    have hhead : x = y := by
      apply BitVec.eq_of_getLsbD_eq
      intro j hj
      have hbit := h (order.place j) (by have := order.place_lt j; omega)
      simpa only [bitOf_cons, if_pos (order.place_lt j), order.place_place hj] using hbit
    have htail : a = b := ih (Nat.succ.inj hlen) fun k hk => by
      simpa [bitOf_cons] using h (k + 8) (by omega)
    rw [hhead, htail]

/-- The string bit of the statements is that of the engine, with BO's code for the order (30_encoding.md R72). -/
theorem stringBit_eq_bitOf (bo : BitVec 1) (b : Bytes) (k : Nat) :
    stringBit bo b k = bitOf (BitOrder.ofCode bo) b k := by
  unfold stringBit BitOrder.ofCode
  split <;> rfl

/-- Entry `k` of a table is the little-endian pair of bytes `2k` and `2k + 1` (20_memory.md R51, R55). -/
theorem getElem?_entriesOf {bs : Bytes} {k : Nat} (h : 2 * k + 1 < bs.length) :
    (entriesOf bs)[k]? = some ((bs.getD (2 * k) 0).toNat + 256 * (bs.getD (2 * k + 1) 0).toNat) := by
  induction bs using entriesOf.induct generalizing k with
  | case1 lo hi rest ih =>
    cases k with
    | zero => rfl
    | succ k => exact ih (by simp only [List.length_cons] at h; omega)
  | case2 bs hshort =>
    match bs, hshort with
    | [], _ => simp at h
    | [_], _ => simp at h
    | lo :: hi :: rest, hshort => exact absurd rfl (hshort lo hi rest)

/-! ### PERMUTE (40_permute.md R93) -/

/-- With its arguments in range and its operand bytes present, PERMUTE completes with the permuted input. -/
theorem execPermute_completes {bo ib : BitVec 1} {s : State} {inp tb : Bytes}
    (hlen : s.len.toNat ≤ s.params.bufBytes) (htlen : s.tlen.toNat ≤ s.params.tbufEntries)
    (hinp : s.memRead .ibuf 0 s.len.toNat = some inp) (htb : s.memRead .tbuf 0 (2 * s.tlen.toNat) = some tb) :
    execPermute bo ib s =
      .next (s.completed 0 (permute inp (entriesOf tb) (BitOrder.ofCode bo) (indexBase ib))) := by
  rw [execPermute, require_pos ⟨hlen, htlen⟩, withBytes_some hinp, withTable, withBytes_some htb, succeedBytes]

/-! ### Obligations -/

/-- Settles O25: the output is the packed source bits of the table's entries, and its bits are read off one by one. -/
theorem permuteBitByBit : Obligations.PermuteBitByBit := by
  unfold Obligations.PermuteBitByBit
  intro bo ib s inp tb hlen htlen hinp htb
  have hbytes : tb.length = 2 * s.tlen.toNat := Memory.readRange_length htb
  refine ⟨_, _, execPermute_completes hlen htlen hinp htb, completedPlain s 0 _, ?_, ?_, ?_⟩
  · rw [length_permute, length_entriesOf, hbytes]; omega
  · rintro k hk entry rfl
    simp only [stringBit_eq_bitOf, bitOf_permute, getElem?_entriesOf (bs := tb) (k := k) (by omega), Option.map_some,
      Option.getD_some]
    exact ⟨sourceBit_inside, sourceBit_outside⟩
  · intro k hk _
    rw [stringBit_eq_bitOf, bitOf_permute, List.getElem?_eq_none (by rw [length_entriesOf]; omega)]
    rfl

/-- Settles O26: input and output have the same bits, since entry `base + k` selects bit `k`. -/
theorem permuteIdentity : Obligations.PermuteIdentity := by
  unfold Obligations.PermuteIdentity
  intro order ib inp
  refine eq_of_bitOf_eq order (by rw [length_permute, List.length_range']; omega) fun k hk => ?_
  rw [bitOf_permute, List.getElem?_range' hk, Option.map_some, Option.getD_some,
    sourceBit_inside (by omega) (by omega)]
  congr 1; omega

end Sys2Proof.Machine
end

section
/-! SUPPORT. The Feistel combiner (41_feistel.md R101 to R105): its rounds on two 4-byte halves, its inverse, and its single
rounds on a block. The round function has its length on 4-byte halves only, where Laws/Lengths.lean asks it on all. -/

namespace Sys2Proof.Machine

/-- XOR with the same bytes twice cancels, when they are at least as many. -/
theorem xorBytes_xorBytes_cancel {a b : Bytes} (h : a.length ≤ b.length) : xorBytes (xorBytes a b) b = a := by
  induction a generalizing b with
  | nil => rfl
  | cons x xs ih =>
    cases b with
    | nil => simp at h
    | cons y ys =>
      have hxs := ih (Nat.le_of_succ_le_succ h)
      simp only [xorBytes, List.zipWith_cons_cons, BitVec.xor_assoc, BitVec.xor_self, BitVec.xor_zero] at hxs ⊢
      rw [hxs]

/-! ### A block and its two halves -/

/-- A pair of 4-byte halves. -/
def IsHalves (lr : Bytes × Bytes) : Prop := lr.1.length = 4 ∧ lr.2.length = 4

/-- The halves `(L, R)` of a block. -/
def splitHalves (block : Bytes) : Bytes × Bytes := (block.take 4, block.drop 4)

/-- The block `L || R`. -/
def joinHalves (lr : Bytes × Bytes) : Bytes := lr.1 ++ lr.2

theorem isHalves_splitHalves {block : Bytes} (h : block.length = 8) : IsHalves (splitHalves block) := by
  simp [IsHalves, splitHalves, h]

@[simp] theorem joinHalves_splitHalves (block : Bytes) : joinHalves (splitHalves block) = block :=
  List.take_append_drop 4 block

theorem splitHalves_joinHalves {lr : Bytes × Bytes} (h : IsHalves lr) : splitHalves (joinHalves lr) = lr :=
  Prod.ext (List.take_left' h.1) (List.drop_left' h.1)

theorem IsHalves.swap {lr : Bytes × Bytes} (h : IsHalves lr) : IsHalves lr.swap := ⟨h.2, h.1⟩

theorem feistel_eq_joinHalves (f : Bytes → Bytes → Bytes) (keys : List Bytes) (block : Bytes) :
    feistel f keys block = joinHalves (keys.foldl (feistelRound f) (splitHalves block)).swap := rfl

theorem feistelStep_eq_joinHalves (f : Bytes → Bytes → Bytes) (k block : Bytes) :
    feistelStep f k block = joinHalves (feistelRound f (splitHalves block) k) := rfl

/-! ### Rounds of a function from 4-byte halves to 4-byte halves -/

section Rounds

variable {f : Bytes → Bytes → Bytes} (hf : ∀ half k, half.length = 4 → (f half k).length = 4)
include hf

theorem isHalves_feistelRound {lr : Bytes × Bytes} (h : IsHalves lr) (k : Bytes) : IsHalves (feistelRound f lr k) := by
  obtain ⟨hl, hr⟩ := h
  exact ⟨hr, by simp [feistelRound, hl, hf _ k hr]⟩

theorem isHalves_foldl_feistelRound (keys : List Bytes) {lr : Bytes × Bytes} (h : IsHalves lr) :
    IsHalves (keys.foldl (feistelRound f) lr) :=
  List.foldlRecOn keys _ h fun _ hb k _ => isHalves_feistelRound hf hb k

/-- A round undoes itself across an exchange of the halves: the half it kept gives the same `F(R, k)` again. -/
theorem feistelRound_swap_feistelRound {lr : Bytes × Bytes} (h : IsHalves lr) (k : Bytes) :
    feistelRound f (feistelRound f lr k).swap k = lr.swap := by
  obtain ⟨hl, hr⟩ := h
  have hcancel := xorBytes_xorBytes_cancel (a := lr.1) (b := f lr.2 k) (by rw [hl, hf _ k hr])
  simp [feistelRound, Prod.swap, hcancel]

/-- The rounds with the keys reversed undo the rounds, the last one first. -/
theorem foldl_reverse_swap_foldl_feistelRound (keys : List Bytes) {lr : Bytes × Bytes} (h : IsHalves lr) :
    keys.reverse.foldl (feistelRound f) (keys.foldl (feistelRound f) lr).swap = lr.swap := by
  induction keys generalizing lr with
  | nil => rfl
  | cons k ks ih =>
    rw [List.foldl_cons, List.reverse_cons, List.foldl_append, ih (isHalves_feistelRound hf h k)]
    exact feistelRound_swap_feistelRound hf h k

/-- R103: decryption inverts encryption. -/
theorem feistelDec_feistel (keys : List Bytes) {block : Bytes} (h : block.length = 8) :
    feistelDec f keys (feistel f keys block) = block := by
  have hs := isHalves_splitHalves h
  have hend := (isHalves_foldl_feistelRound hf keys hs).swap
  rw [feistelDec, feistel_eq_joinHalves, feistel_eq_joinHalves, splitHalves_joinHalves hend,
    foldl_reverse_swap_foldl_feistelRound hf keys hs, Prod.swap_swap, joinHalves_splitHalves]

/-- The single rounds on a block are the rounds on its halves. -/
theorem foldl_feistelStep_joinHalves (keys : List Bytes) {lr : Bytes × Bytes} (h : IsHalves lr) :
    keys.foldl (fun b k => feistelStep f k b) (joinHalves lr) = joinHalves (keys.foldl (feistelRound f) lr) := by
  induction keys generalizing lr with
  | nil => rfl
  | cons k ks ih =>
    rw [List.foldl_cons, List.foldl_cons, feistelStep_eq_joinHalves, splitHalves_joinHalves h]
    exact ih (isHalves_feistelRound hf h k)

/-- R105: the halves after the single rounds on a block are those after the rounds of encryption. -/
theorem splitHalves_foldl_feistelStep (keys : List Bytes) {block : Bytes} (h : block.length = 8) :
    splitHalves (keys.foldl (fun b k => feistelStep f k b) block) =
      keys.foldl (feistelRound f) (splitHalves block) := by
  have hs := isHalves_splitHalves h
  have hfold := foldl_feistelStep_joinHalves hf keys hs
  rw [joinHalves_splitHalves] at hfold
  rw [hfold, splitHalves_joinHalves (isHalves_foldl_feistelRound hf keys hs)]

end Rounds

/-! ### Obligation -/

/-- Settles O34: each round undoes itself across the exchange, and a single round is a round on the halves of its block. -/
theorem feistelRoundsAndInverse : Obligations.FeistelRoundsAndInverse := by
  unfold Obligations.FeistelRoundsAndInverse
  intro f keys x hf hx
  refine ⟨feistelDec_feistel hf keys hx, ?_⟩
  rw [feistel_eq_joinHalves, ← splitHalves_foldl_feistelStep hf keys hx]
  rfl

end Sys2Proof.Machine
end

section
/-! SUPPORT. DES and DEAL as functions of byte strings (42_des.md, 43_deal.md): one DES table after another is a third one,
so FP and IP undo each other and decryption inverts encryption; and the schedule reads no parity bit of its key. -/

namespace Sys2Proof.Machine

/-! ### One DES table after another (42_des.md R110 to R112) -/

/-- A permutation is its source bits, packed. -/
theorem permute_eq_of_sourceBits_eq {a a' : Bytes} {table table' : List Nat} {order : BitOrder} {base : Nat}
    (h : table.map (sourceBit a order base) = table'.map (sourceBit a' order base)) :
    permute a table order base = permute a' table' order base := by
  have hlen : table.length = table'.length := by simpa using congrArg List.length h
  rw [permute, permute, hlen, h]

/-- The table that selects from a string what `outer` selects after `inner`. -/
def composeTables (outer inner : List Nat) : List Nat := outer.map fun e => inner.getD (e - 1) 0

/-- Tables are 1-based: entry `e` of the outer one selects the bit that entry `e - 1` of the inner one selected. -/
theorem desPermute_desPermute {outer inner : List Nat} (h : ∀ e ∈ outer, 1 ≤ e ∧ e ≤ inner.length) (x : Bytes) :
    desPermute outer (desPermute inner x) = desPermute (composeTables outer inner) x := by
  refine permute_eq_of_sourceBits_eq ?_
  rw [composeTables, List.map_map]
  refine List.map_congr_left fun e he => ?_
  obtain ⟨hpos, hle⟩ := h e he
  have hlt : e - 1 < inner.length := by omega
  rw [sourceBit_inside hpos (by simp; omega), desPermute, bitOf_permute, List.getElem?_eq_getElem hlt, Option.map_some,
    Option.getD_some, Function.comp_apply, List.getD_eq_getElem _ _ hlt]

theorem desPermute_identity {x : Bytes} (hx : x.length = 8) : desPermute (List.range' 1 64) x = x := by
  have h := permuteIdentity .msbFirst 1 x
  rwa [hx] at h

/-- Two tables that make the identity undo each other. -/
theorem desPermute_cancel {outer inner : List Nat} (h : ∀ e ∈ outer, 1 ≤ e ∧ e ≤ inner.length)
    (hid : composeTables outer inner = List.range' 1 64) {x : Bytes} (hx : x.length = 8) :
    desPermute outer (desPermute inner x) = x := by
  rw [desPermute_desPermute h, hid, desPermute_identity hx]

/-- R112: FP undoes IP. -/
theorem desPermute_desFP_desIP {x : Bytes} (hx : x.length = 8) : desPermute desFP (desPermute desIP x) = x :=
  desPermute_cancel (by decide) (by decide) hx

theorem desPermute_desIP_desFP {x : Bytes} (hx : x.length = 8) : desPermute desIP (desPermute desFP x) = x :=
  desPermute_cancel (by decide) (by decide) hx

/-! ### Decryption inverts encryption (42_des.md R122, R123; 43_deal.md R144) -/

/-- FP and the next IP cancel, so the two Feistel networks meet, and then IP and the last FP cancel. -/
theorem desDecrypt_desEncrypt (rk : List Bytes) {x : Bytes} (hx : x.length = 8) :
    desDecrypt rk (desEncrypt rk x) = x := by
  have hip : (desPermute desIP x).length = 8 := length_desPermute desIP x
  rw [desDecrypt, desEncrypt,
    desPermute_desIP_desFP (length_feistel length_desF rk hip),
    feistelDec_feistel (fun half k _ => length_desF half k) rk hip,
    desPermute_desFP_desIP hx]

theorem dealDecrypt_dealEncrypt (dup : DealDup) (rk : List Bytes) {x : Bytes} (hx : x.length = 8) :
    dealDecrypt dup rk (dealEncrypt dup rk x) = x :=
  feistelDec_feistel (fun half k _ => length_dealF dup half k) rk hx

/-! ### The key bits that the schedule reads (42_des.md R115, R119) -/

/-- No entry of PC1 is a multiple of 8: it selects no parity bit. -/
theorem desPC1_skips_parity : ∀ e ∈ desPC1, 1 ≤ e ∧ (e - 1) % 8 < 7 := by decide

/-- Every bit of a byte but bit 0 is a bit of the byte shifted right by one. -/
theorem getLsbD_eq_of_ushiftRight_one_eq {b b' : Byte} (h : b >>> 1 = b' >>> 1) {p : Nat} (hp : 1 ≤ p) :
    b.getLsbD p = b'.getLsbD p := by
  have hbit := congrArg (fun x : Byte => x.getLsbD (p - 1)) h
  simpa only [BitVec.getLsbD_ushiftRight, Nat.add_sub_cancel' hp] using hbit

/-- String bits outside the parity places agree where the upper seven bits of each byte do. -/
theorem bitOf_eq_of_upper_bits_eq {key key' : Bytes} {k : Nat}
    (h : (key.getD (k / 8) 0) >>> 1 = (key'.getD (k / 8) 0) >>> 1) (hk : k % 8 < 7) :
    bitOf .msbFirst key k = bitOf .msbFirst key' k :=
  getLsbD_eq_of_ushiftRight_one_eq h (by simp only [BitOrder.place]; omega)

theorem desPermute_desPC1_eq_of_upper_bits_eq {key key' : Bytes} (hlen : key.length = key'.length)
    (h : ∀ i < key.length, (key.getD i 0) >>> 1 = (key'.getD i 0) >>> 1) :
    desPermute desPC1 key = desPermute desPC1 key' := by
  refine permute_eq_of_sourceBits_eq (List.map_congr_left fun e he => ?_)
  obtain ⟨hpos, hparity⟩ := desPC1_skips_parity e he
  by_cases hin : e - 1 < 8 * key.length
  · rw [sourceBit_inside hpos hin, sourceBit_inside hpos (hlen ▸ hin)]
    exact bitOf_eq_of_upper_bits_eq (h _ (by omega)) hparity
  · rw [sourceBit_outside (by omega), sourceBit_outside (by omega)]

/-! ### Obligations -/

/-- Settles O36: the schedule depends on the key through PC1 alone, and PC1 selects no parity bit. -/
theorem desScheduleIgnoresParity : Obligations.DesScheduleIgnoresParity := by
  unfold Obligations.DesScheduleIgnoresParity
  intro key key' hkey hkey' h
  rw [desKeygen, desKeygen, desPermute_desPC1_eq_of_upper_bits_eq (hkey.trans hkey'.symm) (by rwa [hkey])]

/-- Settles O40: DES is a Feistel network between IP and FP, which cancel, and DEAL is one alone. -/
theorem desAndDealRoundTrip : Obligations.DesAndDealRoundTrip := by
  unfold Obligations.DesAndDealRoundTrip
  exact fun rk x hx => ⟨desDecrypt_desEncrypt rk hx, fun dup => dealDecrypt_dealEncrypt dup rk hx⟩

end Sys2Proof.Machine
end

section
/-! SUPPORT. The commands that set a key, write a key schedule, run one block or run one round (42_des.md R124 to R129,
43_deal.md R145 to R150, 45_rijndael.md R191 to R194): what each answers once its checks pass and its operand bytes hold
values. -/

namespace Sys2Proof.Machine

/-! ### Checks that pass and operands that are present -/

section Operands

variable {s : State} {p q : Prop} [Decidable p] [Decidable q]

/-- A command with one check and one operand. -/
theorem require_withBytes (hp : p) {b : Buf} {n : Nat} {bs : Bytes} (hbs : s.memRead b 0 n = some bs) (e : ErrCode)
    (go : Bytes → Result) : (require p e s fun _ => withBytes b n s go) = go bs := by
  rw [require_pos hp, withBytes_some hbs]

/-- A keyed block command. -/
theorem require_require_withBytes (hp : p) (hq : q) {b : Buf} {n : Nat} {bs : Bytes}
    (hbs : s.memRead b 0 n = some bs) (e e' : ErrCode) (go : Bytes → Result) :
    (require p e s fun _ => require q e' s fun _ => withBytes b n s go) = go bs := by
  rw [require_pos hp, require_withBytes hq hbs]

/-- A round command: one check and two operands. -/
theorem require_withBytes_withBytes (hp : p) {b b' : Buf} {n n' : Nat} {bs bs' : Bytes}
    (hbs : s.memRead b 0 n = some bs) (hbs' : s.memRead b' 0 n' = some bs') (e : ErrCode)
    (go : Bytes → Bytes → Result) :
    (require p e s fun _ => withBytes b n s fun x => withBytes b' n' s (go x)) = go bs bs' := by
  rw [require_withBytes hp hbs, withBytes_some hbs']

end Operands

/-- BS selects 16, 24 or 32 bytes (30_encoding.md R74). -/
theorem blockSizeOf_eq_some {bsc : BitVec 2} (h : bsc ≠ 3) : blockSizeOf bsc = some (16 + 8 * bsc.toNat) := by
  revert bsc; decide

/-- The checks and the key of RIJ_SETKEY and RIJ_KEYGEN, where they all pass. -/
theorem withRijKey_completes {bsc : BitVec 2} {s : State} {key : Bytes} (hbsc : bsc ≠ 3) (hks : rijSize s.klen.toNat)
    (harg : s.arg2.toNat ≤ 0xFF) (hm : irreducible (s.arg2.setWidth 8) = true)
    (hkey : s.memRead .kbuf 0 s.klen.toNat = some key) (go : Nat → Byte → Bytes → Result) :
    withRijKey bsc s go = go (16 + 8 * bsc.toNat) (s.arg2.setWidth 8) key := by
  rw [withRijKey, blockSizeOf_eq_some hbsc, requireSome_some, require_pos hks, byteArg_of_le harg, requireSome_some,
    requireIrreducible, require_withBytes hm hkey]

/-- A command that answers the success with some bytes completes with them and touches nothing else. -/
theorem exists_completedPlain {r : Result} {s : State} {out : Bytes} (h : r = succeedBytes out s) :
    ∃ t, r = .next t ∧ CompletedPlain s t 0 out :=
  ⟨_, h, completedPlain s 0 out⟩

/-! ### Setting a key -/

/-- The success of a command that replaces the instances of DES and DEAL, either of them by itself if it is kept. -/
theorem completed_replace_instances (s : State) (des : DesInst) (deal : DealInst) :
    Completed s ({ s with des := des, deal := deal }.completed 0 []) 0 [] :=
  completed_of_inputs 0 [] (by constructor <;> intros <;> rfl) fun _ => rfl

theorem execDesSetKey_completes {s : State} {key : Bytes} (hklen : s.klen = 8)
    (hkey : s.memRead .kbuf 0 8 = some key) :
    exec .desSetKey s = succeedScalar 0 { s with des := { keyed := true, rk := desKeygen key } } :=
  require_withBytes hklen hkey _ _

theorem execDealSetKey_completes {s : State} {mk : Bytes} (hklen : s.klen = 16)
    (hmk : s.memRead .kbuf 0 16 = some mk) :
    exec .dealSetKey s = succeedScalar 0 { s with deal := { keyed := true, rk := dealKeygen mk } } :=
  require_withBytes hklen hmk _ _

/-- R142: the first three round keys stand under the first half of the key. -/
theorem getElem?_dealKeygen_low (mk : Bytes) {i : Nat} (hi : i < 3) :
    (dealKeygen mk)[i]? = some (desEncrypt (desKeygen (mk.take 8)) (dealConstant i)) := by
  rw [dealKeygen, List.getElem?_append_left (by simpa using hi), List.getElem?_map, List.getElem?_range hi,
    Option.map_some]

/-- R142: the last three round keys stand under the second half of the key. -/
theorem getElem?_dealKeygen_high (mk : Bytes) {i : Nat} (hi : i < 3) :
    (dealKeygen mk)[3 + i]? = some (desEncrypt (desKeygen (mk.drop 8)) (dealConstant i)) := by
  rw [dealKeygen, List.getElem?_append_right (by simp), List.getElem?_map, List.length_map, List.length_range,
    Nat.add_sub_cancel_left, List.getElem?_range hi, Option.map_some]

/-! ### Writing a key schedule -/

/-- Byte `j` of string `r` in a row of `n`-byte strings. -/
theorem getElem?_flatten_of_forall {n : Nat} {l : List Bytes} (h : ∀ x ∈ l, x.length = n) {r j : Nat}
    (hr : r < l.length) (hj : j < n) : l.flatten[n * r + j]? = (l.getD r [])[j]? := by
  induction l generalizing r with
  | nil => simp at hr
  | cons x l ih =>
    have hx : x.length = n := h x List.mem_cons_self
    rw [List.flatten_cons]
    cases r with
    | zero => rw [Nat.mul_zero, Nat.zero_add, List.getElem?_append_left (by omega), List.getD_cons_zero]
    | succ r =>
      have hoffset : n * (r + 1) + j - x.length = n * r + j := by rw [Nat.mul_succ]; omega
      rw [List.getElem?_append_right (by rw [Nat.mul_succ]; omega), hoffset, List.getD_cons_succ,
        ih (fun y hy => h y (List.mem_cons_of_mem x hy)) (Nat.lt_of_succ_lt_succ hr)]

/-- Byte `j` of round key `r` stands in OBUF at `r` times the round key size plus `j`. -/
theorem bufByte_of_completed_flatten {s t : State} {res : Word} {keys : List Bytes}
    (h : Completed s t res keys.flatten) {n : Nat} (hkeys : ∀ k ∈ keys, k.length = n) {r j : Nat}
    (hr : r < keys.length) (hj : j < n) : t.bufByte .obuf (n * r + j) = (keys.getD r [])[j]? := by
  have hin : n * r + j < keys.flatten.length := by
    have hmul : n * (r + 1) ≤ n * keys.length := Nat.mul_le_mul_left n hr
    rw [length_flatten_of_forall hkeys]
    rw [Nat.mul_succ] at hmul
    omega
  rw [h.output _ hin, getElem?_flatten_of_forall hkeys hr hj]

/-- The schedule of a supported block size and key size is short enough for OUTLEN to hold its length (45_rijndael.md
R194). -/
theorem toNat_length_flatten_rijKeygen {table key : Bytes} {bs : Nat} {m : Byte} (hbs : rijSize bs)
    (hks : rijSize key.length) :
    (BitVec.ofNat 32 (rijKeygen table key bs m).flatten.length).toNat = (rijRounds bs key.length + 1) * bs := by
  have hle := length_flatten_rijKeygen_le (table := table) (m := m) hbs hks
  rw [BitVec.toNat_ofNat, Nat.mod_eq_of_lt (by omega), length_flatten_of_forall (length_of_mem_rijKeygen hbs hks),
    length_rijKeygen, Nat.mul_comm]

theorem execRijKeyGen_completes {bsc : BitVec 2} {s : State} {key : Bytes} (hbsc : bsc ≠ 3)
    (hks : rijSize s.klen.toNat) (harg : s.arg2.toNat ≤ 0xFF) (hm : irreducible (s.arg2.setWidth 8) = true)
    (hkey : s.memRead .kbuf 0 s.klen.toNat = some key) :
    exec (.rijKeyGen bsc) s = succeedBytes
      (rijKeygen (sboxTable (s.arg2.setWidth 8)) key (16 + 8 * bsc.toNat) (s.arg2.setWidth 8)).flatten s :=
  withRijKey_completes hbsc hks harg hm hkey _

/-! ### Obligations -/

/-- Settles O38: the output is the schedule, its round keys one after the other, all of one size. -/
theorem keygenCommandsComplete : Obligations.KeygenCommandsComplete := by
  unfold Obligations.KeygenCommandsComplete
  refine ⟨fun s key hklen hkey => ?des, fun s mk hklen hmk => ?deal, ?rij⟩
  case des =>
    obtain ⟨t, ht, hdone⟩ := exists_completedPlain (r := exec .desKeyGen s) (require_withBytes hklen hkey _ _)
    refine ⟨t, _, ht, hdone, ?_, length_desKeygen key, fun r hr j hj => ?_⟩
    · rw [hdone.outlen, length_flatten_desKeygen]
      rfl
    · exact bufByte_of_completed_flatten hdone.toCompleted (length_of_mem_desKeygen key) (by simpa using hr) hj
  case deal =>
    obtain ⟨t, ht, hdone⟩ := exists_completedPlain (r := exec .dealKeyGen s) (require_withBytes hklen hmk _ _)
    refine ⟨t, _, ht, hdone, ?_, length_dealKeygen mk, fun r hr j hj => ?_⟩
    · rw [hdone.outlen, length_flatten_dealKeygen]
      rfl
    · exact bufByte_of_completed_flatten hdone.toCompleted (length_of_mem_dealKeygen mk) (by simpa using hr) hj
  case rij =>
    rintro bsc s key bs nr rk hbsc rfl hks hnr harg hm hkey rfl
    have hbs : rijSize (16 + 8 * bsc.toNat) := blockSizeOf_rijSize (blockSizeOf_eq_some hbsc)
    have hlen : key.length = s.klen.toNat := Memory.readRange_length hkey
    rw [← hlen] at hnr
    have hsize : rijSize key.length := hlen ▸ hks
    obtain ⟨t, ht, hdone⟩ := exists_completedPlain (execRijKeyGen_completes hbsc hks harg hm hkey)
    have hcount := length_rijKeygen (sboxTable (s.arg2.setWidth 8)) key (16 + 8 * bsc.toNat) (s.arg2.setWidth 8)
    rw [rijRounds, ← hnr] at hcount
    refine ⟨t, _, ht, hdone, ?_, hcount, fun r hr j hj => ?_⟩
    · rw [hdone.outlen, toNat_length_flatten_rijKeygen hbs hsize, rijRounds, ← hnr]
    · exact bufByte_of_completed_flatten hdone.toCompleted (length_of_mem_rijKeygen hbs hsize) (hcount ▸ hr) hj

/-- Settles O35: the success replaces one of the instances, and the six DEAL round keys are those of the two halves of the key. -/
theorem desAndDealSetKeyComplete : Obligations.DesAndDealSetKeyComplete := by
  unfold Obligations.DesAndDealSetKeyComplete
  refine ⟨fun s key hklen hkey => ?_, fun s mk hklen hmk => ?_⟩
  · exact ⟨_, execDesSetKey_completes hklen hkey, completed_replace_instances s _ s.deal, rfl, rfl, rfl, rfl, rfl⟩
  · exact ⟨_, execDealSetKey_completes hklen hmk, completed_replace_instances s s.des _, rfl, rfl, rfl,
      length_dealKeygen mk, rfl, rfl, fun i hi => ⟨getElem?_dealKeygen_low mk hi, getElem?_dealKeygen_high mk hi⟩⟩

/-- Settles O37: the six commands are one shape, two checks and one operand, and differ in the cipher only. -/
theorem blockCommandsComplete : Obligations.BlockCommandsComplete := by
  unfold Obligations.BlockCommandsComplete
  refine ⟨fun s blk hlen hblk => ⟨fun hkeyed => ?des, fun hkeyed => ?deal⟩, fun s blk hkeyed hlen hblk => ?rij⟩
  all_goals
    exact ⟨exists_completedPlain (require_require_withBytes hkeyed hlen hblk _ _ _),
      exists_completedPlain (require_require_withBytes hkeyed hlen hblk _ _ _)⟩

/-- Settles O39: the four commands are one shape, one check of two lengths and two operands. -/
theorem roundCommandsComplete : Obligations.RoundCommandsComplete := by
  unfold Obligations.RoundCommandsComplete
  refine ⟨fun s half k hlen hhalf => ⟨fun hklen hk => ?_, fun hklen hk => ?_⟩,
    fun s b k hlen hb => ⟨fun hklen hk => ?_, fun hklen hk => ?_⟩⟩
  · exact exists_completedPlain (require_withBytes_withBytes ⟨hlen, hklen⟩ hhalf hk _ _)
  · exact exists_completedPlain (require_withBytes_withBytes ⟨hlen, hklen⟩ hhalf hk _ _)
  · exact exists_completedPlain (require_withBytes_withBytes ⟨hlen, hklen⟩ hb hk _ _)
  · exact exists_completedPlain (require_withBytes_withBytes ⟨hlen, hklen⟩ hb hk _ _)

end Sys2Proof.Machine
end

section
/-! SUPPORT. A natural number as a polynomial over GF(2) (44_gf256.md R155), in Mathlib's polynomials: XOR is their sum,
`clMul` their product, and `polyDivMod` divides with a remainder of lower degree than the divisor. -/

namespace Sys2Proof.Machine

open Polynomial

/-! ### The polynomial of a number -/

/-- The polynomial of the lowest `k` bits of a number. -/
noncomputable def bitSum (n k : Nat) : (ZMod 2)[X] := ∑ i ∈ Finset.range k, if n.testBit i then X ^ i else 0

/-- The polynomial over GF(2) that a number stands for: bit `i` is the coefficient of `x^i` (44_gf256.md R155). -/
noncomputable def polyOf (n : Nat) : (ZMod 2)[X] := bitSum n n

theorem bitSum_succ (n k : Nat) : bitSum n (k + 1) = bitSum n k + if n.testBit k then X ^ k else 0 :=
  Finset.sum_range_succ _ k

theorem coeff_bitSum (n k i : Nat) : (bitSum n k).coeff i = if i < k ∧ n.testBit i then 1 else 0 := by
  have hterm : ∀ j, (if n.testBit j then (X : (ZMod 2)[X]) ^ j else 0).coeff i =
      if i = j then (if n.testBit j then 1 else 0) else 0 := fun j => by
    rw [apply_ite (fun p => coeff p i), coeff_X_pow, coeff_zero]
    split_ifs <;> rfl
  simp only [bitSum, finsetSum_coeff, hterm, Finset.sum_ite_eq, Finset.mem_range, ite_and]

/-- Bits at and above a bound of the number are 0, so they are not missed. -/
theorem coeff_bitSum_of_lt {n k : Nat} (h : n < 2 ^ k) (i : Nat) :
    (bitSum n k).coeff i = if n.testBit i then 1 else 0 := by
  have hin : n.testBit i = true → i < k := fun hi =>
    (Nat.pow_lt_pow_iff_right Nat.one_lt_two).1 ((Nat.ge_two_pow_of_testBit hi).trans_lt h)
  simp only [coeff_bitSum, and_iff_right_of_imp hin]

@[simp] theorem coeff_polyOf (n i : Nat) : (polyOf n).coeff i = if n.testBit i then 1 else 0 :=
  coeff_bitSum_of_lt Nat.lt_two_pow_self i

theorem bitSum_eq_polyOf {n k : Nat} (h : n < 2 ^ k) : bitSum n k = polyOf n := by
  ext i
  rw [coeff_bitSum_of_lt h, coeff_polyOf]

@[simp] theorem polyOf_zero : polyOf 0 = 0 := rfl

@[simp] theorem polyOf_two_pow (k : Nat) : polyOf (2 ^ k) = X ^ k := by
  ext i
  simp [coeff_X_pow, Nat.testBit_two_pow, eq_comm]

@[simp] theorem polyOf_one : polyOf 1 = 1 := polyOf_two_pow 0

@[simp] theorem polyOf_xor (a b : Nat) : polyOf (a ^^^ b) = polyOf a + polyOf b := by
  ext i
  rw [coeff_add, coeff_polyOf, coeff_polyOf, coeff_polyOf, Nat.testBit_xor]
  cases a.testBit i <;> cases b.testBit i <;> decide

@[simp] theorem polyOf_shiftLeft (a k : Nat) : polyOf (a <<< k) = polyOf a * X ^ k := by
  ext i
  rw [coeff_mul_X_pow', coeff_polyOf, coeff_polyOf, Nat.testBit_shiftLeft]
  by_cases h : k ≤ i <;> simp [h]

theorem polyOf_injective : Function.Injective polyOf := by
  refine fun a b h => Nat.eq_of_testBit_eq fun i => ?_
  have hi := congrArg (fun p => p.coeff i) h
  simp only [coeff_polyOf] at hi
  cases ha : a.testBit i <;> cases hb : b.testBit i <;> simp_all

@[simp] theorem polyOf_eq_zero {n : Nat} : polyOf n = 0 ↔ n = 0 := polyOf_injective.eq_iff' polyOf_zero

theorem degree_polyOf_lt {n k : Nat} : (polyOf n).degree < k ↔ n < 2 ^ k := by
  rw [degree_lt_iff_coeff_zero]
  refine ⟨fun h => Nat.lt_pow_two_of_testBit n fun i hi => ?_, fun h i hi => ?_⟩
  · simpa using h i hi
  · rw [coeff_polyOf, Nat.testBit_lt_two_pow (h.trans_le (Nat.pow_le_pow_right two_pos hi))]
    rfl

theorem natDegree_polyOf (n : Nat) : (polyOf n).natDegree = n.log2 := by
  rcases eq_or_ne n 0 with rfl | hn
  · simp
  · refine natDegree_eq_of_le_of_coeff_ne_zero ?_ (by simp [Nat.testBit_log2 hn])
    exact Nat.le_of_lt_succ ((natDegree_lt_iff_degree_lt (by simpa using hn)).2 (degree_polyOf_lt.2 Nat.lt_log2_self))

/-- A multiple of a polynomial that is below it in degree is 0. -/
theorem eq_zero_of_polyOf_dvd {d r : Nat} (hdvd : polyOf d ∣ polyOf r) (hr : r < 2 ^ d.log2) : r = 0 := by
  rcases eq_or_ne d 0 with rfl | hd
  · simpa using hdvd
  · refine polyOf_eq_zero.1 (eq_zero_of_dvd_of_degree_lt hdvd ?_)
    rw [degree_eq_natDegree (polyOf_eq_zero.not.2 hd), natDegree_polyOf]
    exact degree_polyOf_lt.2 hr

/-- A divisor of a polynomial has at most its degree. -/
theorem lt_two_pow_of_polyOf_dvd {d p k : Nat} (hdvd : polyOf d ∣ polyOf p) (hp : p ≠ 0) (hlt : p < 2 ^ k) :
    d < 2 ^ k :=
  degree_polyOf_lt.1 ((degree_le_of_dvd hdvd (polyOf_eq_zero.not.2 hp)).trans_lt (degree_polyOf_lt.2 hlt))

/-! ### The carry-less product (44_gf256.md R159) -/

theorem polyOf_foldl_clMul (a b acc k : Nat) :
    polyOf ((List.range k).foldl (fun acc i => if b.testBit i then acc ^^^ a <<< i else acc) acc) =
      polyOf acc + polyOf a * bitSum b k := by
  induction k with
  | zero => simp [bitSum]
  | succ k ih =>
    rw [List.range_succ, List.foldl_append, List.foldl_cons, List.foldl_nil, bitSum_succ, mul_add, ← add_assoc, ← ih]
    split <;> simp

@[simp] theorem polyOf_clMul (a b : Nat) : polyOf (clMul a b) = polyOf a * polyOf b := by
  rw [clMul, polyOf_foldl_clMul, bitSum_eq_polyOf Nat.lt_log2_self, polyOf_zero, zero_add]

/-- Degrees add in a product. -/
theorem log2_add_log2_of_clMul_ne_zero {a b : Nat} (h : clMul a b ≠ 0) :
    a ≠ 0 ∧ b ≠ 0 ∧ a.log2 + b.log2 = (clMul a b).log2 := by
  have hmul : polyOf a * polyOf b ≠ 0 := by
    rwa [← polyOf_clMul, Ne, polyOf_eq_zero]
  obtain ⟨ha, hb⟩ := mul_ne_zero_iff.1 hmul
  refine ⟨polyOf_eq_zero.not.1 ha, polyOf_eq_zero.not.1 hb, ?_⟩
  rw [← natDegree_polyOf, ← natDegree_polyOf, ← natDegree_polyOf, polyOf_clMul, natDegree_mul ha hb]

/-! ### Division with remainder (44_gf256.md R155) -/

/-- The XOR of two numbers with the same top bit has no such bit. -/
theorem xor_lt_of_two_pow_le {a b n : Nat} (hna : 2 ^ n ≤ a) (ha : a < 2 ^ (n + 1)) (hnb : 2 ^ n ≤ b)
    (hb : b < 2 ^ (n + 1)) : a ^^^ b < 2 ^ n := by
  have htop : ∀ {c}, 2 ^ n ≤ c → c < 2 ^ (n + 1) → c.testBit n = true := fun hle hlt =>
    have hne := ((Nat.two_pow_pos n).trans_le hle).ne'
    (Nat.log2_eq_iff hne).2 ⟨hle, hlt⟩ ▸ Nat.testBit_log2 hne
  refine Nat.lt_pow_two_of_testBit _ fun i hi => ?_
  rw [Nat.testBit_xor]
  rcases hi.eq_or_lt with rfl | hlt
  · rw [htop hna ha, htop hnb hb]
    rfl
  · have hle : 2 ^ (n + 1) ≤ 2 ^ i := Nat.pow_le_pow_right two_pos hlt
    rw [Nat.testBit_lt_two_pow (ha.trans_le hle), Nat.testBit_lt_two_pow (hb.trans_le hle)]
    rfl

/-- One subtraction of the long division clears the top bit of the dividend. -/
theorem xor_shiftLeft_lt {p d : Nat} (hd : d ≠ 0) (h : 2 ^ d.log2 ≤ p) :
    p ^^^ d <<< (p.log2 - d.log2) < 2 ^ p.log2 := by
  have hp : p ≠ 0 := ((Nat.two_pow_pos _).trans_le h).ne'
  obtain ⟨k, hk⟩ := Nat.exists_eq_add_of_le ((Nat.le_log2 hp).2 h)
  have hlow := Nat.mul_le_mul_right (2 ^ k) (Nat.log2_self_le hd)
  have hhigh := Nat.mul_lt_mul_of_pos_right (Nat.lt_log2_self (n := d)) (Nat.two_pow_pos k)
  rw [← Nat.pow_add, ← hk] at hlow
  rw [← Nat.pow_add, Nat.add_right_comm, ← hk] at hhigh
  rw [hk, Nat.add_sub_cancel_left, ← hk, Nat.shiftLeft_eq]
  exact xor_lt_of_two_pow_le (Nat.log2_self_le hp) Nat.lt_log2_self hlow hhigh

/-- Every subtraction of the long division keeps quotient times divisor plus remainder. -/
theorem polyOf_polyDivModFuel (d fuel q p : Nat) :
    polyOf (polyDivModFuel d fuel q p).1 * polyOf d + polyOf (polyDivModFuel d fuel q p).2 =
      polyOf q * polyOf d + polyOf p := by
  induction fuel generalizing q p with
  | zero => rfl
  | succ fuel ih =>
    rw [polyDivModFuel]
    split
    · rfl
    · rw [ih, polyOf_xor, polyOf_xor, polyOf_two_pow, polyOf_shiftLeft]
      linear_combination CharTwo.add_self_eq_zero (polyOf d * X ^ (p.log2 - d.log2))

theorem polyDivModFuel_lt {d : Nat} (hd : d ≠ 0) {fuel p : Nat} (hp : p < 2 ^ fuel) (q : Nat) :
    (polyDivModFuel d fuel q p).2 < 2 ^ d.log2 := by
  induction fuel generalizing q p with
  | zero => exact hp.trans_le Nat.one_le_two_pow
  | succ fuel ih =>
    rw [polyDivModFuel]
    split
    next hlt => exact hlt
    next hge =>
      have hp0 : p ≠ 0 := by rintro rfl; exact hge (Nat.two_pow_pos _)
      have hlog : p.log2 ≤ fuel := Nat.le_of_lt_succ ((Nat.log2_lt hp0).2 hp)
      exact ih ((xor_shiftLeft_lt hd (Nat.le_of_not_lt hge)).trans_le (Nat.pow_le_pow_right two_pos hlog)) _

theorem polyOf_polyDivMod (p d : Nat) :
    polyOf (polyDivMod p d).1 * polyOf d + polyOf (polyMod p d) = polyOf p := by
  rw [polyMod, polyDivMod, polyOf_polyDivModFuel, polyOf_zero, zero_mul, zero_add]

/-- The bound of the model's loop is never reached (notes/assumptions/12.md). -/
theorem polyMod_lt {d : Nat} (hd : d ≠ 0) (p : Nat) : polyMod p d < 2 ^ d.log2 :=
  polyDivModFuel_lt hd Nat.lt_log2_self 0

theorem polyMod_eq_zero {p d : Nat} (hd : d ≠ 0) : polyMod p d = 0 ↔ polyOf d ∣ polyOf p := by
  rw [← polyOf_polyDivMod p d, dvd_add_right (dvd_mul_left _ _)]
  exact ⟨fun h => by simp [h], fun h => eq_zero_of_polyOf_dvd h (polyMod_lt hd p)⟩

/-- The quotient by a divisor is its cofactor. -/
theorem clMul_polyDivMod_of_dvd {p d : Nat} (hd : d ≠ 0) (h : polyOf d ∣ polyOf p) :
    clMul (polyDivMod p d).1 d = p := by
  refine polyOf_injective ?_
  rw [polyOf_clMul, ← polyOf_polyDivMod p d, (polyMod_eq_zero hd).2 h, polyOf_zero, add_zero]

end Sys2Proof.Machine
end

section
/-! SUPPORT. The field functions of 44_gf256.md (R157 to R161) in the quotient of the polynomials over GF(2) by `x^8 + m`:
there `gf_mul` is multiplication, for every modulus byte, and a byte is known by its class. -/

namespace Sys2Proof.Machine

open Polynomial

/-! ### The reduction polynomial (44_gf256.md R155) -/

theorem modulusPoly_lt (m : Byte) : modulusPoly m < 2 ^ 9 := by
  have := m.isLt
  unfold modulusPoly
  omega

theorem le_modulusPoly (m : Byte) : 2 ^ 8 ≤ modulusPoly m := Nat.le_add_left _ _

theorem modulusPoly_ne_zero (m : Byte) : modulusPoly m ≠ 0 := ((Nat.two_pow_pos 8).trans_le (le_modulusPoly m)).ne'

theorem log2_modulusPoly (m : Byte) : (modulusPoly m).log2 = 8 :=
  (Nat.log2_eq_iff (modulusPoly_ne_zero m)).2 ⟨le_modulusPoly m, modulusPoly_lt m⟩

theorem modulusPoly_mod (m : Byte) : modulusPoly m % 2 ^ 8 = m.toNat := by
  have := m.isLt
  unfold modulusPoly
  omega

/-- R161: the trial divisions find every divisor of degree 1 to 7. -/
theorem irreducible_iff {m : Byte} :
    irreducible m = true ↔ ∀ d, 2 ≤ d → d < 256 → ¬polyOf d ∣ polyOf (modulusPoly m) := by
  simp only [irreducible, List.all_eq_true, List.mem_range'_1, decide_eq_true_eq, and_imp]
  refine forall_congr' fun d => imp_congr_right fun hd => imp_congr_right fun _ => ?_
  exact (polyMod_eq_zero (by omega)).not

/-! ### Classes modulo the reduction polynomial -/

variable {m : Byte}

/-- The class of a number's polynomial modulo `x^8 + m`. -/
noncomputable def residue (m : Byte) (n : Nat) : AdjoinRoot (polyOf (modulusPoly m)) := AdjoinRoot.mk _ (polyOf n)

theorem residue_xor (a b : Nat) : residue m (a ^^^ b) = residue m a + residue m b := by
  simp [residue]

theorem residue_zero : residue m 0 = 0 := by
  simp [residue]

theorem residue_add_self (a : Nat) : residue m a + residue m a = 0 := by
  rw [← residue_xor, Nat.xor_self, residue_zero]

theorem residue_clMul (a b : Nat) : residue m (clMul a b) = residue m a * residue m b := by
  simp [residue]

theorem residue_one : residue m 1 = 1 := by
  simp [residue]

theorem residue_modulusPoly : residue m (modulusPoly m) = 0 := AdjoinRoot.mk_self

/-- A dividend is its quotient times the divisor plus its remainder. -/
theorem residue_polyDivMod (p d : Nat) :
    residue m p = residue m (polyDivMod p d).1 * residue m d + residue m (polyMod p d) := by
  simp only [residue, ← map_mul, ← map_add, polyOf_polyDivMod]

theorem residue_polyMod (p : Nat) : residue m (polyMod p (modulusPoly m)) = residue m p := by
  rw [residue_polyDivMod p (modulusPoly m), residue_modulusPoly, mul_zero, zero_add]

theorem polyMod_modulusPoly_lt (p : Nat) : polyMod p (modulusPoly m) < 2 ^ 8 :=
  log2_modulusPoly m ▸ polyMod_lt (modulusPoly_ne_zero m) p

/-- A class has at most one number below `x^8`. -/
theorem eq_of_residue_eq {a b : Nat} (ha : a < 2 ^ 8) (hb : b < 2 ^ 8) (h : residue m a = residue m b) : a = b := by
  have hdvd : polyOf (modulusPoly m) ∣ polyOf (a ^^^ b) := by
    rw [polyOf_xor, ← CharTwo.sub_eq_add]
    exact AdjoinRoot.mk_eq_mk.1 h
  exact Nat.xor_eq_zero_iff.1 (eq_zero_of_polyOf_dvd hdvd (log2_modulusPoly m ▸ Nat.xor_lt_two_pow ha hb))

theorem byte_eq_of_residue_eq {a b : Byte} (h : residue m a.toNat = residue m b.toNat) : a = b :=
  BitVec.eq_of_toNat_eq (eq_of_residue_eq a.isLt b.isLt h)

/-! ### `gf_add` and `gf_mul` (44_gf256.md R157, R158) -/

@[simp] theorem residue_gfAdd (a b : Byte) : residue m (gfAdd a b).toNat = residue m a.toNat + residue m b.toNat := by
  rw [gfAdd, BitVec.toNat_xor, residue_xor]

/-- Shifting left and reducing on overflow is a shift whose overflow the reduction polynomial cancels. -/
theorem toNat_gfDouble (a m : Byte) :
    (gfDouble a m).toNat = if a.msb then a.toNat <<< 1 ^^^ modulusPoly m else a.toNat <<< 1 := by
  have ha : a.toNat < 2 ^ 8 := a.isLt
  rw [gfDouble, BitVec.msb_eq_decide]
  by_cases h : 2 ^ 7 ≤ a.toNat
  · have hlt : a.toNat <<< 1 ^^^ modulusPoly m < 2 ^ 8 :=
      xor_lt_of_two_pow_le (by omega) (by omega) (le_modulusPoly m) (modulusPoly_lt m)
    rw [if_pos (by simpa using h), if_pos (by simpa using h), BitVec.toNat_xor, BitVec.toNat_shiftLeft,
      ← modulusPoly_mod m, ← Nat.xor_mod_two_pow, Nat.mod_eq_of_lt hlt]
  · rw [if_neg (by simpa using h), if_neg (by simpa using h), BitVec.toNat_shiftLeft, Nat.mod_eq_of_lt (by omega)]

theorem residue_gfDouble (a : Byte) :
    residue m (gfDouble a m).toNat = residue m a.toNat * AdjoinRoot.root (polyOf (modulusPoly m)) := by
  have hshift : residue m (a.toNat <<< 1) = residue m a.toNat * AdjoinRoot.root (polyOf (modulusPoly m)) := by
    simp [residue]
  rw [toNat_gfDouble]
  split
  · rw [residue_xor, residue_modulusPoly, add_zero, hshift]
  · exact hshift

/-- Before iteration `i` the loop holds `c` times `x^i` and `c` times the bits of `b` below `i`. -/
theorem residue_gfMulLoop {b p a : Byte} {n i : Nat} {c : AdjoinRoot (polyOf (modulusPoly m))}
    (ha : residue m a.toNat = c * AdjoinRoot.root _ ^ i)
    (hp : residue m p.toNat = c * AdjoinRoot.mk _ (bitSum b.toNat i)) :
    residue m (gfMulLoop b m n i p a).toNat = c * AdjoinRoot.mk _ (bitSum b.toNat (i + n)) := by
  induction n generalizing i p a with
  | zero => exact hp
  | succ n ih =>
    rw [gfMulLoop, Nat.add_comm n 1, ← Nat.add_assoc]
    refine ih (by rw [residue_gfDouble, ha, mul_assoc, pow_succ]) ?_
    rw [bitSum_succ, map_add, mul_add, ← hp, BitVec.getLsbD]
    split
    · rw [BitVec.toNat_xor, residue_xor, ha, map_pow, AdjoinRoot.mk_X]
    · rw [map_zero, mul_zero, add_zero]

/-- R158: the value of `gf_mul` is the product, for every modulus byte. -/
@[simp] theorem residue_gfMul (a b : Byte) : residue m (gfMul a b m).toNat = residue m a.toNat * residue m b.toNat := by
  rw [gfMul, residue_gfMulLoop (c := residue m a.toNat) (by simp) (by simp [bitSum, residue]),
    bitSum_eq_polyOf b.isLt]
  rfl

theorem gfMul_comm (a b m : Byte) : gfMul a b m = gfMul b a m :=
  byte_eq_of_residue_eq (m := m) (by simp [mul_comm])

theorem gfMul_assoc (a b c m : Byte) : gfMul a (gfMul b c m) m = gfMul (gfMul a b m) c m :=
  byte_eq_of_residue_eq (m := m) (by simp [mul_assoc])

theorem gfMul_gfAdd (a b c m : Byte) : gfMul a (gfAdd b c) m = gfAdd (gfMul a b m) (gfMul a c m) :=
  byte_eq_of_residue_eq (m := m) (by simp [mul_add])

theorem gfMul_one (a m : Byte) : gfMul a 1 m = a :=
  byte_eq_of_residue_eq (m := m) (by simp [residue_one])

/-- R158: the value of `gf_mul` is the carry-less product, reduced. -/
theorem toNat_gfMul (a b m : Byte) : (gfMul a b m).toNat = polyMod (clMul a.toNat b.toNat) (modulusPoly m) :=
  eq_of_residue_eq (BitVec.isLt _) (polyMod_modulusPoly_lt _)
    (by rw [residue_gfMul, residue_polyMod, residue_clMul])

/-! ### `gf_pow` (44_gf256.md R160) -/

theorem residue_gfPower (e : Byte) (k : Nat) : residue m (gfPower e m k).toNat = residue m e.toNat ^ k := by
  induction k with
  | zero => exact residue_one
  | succ k ih => rw [gfPower, residue_gfMul, ih, pow_succ]

/-- Square and multiply: each bit of the exponent doubles the power that `e` stands for. -/
theorem residue_gfPowLoop {fuel k : Nat} (hk : k < 2 ^ fuel) (r e : Byte) :
    residue m (gfPowLoop m fuel k r e).toNat = residue m r.toNat * residue m e.toNat ^ k := by
  induction fuel generalizing k r e with
  | zero =>
    obtain rfl : k = 0 := by omega
    rw [gfPowLoop, pow_zero, mul_one]
  | succ fuel ih =>
    rw [gfPowLoop]
    split
    next hzero => rw [hzero, pow_zero, mul_one]
    next =>
      rw [ih (by omega), residue_gfMul, ← pow_two, ← pow_mul]
      split
      next hodd =>
        rw [residue_gfMul, mul_assoc, ← pow_succ', show 2 * (k / 2) + 1 = k by omega]
      next => rw [show 2 * (k / 2) = k by omega]

theorem gfPow_eq_gfPower (e m : Byte) {k : Nat} (hk : k < 2 ^ 32) : gfPow e k m = gfPower e m k :=
  byte_eq_of_residue_eq (m := m) (by
    rw [gfPow, residue_gfPowLoop hk, residue_gfPower]
    exact (congrArg (· * _) residue_one).trans (one_mul _))

/-! ### `gf_inv` (44_gf256.md R159) -/

/-- Euclid's algorithm: the loop's answer times `e` is a common divisor of `r0` and `r1`, up to a multiple of the reduction
polynomial. -/
theorem exists_dvd_and_residue_gfInvLoop {e n r0 r1 s0 s1 : Nat} (hr1 : r1 < 2 ^ n)
    (h0 : residue m r0 = residue m s0 * residue m e) (h1 : residue m r1 = residue m s1 * residue m e) :
    ∃ g, polyOf g ∣ polyOf r0 ∧ polyOf g ∣ polyOf r1 ∧
      residue m g = residue m (gfInvLoop (n + 1) r0 r1 s0 s1) * residue m e := by
  induction n generalizing r0 r1 s0 s1 with
  | zero =>
    obtain rfl : r1 = 0 := by omega
    exact ⟨r0, dvd_rfl, by simp, h0⟩
  | succ n ih =>
    rw [gfInvLoop]
    split
    next hzero => exact ⟨r0, dvd_rfl, by simp [hzero], h0⟩
    next hne =>
      have hrem : polyMod r0 r1 < 2 ^ n := (polyMod_lt hne r0).trans_le
        (Nat.pow_le_pow_right two_pos (Nat.le_of_lt_succ ((Nat.log2_lt hne).2 hr1)))
      have hnext : residue m (polyMod r0 r1) =
          residue m (s0 ^^^ clMul (polyDivMod r0 r1).1 s1) * residue m e := by
        have hdiv := residue_polyDivMod (m := m) r0 r1
        have htwo := residue_add_self (m := m) (clMul (polyDivMod r0 r1).1 r1)
        rw [residue_clMul] at htwo
        rw [residue_xor, residue_clMul]
        linear_combination -htwo - hdiv + h0 + residue m (polyDivMod r0 r1).1 * h1
      obtain ⟨g, hg1, hgrem, hres⟩ := ih hrem h1 hnext
      refine ⟨g, ?_, hg1, hres⟩
      rw [← polyOf_polyDivMod r0 r1]
      exact dvd_add (hg1.mul_left _) hgrem

/-- A common divisor of the reduction polynomial and a nonzero byte has degree at most 7, so irreducibility makes it 1. -/
theorem eq_one_of_dvd_of_irreducible {e g : Nat} (hm : irreducible m = true) (he : e ≠ 0) (helt : e < 256)
    (hgm : polyOf g ∣ polyOf (modulusPoly m)) (hge : polyOf g ∣ polyOf e) : g = 1 := by
  have hg0 : g ≠ 0 := by
    rintro rfl
    exact he (by simpa using hge)
  have hglt : g < 2 ^ 8 := lt_two_pow_of_polyOf_dvd hge he helt
  by_contra hne
  exact irreducible_iff.1 hm g (by omega) hglt hgm

/-- R159: the loop starts from the reduction polynomial and `e`, so it ends with their common divisor 1. -/
theorem gfMul_gfInv {e : Byte} (hm : irreducible m = true) (he : e ≠ 0) : gfMul e (gfInv e m) m = 1 := by
  have he0 : e.toNat ≠ 0 := fun h => he (BitVec.eq_of_toNat_eq h)
  obtain ⟨g, hgm, hge, hres⟩ := exists_dvd_and_residue_gfInvLoop (m := m) (e := e.toNat) (n := 8) (r0 := modulusPoly m)
    (s0 := 0) (s1 := 1) e.isLt (by simp [residue_modulusPoly, residue_zero]) (by simp [residue_one])
  rw [eq_one_of_dvd_of_irreducible hm he0 e.isLt hgm hge] at hres
  refine byte_eq_of_residue_eq (m := m) ?_
  rw [residue_gfMul, gfInv, BitVec.toNat_ofNat, Nat.mod_eq_of_lt (polyMod_modulusPoly_lt _), residue_polyMod, mul_comm,
    ← hres]
  rfl

/-- A byte has at most one inverse. -/
theorem eq_of_gfMul_eq_one {a b b' : Byte} (hb : gfMul a b m = 1) (hb' : gfMul a b' m = 1) : b' = b := by
  calc b' = gfMul b' (gfMul a b m) m := by rw [hb, gfMul_one]
    _ = gfMul (gfMul a b' m) b m := by rw [gfMul_assoc, gfMul_comm b' a]
    _ = b := by rw [hb', gfMul_comm, gfMul_one]

/-! ### Irreducibility (44_gf256.md R161, R162) -/

/-- Two factors of the reduction polynomial have degrees that add up to 8. -/
theorem log2_add_log2_of_clMul_eq_modulusPoly {a b : Nat} (h : clMul a b = modulusPoly m) :
    a ≠ 0 ∧ b ≠ 0 ∧ a.log2 + b.log2 = 8 := by
  rw [← log2_modulusPoly m, ← h]
  exact log2_add_log2_of_clMul_ne_zero (h ▸ modulusPoly_ne_zero m)

/-- R161: the trial divisions fail exactly when the polynomial is a product of two of degree 1 or more. -/
theorem irreducible_eq_false_iff :
    irreducible m = false ↔ ∃ a b : Nat, 2 ≤ a ∧ 2 ≤ b ∧ clMul a b = modulusPoly m := by
  rw [← Bool.not_eq_true, irreducible_iff]
  push Not
  constructor
  · rintro ⟨d, hd, hlt, hdvd⟩
    have hmul := clMul_polyDivMod_of_dvd (by omega) hdvd
    obtain ⟨hq0, hd0, hdeg⟩ := log2_add_log2_of_clMul_eq_modulusPoly hmul
    have hdlog : d.log2 < 8 := (Nat.log2_lt hd0).2 hlt
    exact ⟨_, d, (Nat.le_log2 (k := 1) hq0).1 (by omega), hd, hmul⟩
  · rintro ⟨a, b, ha, hb, hmul⟩
    obtain ⟨ha0, hb0, hdeg⟩ := log2_add_log2_of_clMul_eq_modulusPoly hmul
    have hblog : 1 ≤ b.log2 := (Nat.le_log2 hb0).2 hb
    exact ⟨a, ha, (Nat.log2_lt (k := 8) ha0).1 (by omega), ⟨polyOf b, by rw [← hmul, polyOf_clMul]⟩⟩

/-- R162: the thirty bytes, by the trial divisions of all 256. -/
theorem allIrreducible_eq : allIrreducible =
    [0x1B, 0x1D, 0x2B, 0x2D, 0x39, 0x3F, 0x4D, 0x5F, 0x63, 0x65, 0x69, 0x71, 0x77, 0x7B, 0x87, 0x8B,
      0x8D, 0x9F, 0xA3, 0xA9, 0xB1, 0xBD, 0xC3, 0xCF, 0xD7, 0xDD, 0xE7, 0xF3, 0xF5, 0xF9] := by
  decide +kernel

end Sys2Proof.Machine
end

section
/-! SUPPORT. The six GF commands (44_gf256.md R163 to R168), and the statements about GF(2^8). -/

namespace Sys2Proof.Machine

/-! ### Checks that pass -/

section Operands

variable {s : State} {r r' : Word}

theorem requireSome_byteArg (h : r.toNat ≤ 0xFF) (go : Byte → Result) :
    requireSome (byteArg r) .invalidArg s go = go (r.setWidth 8) := by
  rw [byteArg_of_le h, requireSome_some]

/-- The checks of a command with one operand byte and a modulus. -/
theorem requireSome_byteArg_modulus (h : r.toNat ≤ 0xFF) (h' : r'.toNat ≤ 0xFF)
    (hm : irreducible (r'.setWidth 8) = true) (go : Byte → Byte → Result) :
    (requireSome (byteArg r) .invalidArg s fun e =>
      requireSome (byteArg r') .invalidArg s fun m => requireIrreducible m s fun _ => go e m) =
      go (r.setWidth 8) (r'.setWidth 8) := by
  rw [requireSome_byteArg h, requireSome_byteArg h', requireIrreducible, require_pos hm]

/-- A command that answers the success with a scalar completes with it and touches nothing else. -/
theorem exists_completedPlain_scalar {a : Result} {res : Word} (h : a = succeedScalar res s) :
    ∃ t, a = .next t ∧ CompletedPlain s t res [] :=
  ⟨_, h, completedPlain s res []⟩

/-- A register that holds a byte is that byte, extended again. -/
theorem zext32_setWidth (h : r.toNat ≤ 0xFF) : zext32 (r.setWidth 8) = r := by
  refine BitVec.eq_of_toNat_eq ?_
  rw [zext32, BitVec.toNat_setWidth, BitVec.toNat_setWidth, Nat.mod_eq_of_lt (by omega : r.toNat < 2 ^ 8),
    Nat.mod_eq_of_lt r.isLt]

theorem zext32_gfAdd (a b : Byte) : zext32 (gfAdd a b) = zext32 a ^^^ zext32 b := BitVec.setWidth_xor

end Operands

/-! ### The commands -/

section Commands

variable {s : State}

theorem execGfAdd_completes (h0 : s.arg0.toNat ≤ 0xFF) (h1 : s.arg1.toNat ≤ 0xFF) :
    exec .gfAdd s = succeedScalar (s.arg0 ^^^ s.arg1) s := by
  change execGfAdd s = _
  rw [execGfAdd, requireSome_byteArg h0, requireSome_byteArg h1, zext32_gfAdd, zext32_setWidth h0, zext32_setWidth h1]

theorem execGfMul_completes (h0 : s.arg0.toNat ≤ 0xFF) (h1 : s.arg1.toNat ≤ 0xFF) (h2 : s.arg2.toNat ≤ 0xFF)
    (hm : irreducible (s.arg2.setWidth 8) = true) :
    exec .gfMul s =
      succeedScalar (zext32 (gfMul (s.arg0.setWidth 8) (s.arg1.setWidth 8) (s.arg2.setWidth 8))) s := by
  change execGfMul s = _
  rw [execGfMul, requireSome_byteArg h0, requireSome_byteArg_modulus h1 h2 hm]

theorem execGfInv_completes (h0 : s.arg0.toNat ≤ 0xFF) (h2 : s.arg2.toNat ≤ 0xFF)
    (hm : irreducible (s.arg2.setWidth 8) = true) (hne : s.arg0.setWidth 8 ≠ (0 : Byte)) :
    exec .gfInv s = succeedScalar (zext32 (gfInv (s.arg0.setWidth 8) (s.arg2.setWidth 8))) s := by
  change execGfInv s = _
  rw [execGfInv, requireSome_byteArg_modulus h0 h2 hm, require_pos hne]

theorem execGfPow_completes (h0 : s.arg0.toNat ≤ 0xFF) (h2 : s.arg2.toNat ≤ 0xFF)
    (hm : irreducible (s.arg2.setWidth 8) = true) :
    exec .gfPow s = succeedScalar (zext32 (gfPow (s.arg0.setWidth 8) s.arg1.toNat (s.arg2.setWidth 8))) s :=
  requireSome_byteArg_modulus h0 h2 hm _

theorem execGfIsIrred_completes (h0 : s.arg0.toNat ≤ 0xFF) :
    exec .gfIsIrred s = succeedScalar (if irreducible (s.arg0.setWidth 8) then 1 else 0) s :=
  requireSome_byteArg h0 _

end Commands

/-! ### Obligations -/

/-- Settles O28: the loop keeps the product's class modulo `x^8 + m`, and a class has one byte. -/
theorem gfMulIsPolynomialProduct : Obligations.GfMulIsPolynomialProduct := by
  unfold Obligations.GfMulIsPolynomialProduct
  exact toNat_gfMul

/-- Settles O29: the ring laws are those of the polynomials modulo `x^8 + m`, the inverse is what Euclid's algorithm finds. -/
theorem gfFieldLaws : Obligations.GfFieldLaws := by
  unfold Obligations.GfFieldLaws
  exact fun m hm a b c =>
    ⟨gfMul_comm a b m, gfMul_gfAdd a b c m, gfMul_assoc a b c m, gfMul_one a m, gfMul_gfInv hm⟩

/-- Settles O30: `gf_inv` is an inverse, and multiplication by it shows that there is no other. -/
theorem gfInvCompletes : Obligations.GfInvCompletes := by
  unfold Obligations.GfInvCompletes
  intro s h0 h2 hm harg
  have hne : s.arg0.setWidth 8 ≠ (0 : Byte) := (setWidth_eq_zero h0).not.2 harg
  have hinv := gfMul_gfInv hm hne
  obtain ⟨t, ht, hdone⟩ := exists_completedPlain_scalar (execGfInv_completes h0 h2 hm hne)
  exact ⟨t, _, ht, hdone, hinv, fun b' hb' => eq_of_gfMul_eq_one hinv hb'⟩

/-- Settles O31: square and multiply raises to the exponent's power, for every exponent below 2^32. -/
theorem gfPowIsRepeatedProduct : Obligations.GfPowIsRepeatedProduct := by
  unfold Obligations.GfPowIsRepeatedProduct
  intro s h0 h2 hm
  rw [← gfPow_eq_gfPower _ _ s.arg1.isLt]
  exact exists_completedPlain_scalar (execGfPow_completes h0 h2 hm)

/-- Settles O32: the trial divisors are every polynomial of degree 1 to 7, so they meet every factor. -/
theorem gfIsIrredFindsFactors : Obligations.GfIsIrredFindsFactors := by
  unfold Obligations.GfIsIrredFindsFactors
  intro s h0
  obtain ⟨t, ht, hdone⟩ := exists_completedPlain_scalar (execGfIsIrred_completes h0)
  have hpoly : modulusPoly (s.arg0.setWidth 8) = s.arg0.toNat + 0x100 := by
    rw [modulusPoly, BitVec.toNat_setWidth, Nat.mod_eq_of_lt (by omega)]
  refine ⟨t, _, ht, hdone, ?_⟩
  rw [← hpoly, ← irreducible_eq_false_iff]
  cases irreducible (s.arg0.setWidth 8)
  · exact ⟨.inl rfl, by simp⟩
  · exact ⟨.inr rfl, by simp⟩

/-- Settles O27: the operands are bytes, so the checks pass and XOR in 32 bits is XOR of the bytes. -/
theorem gfAddAndMulComplete : Obligations.GfAddAndMulComplete := by
  unfold Obligations.GfAddAndMulComplete
  exact fun s h0 h1 => ⟨exists_completedPlain_scalar (execGfAdd_completes h0 h1),
    fun h2 hm => exists_completedPlain_scalar (execGfMul_completes h0 h1 h2 hm)⟩

/-- Settles O33: the command checks nothing and writes the list of the irreducible bytes. -/
theorem gfListIrredThirtyBytes : Obligations.GfListIrredThirtyBytes := by
  unfold Obligations.GfListIrredThirtyBytes
  rw [← allIrreducible_eq]
  exact fun s => ⟨_, rfl, completedPlain s 30 allIrreducible⟩

end Sys2Proof.Machine
end

section
/-! SUPPORT. The Rijndael S-box of an irreducible modulus (45_rijndael.md R177 to R180): the affine transform and inversion in
the field are one to one, so the S-box is a permutation of the bytes, and the inverse table undoes it. -/

namespace Sys2Proof.Machine

/-! ### The S-box as a function (45_rijndael.md R177, R178) -/

/-- The inverse of the affine transform. -/
def invAffine (b : Byte) : Byte := b.rotateLeft 1 ^^^ b.rotateLeft 3 ^^^ b.rotateLeft 6 ^^^ 0x05

theorem invAffine_affine (b : Byte) : invAffine (affine b) = b := by
  revert b
  decide +kernel

theorem affine_injective : Function.Injective affine := Function.LeftInverse.injective invAffine_affine

theorem gfMul_zero (a m : Byte) : gfMul a 0 m = 0 :=
  byte_eq_of_residue_eq (m := m) (by simp [residue_zero])

section Modulus

variable {m : Byte} (hm : irreducible m = true)
include hm

theorem gfInv_ne_zero {x : Byte} (hx : x ≠ 0) : gfInv x m ≠ 0 := by
  intro h
  have hone := gfMul_gfInv hm hx
  rw [h, gfMul_zero] at hone
  exact absurd hone (by decide)

/-- A byte is the inverse of its inverse, so it is known by it. -/
theorem eq_of_gfInv_eq {x y : Byte} (hx : x ≠ 0) (hy : y ≠ 0) (h : gfInv x m = gfInv y m) : x = y := by
  refine eq_of_gfMul_eq_one (m := m) (a := gfInv y m) ?_ ?_
  · rw [gfMul_comm, gfMul_gfInv hm hy]
  · rw [← h, gfMul_comm, gfMul_gfInv hm hx]

/-- The S-box value of 0 is the affine image of 0, which is the inverse of no byte. -/
theorem sboxAt_ne_sboxAt_zero {x : Byte} (hx : x ≠ 0) : sboxAt m x ≠ sboxAt m 0 := by
  rw [sboxAt, sboxAt, if_neg hx, if_pos rfl]
  exact fun h => gfInv_ne_zero hm hx (affine_injective (a₂ := 0) h)

/-- No two bytes have the same S-box value. -/
theorem sboxAt_injective : Function.Injective (sboxAt m) := by
  intro x y h
  by_cases hx : x = 0
  · by_contra hne
    exact sboxAt_ne_sboxAt_zero hm (fun hy => hne (hx.trans hy.symm)) (hx ▸ h.symm)
  · by_cases hy : y = 0
    · exact absurd (hy ▸ h) (sboxAt_ne_sboxAt_zero hm hx)
    · rw [sboxAt, sboxAt, if_neg hx, if_neg hy] at h
      exact eq_of_gfInv_eq hm hx hy (affine_injective h)

/-- Every byte is an S-box value. -/
theorem sboxAt_surjective : Function.Surjective (sboxAt m) := Finite.surjective_of_injective (sboxAt_injective hm)

end Modulus

/-! ### The two tables (45_rijndael.md R178, R179) -/

/-- A table of 256 entries, read at a byte. -/
theorem getElem?_map_range (f : Nat → Byte) (x : Byte) : ((List.range 256).map f)[x.toNat]? = some (f x.toNat) := by
  rw [List.getElem?_map, List.getElem?_range x.isLt, Option.map_some]

theorem getElem?_sboxTable (m x : Byte) : (sboxTable m)[x.toNat]? = some (sboxAt m x) := by
  rw [sboxTable, getElem?_map_range, BitVec.ofNat_toNat, BitVec.setWidth_eq]

/-- The inverse table holds the place at which a byte stands in the S-box. -/
theorem getElem?_invSboxTable (m y : Byte) :
    (invSboxTable m)[y.toNat]? = some (BitVec.ofNat 8 ((sboxTable m).idxOf y)) := by
  rw [invSboxTable, inverseTable, getElem?_map_range, BitVec.ofNat_toNat, BitVec.setWidth_eq]

theorem lookupByte_eq_of_getElem? {table : Bytes} {x y : Byte} (h : table[x.toNat]? = some y) :
    lookupByte table x = y := by
  rw [lookupByte, List.getD_eq_getElem?_getD, h, Option.getD_some]

@[simp] theorem lookupByte_sboxTable (m x : Byte) : lookupByte (sboxTable m) x = sboxAt m x :=
  lookupByte_eq_of_getElem? (getElem?_sboxTable m x)

theorem mem_sboxTable (m x : Byte) : sboxAt m x ∈ sboxTable m := List.mem_of_getElem? (getElem?_sboxTable m x)

theorem sboxAt_lookupByte_of_mem {m y : Byte} (h : y ∈ sboxTable m) :
    sboxAt m (lookupByte (invSboxTable m) y) = y := by
  have hlt : (sboxTable m).idxOf y < 256 := (List.idxOf_lt_length_iff.2 h).trans_eq (length_sboxTable m)
  have hplace := getElem?_sboxTable m (BitVec.ofNat 8 ((sboxTable m).idxOf y))
  rw [BitVec.toNat_ofNat, Nat.mod_eq_of_lt hlt, List.getElem?_idxOf h] at hplace
  rw [lookupByte_eq_of_getElem? (getElem?_invSboxTable m y)]
  exact (Option.some.inj hplace).symm

section Modulus

variable {m : Byte} (hm : irreducible m = true)
include hm

/-- R179: the S-box undoes its inverse table. -/
theorem sboxAt_lookupByte_invSboxTable (y : Byte) : sboxAt m (lookupByte (invSboxTable m) y) = y := by
  obtain ⟨x, rfl⟩ := sboxAt_surjective hm y
  exact sboxAt_lookupByte_of_mem (mem_sboxTable m x)

/-- R179: the inverse table undoes the S-box. -/
theorem lookupByte_invSboxTable_sboxAt (x : Byte) : lookupByte (invSboxTable m) (sboxAt m x) = x :=
  sboxAt_injective hm (sboxAt_lookupByte_invSboxTable hm _)

theorem getElem?_invSboxTable_sboxAt (x : Byte) : (invSboxTable m)[(sboxAt m x).toNat]? = some x := by
  have hentry := getElem?_invSboxTable m (sboxAt m x)
  rwa [← lookupByte_eq_of_getElem? hentry, lookupByte_invSboxTable_sboxAt hm] at hentry

end Modulus

/-! ### SubBytes (45_rijndael.md R180) -/

theorem subBytes_sboxTable (m : Byte) (st : Bytes) : subBytes (sboxTable m) st = st.map (sboxAt m) := by
  rw [subBytes, funext (lookupByte_sboxTable m)]

/-- Byte `i` after a substitution is the substituted byte `i`. -/
theorem getD_subBytes {table st : Bytes} {i : Nat} (h : i < st.length) :
    (subBytes table st).getD i 0 = lookupByte table (st.getD i 0) := by
  rw [List.getD_eq_getElem _ _ (by rwa [length_subBytes]), List.getD_eq_getElem _ _ h]
  exact List.getElem_map _

/-- InvSubBytes undoes SubBytes. -/
theorem subBytes_invSboxTable_subBytes {m : Byte} (hm : irreducible m = true) (st : Bytes) :
    subBytes (invSboxTable m) (subBytes (sboxTable m) st) = st := by
  rw [subBytes, subBytes, List.map_map]
  exact List.map_id'' (fun x => by simp [lookupByte_invSboxTable_sboxAt hm]) st

end Sys2Proof.Machine
end

section
/-! SUPPORT. The round steps of Rijndael (45_rijndael.md R176, R181 to R184) and its block cipher (R189, R190): the steps cell
by cell of the state matrix, the inverse of each, and so the inverse of a round and of the cipher. -/

namespace Sys2Proof.Machine

/-! ### The cells of a state (45_rijndael.md R176) -/

/-- Two states of whole columns with the same cells are equal. -/
theorem eq_of_cell_eq {a b : Bytes} (hlen : a.length = b.length) (hb : b.length % 4 = 0)
    (h : ∀ r < 4, ∀ c < b.length / 4, cell a r c = cell b r c) : a = b := by
  refine List.ext_getElem hlen fun i hia hib => ?_
  have hi := h (i % 4) (Nat.mod_lt _ (by decide)) (i / 4) (by omega)
  rwa [cell, cell, Nat.mod_add_div, List.getD_eq_getElem _ _ hia, List.getD_eq_getElem _ _ hib] at hi

/-- A cell inside the matrix is a byte inside the string. -/
theorem cell_index_lt {n r c : Nat} (hr : r < 4) (hc : c < n / 4) : r + 4 * c < n := by omega

/-! ### ShiftRows (45_rijndael.md R181) -/

theorem cell_moveRows (src : Nat → Nat → Nat) {st : Bytes} {r c : Nat} (hr : r < 4) (hc : c < st.length / 4) :
    cell (moveRows src st) r c = cell st r (src r c) := by
  have hrow : (r + 4 * c) % 4 = r := by omega
  have hcol : (r + 4 * c) / 4 = c := by omega
  rw [cell, moveRows, List.getD_eq_getElem?_getD, List.getElem?_map, List.getElem?_range (cell_index_lt hr hc),
    Option.map_some, Option.getD_some, hrow, hcol, cell]

theorem cell_shiftRows {st : Bytes} {r c : Nat} (hr : r < 4) (hc : c < st.length / 4) :
    cell (shiftRows st) r c = cell st r ((c + r) % (st.length / 4)) :=
  cell_moveRows _ hr hc

theorem cell_invShiftRows {st : Bytes} {r c : Nat} (hr : r < 4) (hc : c < st.length / 4) :
    cell (invShiftRows st) r c = cell st r ((c + st.length / 4 - r) % (st.length / 4)) :=
  cell_moveRows _ hr hc

/-- Right by `r` and then left by `r` is where one began, in a row at least `r` long. -/
theorem mod_shift_right_left {nb r c : Nat} (hr : r ≤ nb) (hc : c < nb) : ((c + nb - r) % nb + r) % nb = c := by
  rw [Nat.mod_add_mod, Nat.sub_add_cancel (by omega), Nat.add_mod_right, Nat.mod_eq_of_lt hc]

theorem mod_shift_left_right {nb r c : Nat} (hr : r ≤ nb) (hc : c < nb) : ((c + r) % nb + nb - r) % nb = c := by
  rw [Nat.add_sub_assoc hr, Nat.mod_add_mod, Nat.add_assoc, Nat.add_sub_cancel' hr, Nat.add_mod_right,
    Nat.mod_eq_of_lt hc]

/-- R181: InvShiftRows moves row `r` right by `r`. -/
theorem cell_invShiftRows_shifted {st : Bytes} (hst : rijSize st.length) {r c : Nat} (hr : r < 4)
    (hc : c < st.length / 4) : cell (invShiftRows st) r ((c + r) % (st.length / 4)) = cell st r c := by
  have hnb : r ≤ st.length / 4 := by rcases hst with h | h | h <;> omega
  rw [cell_invShiftRows hr (Nat.mod_lt _ (by omega)), mod_shift_left_right hnb hc]

/-- InvShiftRows undoes ShiftRows. -/
theorem invShiftRows_shiftRows {st : Bytes} (hst : rijSize st.length) : invShiftRows (shiftRows st) = st := by
  refine eq_of_cell_eq (by simp) (by rcases hst with h | h | h <;> omega) fun r hr c hc => ?_
  have hnb : r ≤ st.length / 4 := by rcases hst with h | h | h <;> omega
  rw [cell_invShiftRows hr (by simpa using hc), length_shiftRows, cell_shiftRows hr (Nat.mod_lt _ (by omega)),
    mod_shift_right_left hnb hc]

/-! ### Columns (45_rijndael.md R182: "each column is independent of the others") -/

theorem cell_mapColumns {f : Byte → Byte → Byte → Byte → Bytes} (hf : ∀ a b c d, (f a b c d).length = 4) {st : Bytes}
    {r c : Nat} (hr : r < 4) (hc : c < st.length / 4) :
    cell (mapColumns f st) r c = (f (cell st 0 c) (cell st 1 c) (cell st 2 c) (cell st 3 c)).getD r 0 := by
  induction st using mapColumns.induct generalizing c with
  | case1 s0 s1 s2 s3 rest ih =>
    rw [cell, mapColumns]
    cases c with
    | zero => exact List.getD_append _ _ _ _ (by rw [hf]; omega)
    | succ c =>
      have hoffset : r + 4 * (c + 1) - (f s0 s1 s2 s3).length = r + 4 * c := by rw [hf]; omega
      rw [List.getD_append_right _ _ _ _ (by rw [hf]; omega), hoffset]
      exact ih (by simp only [List.length_cons] at hc; omega)
  | case2 st hshort =>
    match st, hshort with
    | [], _ | [_], _ | [_, _], _ | [_, _, _], _ => simp at hc
    | a :: b :: c :: d :: rest, hshort => exact absurd rfl (hshort a b c d rest)

/-- A column function that undoes another one undoes it on every column. -/
theorem mapColumns_mapColumns {f g : Byte → Byte → Byte → Byte → Bytes}
    (h : ∀ a b c d rest, mapColumns g (f a b c d ++ rest) = a :: b :: c :: d :: mapColumns g rest) {st : Bytes}
    (hst : st.length % 4 = 0) : mapColumns g (mapColumns f st) = st := by
  induction st using mapColumns.induct with
  | case1 s0 s1 s2 s3 rest ih =>
    rw [mapColumns, h, ih (by simp only [List.length_cons] at hst; omega)]
  | case2 st hshort =>
    match st, hshort with
    | [], _ => rfl
    | [_], _ | [_, _], _ | [_, _, _], _ => simp at hst
    | a :: b :: c :: d :: rest, hshort => exact absurd rfl (hshort a b c d rest)

/-! ### MixColumns (45_rijndael.md R182, R183) -/

/-- The cell that MixColumns puts in the row of `a`, where `b`, `c` and `d` follow `a` in the column, cyclically. -/
def mixCell (m a b c d : Byte) : Byte := gfMul 2 a m ^^^ gfMul 3 b m ^^^ c ^^^ d

/-- The same for InvMixColumns. -/
def invMixCell (m a b c d : Byte) : Byte := gfMul 14 a m ^^^ gfMul 11 b m ^^^ gfMul 13 c m ^^^ gfMul 9 d m

/-- Each row of the circulant matrix is the row above it, moved right by one. -/
theorem mixColumn_eq (m a b c d : Byte) :
    mixColumn m a b c d = [mixCell m a b c d, mixCell m b c d a, mixCell m c d a b, mixCell m d a b c] := by
  simp only [mixColumn, mixCell]
  ac_rfl

theorem invMixColumn_eq (m a b c d : Byte) :
    invMixColumn m a b c d =
      [invMixCell m a b c d, invMixCell m b c d a, invMixCell m c d a b, invMixCell m d a b c] := by
  simp only [invMixColumn, invMixCell]
  ac_rfl

theorem cell_mixColumns (m : Byte) {st : Bytes} {r c : Nat} (hr : r < 4) (hc : c < st.length / 4) :
    cell (mixColumns m st) r c =
      mixCell m (cell st r c) (cell st ((r + 1) % 4) c) (cell st ((r + 2) % 4) c) (cell st ((r + 3) % 4) c) := by
  rw [mixColumns, cell_mapColumns (fun _ _ _ _ => rfl) hr hc, mixColumn_eq]
  interval_cases r <;> rfl

theorem cell_invMixColumns (m : Byte) {st : Bytes} {r c : Nat} (hr : r < 4) (hc : c < st.length / 4) :
    cell (invMixColumns m st) r c =
      invMixCell m (cell st r c) (cell st ((r + 1) % 4) c) (cell st ((r + 2) % 4) c) (cell st ((r + 3) % 4) c) := by
  rw [invMixColumns, cell_mapColumns (fun _ _ _ _ => rfl) hr hc, invMixColumn_eq]
  interval_cases r <;> rfl

section Residues

variable {m : Byte}

/-- The class of the polynomial `x` modulo `x^8 + m`. -/
noncomputable def residueX (m : Byte) : AdjoinRoot (polyOf (modulusPoly m)) := AdjoinRoot.root _

theorem residue_two_pow (k : Nat) : residue m (2 ^ k) = residueX m ^ k := by
  simp [residue, residueX]

theorem residue_two : residue m 2 = residueX m := by
  simpa using residue_two_pow (m := m) 1

theorem residue_two_eq_zero : (2 : AdjoinRoot (polyOf (modulusPoly m))) = 0 := by
  have h := residue_add_self (m := m) 1
  rwa [residue_one, one_add_one_eq_two] at h

/-- The constants of both matrices as polynomials. -/
theorem residue_constants :
    residue m (2 : Byte).toNat = residueX m ∧ residue m (3 : Byte).toNat = residueX m + 1 ∧
    residue m (9 : Byte).toNat = residueX m ^ 3 + 1 ∧ residue m (11 : Byte).toNat = residueX m ^ 3 + residueX m + 1 ∧
    residue m (13 : Byte).toNat = residueX m ^ 3 + residueX m ^ 2 + 1 ∧
    residue m (14 : Byte).toNat = residueX m ^ 3 + residueX m ^ 2 + residueX m := by
  have h3 : (3 : Byte).toNat = 2 ^^^ 1 := rfl
  have h9 : (9 : Byte).toNat = 2 ^ 3 ^^^ 1 := rfl
  have h11 : (11 : Byte).toNat = 2 ^ 3 ^^^ 2 ^^^ 1 := rfl
  have h13 : (13 : Byte).toNat = 2 ^ 3 ^^^ 2 ^ 2 ^^^ 1 := rfl
  have h14 : (14 : Byte).toNat = 2 ^ 3 ^^^ 2 ^ 2 ^^^ 2 := rfl
  refine ⟨residue_two, ?_, ?_, ?_, ?_, ?_⟩ <;>
    simp only [h3, h9, h11, h13, h14, residue_xor, residue_two_pow, residue_two, residue_one]

theorem residue_xor_byte (a b : Byte) : residue m (a ^^^ b).toNat = residue m a.toNat + residue m b.toNat :=
  residue_gfAdd a b

theorem residue_mixCell (a b c d : Byte) :
    residue m (mixCell m a b c d).toNat =
      residueX m * residue m a.toNat + (residueX m + 1) * residue m b.toNat + residue m c.toNat + residue m d.toNat := by
  obtain ⟨h2, h3, -⟩ := residue_constants (m := m)
  simp only [mixCell, residue_xor_byte, residue_gfMul, h2, h3]

theorem residue_invMixCell (a b c d : Byte) :
    residue m (invMixCell m a b c d).toNat =
      (residueX m ^ 3 + residueX m ^ 2 + residueX m) * residue m a.toNat +
      (residueX m ^ 3 + residueX m + 1) * residue m b.toNat +
      (residueX m ^ 3 + residueX m ^ 2 + 1) * residue m c.toNat + (residueX m ^ 3 + 1) * residue m d.toNat := by
  obtain ⟨-, -, h9, h11, h13, h14⟩ := residue_constants (m := m)
  simp only [invMixCell, residue_xor_byte, residue_gfMul, h9, h11, h13, h14]

/-- Circulant matrices commute. -/
theorem mixCell_invMixCell_comm (m a b c d : Byte) :
    mixCell m (invMixCell m a b c d) (invMixCell m b c d a) (invMixCell m c d a b) (invMixCell m d a b c) =
      invMixCell m (mixCell m a b c d) (mixCell m b c d a) (mixCell m c d a b) (mixCell m d a b c) := by
  refine byte_eq_of_residue_eq (m := m) ?_
  simp only [residue_invMixCell, residue_mixCell]
  ring

/-- R183: in the product of a row of the inverse matrix and a column every coefficient is even, but that of `a` is odd. -/
theorem invMixCell_mixCell (m a b c d : Byte) :
    invMixCell m (mixCell m a b c d) (mixCell m b c d a) (mixCell m c d a b) (mixCell m d a b c) = a := by
  refine byte_eq_of_residue_eq (m := m) ?_
  simp only [residue_invMixCell, residue_mixCell]
  generalize residueX m = x, residue m a.toNat = a, residue m b.toNat = b, residue m c.toNat = c, residue m d.toNat = d
  linear_combination ((x ^ 4 + 2 * x ^ 3 + x ^ 2 + x + 1) * a + (x ^ 4 + 2 * x ^ 3 + 2 * x ^ 2 + x + 1) * b
    + (x ^ 4 + 2 * x ^ 3 + x ^ 2 + 2 * x + 1) * c + (x ^ 4 + 2 * x ^ 3 + x ^ 2 + 2 * x + 1) * d) *
    residue_two_eq_zero (m := m)

theorem mixCell_invMixCell (m a b c d : Byte) :
    mixCell m (invMixCell m a b c d) (invMixCell m b c d a) (invMixCell m c d a b) (invMixCell m d a b c) = a := by
  rw [mixCell_invMixCell_comm, invMixCell_mixCell]

end Residues

/-- InvMixColumns undoes MixColumns, column by column. -/
theorem invMixColumns_mixColumns (m : Byte) {st : Bytes} (hst : st.length % 4 = 0) :
    invMixColumns m (mixColumns m st) = st := by
  refine mapColumns_mapColumns (fun a b c d rest => ?_) hst
  simp only [mixColumn_eq, List.cons_append, List.nil_append, mapColumns, invMixColumn_eq, invMixCell_mixCell]

theorem mixColumns_invMixColumns (m : Byte) {st : Bytes} (hst : st.length % 4 = 0) :
    mixColumns m (invMixColumns m st) = st := by
  refine mapColumns_mapColumns (fun a b c d rest => ?_) hst
  simp only [invMixColumn_eq, List.cons_append, List.nil_append, mapColumns, mixColumn_eq, mixCell_invMixCell]

/-! ### The block cipher (45_rijndael.md R189, R190) -/

/-- The steps of a round before MixColumns: SubBytes and ShiftRows, on which encryption ends and decryption begins. -/
def subShift (table st : Bytes) : Bytes := shiftRows (subBytes table st)

@[simp] theorem length_subShift (table st : Bytes) : (subShift table st).length = st.length := by simp [subShift]

/-- The inverse of these steps. -/
def invSubShift (invTable st : Bytes) : Bytes := subBytes invTable (invShiftRows st)

/-- A middle round of decryption. -/
def rijInvRound (invTable : Bytes) (m : Byte) (st k : Bytes) : Bytes :=
  invMixColumns m (addRoundKey (invSubShift invTable st) k)

theorem rijEncrypt_eq (r : RijInst) (x : Bytes) :
    rijEncrypt r x = addRoundKey (subShift r.sbox
      ((List.range' 1 (r.nr - 1)).foldl (fun st i => rijRound r.sbox r.m st (r.roundKey i))
        (addRoundKey x (r.roundKey 0)))) (r.roundKey r.nr) := rfl

theorem rijDecrypt_eq (r : RijInst) (y : Bytes) :
    rijDecrypt r y = addRoundKey (invSubShift r.invSbox
      ((List.range' 1 (r.nr - 1)).reverse.foldl (fun st i => rijInvRound r.invSbox r.m st (r.roundKey i))
        (addRoundKey y (r.roundKey r.nr)))) (r.roundKey 0) := rfl

theorem invSubShift_subShift {m : Byte} (hm : irreducible m = true) {st : Bytes} (hst : rijSize st.length) :
    invSubShift (invSboxTable m) (subShift (sboxTable m) st) = st := by
  rw [invSubShift, subShift, invShiftRows_shiftRows (by rwa [length_subBytes]), subBytes_invSboxTable_subBytes hm]

/-- AddRoundKey undoes itself. -/
theorem addRoundKey_addRoundKey {st k : Bytes} (h : k.length = st.length) : addRoundKey (addRoundKey st k) k = st :=
  xorBytes_xorBytes_cancel h.ge

theorem rijInvRound_subShift_rijRound {m : Byte} (hm : irreducible m = true) {st k : Bytes} (hst : rijSize st.length)
    (hk : k.length = st.length) :
    rijInvRound (invSboxTable m) m (subShift (sboxTable m) (rijRound (sboxTable m) m st k)) k =
      subShift (sboxTable m) st := by
  have hround : rijSize (rijRound (sboxTable m) m st k).length := by rwa [length_rijRound hst hk]
  have hmul : st.length % 4 = 0 := by rcases hst with h | h | h <;> omega
  rw [rijInvRound, invSubShift_subShift hm hround, rijRound, addRoundKey_addRoundKey (by simp [hk, rijSize_div_mul hst])]
  exact invMixColumns_mixColumns m (by simpa using hmul)

/-- The middle rounds of decryption, in the opposite order, undo those of encryption. -/
theorem foldl_rijInvRound_foldl_rijRound {m : Byte} (hm : irreducible m = true) {key : Nat → Bytes} {l : List Nat}
    {st : Bytes} (hst : rijSize st.length) (hkey : ∀ i ∈ l, (key i).length = st.length) :
    l.reverse.foldl (fun st i => rijInvRound (invSboxTable m) m st (key i))
      (subShift (sboxTable m) (l.foldl (fun st i => rijRound (sboxTable m) m st (key i)) st)) =
    subShift (sboxTable m) st := by
  induction l generalizing st with
  | nil => rfl
  | cons i l ih =>
    obtain ⟨hi, hl⟩ := List.forall_mem_cons.1 hkey
    have hlen : (rijRound (sboxTable m) m st (key i)).length = st.length := length_rijRound hst hi
    rw [List.foldl_cons, List.reverse_cons, List.foldl_append, ih (by rwa [hlen]) (by rwa [hlen]), List.foldl_cons,
      List.foldl_nil, rijInvRound_subShift_rijRound hm hst hi]

theorem length_foldl_rijRound {table : Bytes} {m : Byte} {key : Nat → Bytes} {l : List Nat} {st : Bytes}
    (hst : rijSize st.length) (hkey : ∀ i ∈ l, (key i).length = st.length) :
    (l.foldl (fun st i => rijRound table m st (key i)) st).length = st.length := by
  induction l generalizing st with
  | nil => rfl
  | cons i l ih =>
    obtain ⟨hi, hl⟩ := List.forall_mem_cons.1 hkey
    have hlen : (rijRound table m st (key i)).length = st.length := length_rijRound hst hi
    rw [List.foldl_cons, ih (by rwa [hlen]) (by rwa [hlen]), hlen]

/-! ### Obligations -/

/-- Settles O46: both products of the circulant matrices are the identity, since all their other coefficients are even. -/
theorem mixColumnsInverse : Obligations.MixColumnsInverse := by
  unfold Obligations.MixColumnsInverse
  exact fun m st hst => ⟨invMixColumns_mixColumns m hst, mixColumns_invMixColumns m hst⟩

/-- Settles O49: the last round key cancels, each middle round of decryption undoes one of encryption, and the first round
key cancels. -/
theorem rijndaelRoundTrip : Obligations.RijndaelRoundTrip := by
  unfold Obligations.RijndaelRoundTrip
  intro r x hok hkeyed hx
  obtain ⟨hbs, -, hm, hnr, -, -, hsbox, hinv⟩ := hok.1 hkeyed
  have hkey : ∀ i ≤ r.nr, (r.roundKey i).length = x.length := fun i hi => (r.length_roundKey hok hkeyed hi).trans hx.symm
  have hfirst : (addRoundKey x (r.roundKey 0)).length = x.length := by simp [addRoundKey, hkey 0 (Nat.zero_le _)]
  have hsize : rijSize (addRoundKey x (r.roundKey 0)).length := by rwa [hfirst, hx]
  have hmid : ∀ i ∈ List.range' 1 (r.nr - 1), (r.roundKey i).length = (addRoundKey x (r.roundKey 0)).length := by
    intro i hi
    rw [hfirst]
    exact hkey i (by simp at hi; omega)
  have hlast := (length_foldl_rijRound (table := r.sbox) (m := r.m) hsize hmid).trans hfirst
  rw [rijDecrypt_eq, rijEncrypt_eq, addRoundKey_addRoundKey (by rw [length_subShift, hlast, hkey _ le_rfl]), hsbox, hinv,
    foldl_rijInvRound_foldl_rijRound hm hsize hmid, invSubShift_subShift hm hsize,
    addRoundKey_addRoundKey (hkey 0 (Nat.zero_le _))]

end Sys2Proof.Machine
end

section
/-! SUPPORT. The Rijndael key schedule (45_rijndael.md R185 to R187) word by word: the words that the expansion makes, newest
first, are in their order the 4-byte words of the round keys, and each is made from the word before it and the word one key
length back. -/

namespace Sys2Proof.Machine

/-! ### Words of a byte string -/

/-- Word `i` of a byte string, its bytes `4i` to `4i + 3`. -/
def wordAt (d : Bytes) (i : Nat) : Bytes := (d.drop (4 * i)).take 4

/-- The words of a row of 4-byte strings are these strings. -/
theorem wordAt_flatten {l : List Bytes} (h : ∀ w ∈ l, w.length = 4) {i : Nat} (hi : i < l.length) :
    wordAt l.flatten i = l.getD i [] := by
  induction l generalizing i with
  | nil => simp at hi
  | cons w l ih =>
    obtain ⟨hw, hl⟩ := List.forall_mem_cons.1 h
    rw [List.flatten_cons, wordAt]
    cases i with
    | zero => exact List.take_left' hw
    | succ i =>
      rw [Nat.mul_succ, Nat.add_comm, ← List.drop_drop, List.drop_left' hw, List.getD_cons_succ]
      exact ih hl (Nat.lt_of_succ_lt_succ hi)

theorem getD_pieces_four {n i : Nat} (d : Bytes) (hi : i < n) : (pieces 4 n d).getD i [] = wordAt d i := by
  induction n generalizing d i with
  | zero => omega
  | succ n ih =>
    rw [pieces]
    cases i with
    | zero => rfl
    | succ i => rw [List.getD_cons_succ, ih _ (by omega), wordAt, wordAt, List.drop_drop, Nat.mul_succ, Nat.add_comm]

/-- What is put in front of a list comes after it when both are reversed. -/
theorem getD_reverse_of_suffix {l l' : List Bytes} (h : l <:+ l') {j : Nat} (hj : j < l.length) :
    l'.reverse.getD j [] = l.reverse.getD j [] := by
  obtain ⟨new, rfl⟩ := h
  rw [List.reverse_append]
  exact List.getD_append _ _ _ _ (by rwa [List.length_reverse])

/-! ### The expansion (45_rijndael.md R185, R187) -/

/-- What the word before word `i` goes through on its way into word `i`. -/
def scheduleCore (table : Bytes) (m : Byte) (nk i : Nat) (t : Bytes) : Bytes :=
  if i % nk = 0 then xorBytes (subBytes table (rotWord t)) (roundConstant m nk i)
  else if 6 < nk ∧ i % nk = 4 then subBytes table t
  else t

theorem nextWord_eq (table : Bytes) (m : Byte) (nk i : Nat) (before : List Bytes) :
    nextWord table m nk i before =
      xorBytes (before.getD (nk - 1) []) (scheduleCore table m nk i (before.headD [])) := rfl

section Expansion

variable {table : Bytes} {m : Byte} {nk : Nat} {before : List Bytes}

/-- The newest word is made last, from all the words before it. -/
theorem expandWords_succ (n i : Nat) (before : List Bytes) :
    expandWords table m nk (n + 1) i before =
      nextWord table m nk (i + n) (expandWords table m nk n i before) :: expandWords table m nk n i before := by
  induction n generalizing i before with
  | zero => rfl
  | succ n ih => rw [expandWords, ih, expandWords, Nat.add_assoc, Nat.add_comm 1 n]

/-- The words stay when more are made, which are put in front of them. -/
theorem expandWords_suffix {a n : Nat} (h : a ≤ n) (i : Nat) (before : List Bytes) :
    expandWords table m nk a i before <:+ expandWords table m nk n i before := by
  induction h with
  | refl => exact List.suffix_rfl
  | step _ ih =>
    rw [expandWords_succ]
    exact ih.trans (List.suffix_cons _ _)

theorem length_expandWords (n i : Nat) (before : List Bytes) :
    (expandWords table m nk n i before).length = n + before.length := by
  induction n with
  | zero => simp [expandWords]
  | succ n ih => rw [expandWords_succ, List.length_cons, ih, Nat.add_right_comm]

/-- The first words are the given ones. -/
theorem getD_reverse_expandWords_of_lt (n i : Nat) {j : Nat} (hj : j < before.length) :
    (expandWords table m nk n i before).reverse.getD j [] = before.reverse.getD j [] :=
  getD_reverse_of_suffix (expandWords_suffix (Nat.zero_le n) i before) hj

/-- Each later word is made from the word before it and the word `nk` back. -/
theorem getD_reverse_expandWords_of_le (hnk : 1 ≤ nk) (hlen : before.length = nk) {n j : Nat} (hj : nk ≤ j)
    (hjn : j < n + nk) :
    (expandWords table m nk n nk before).reverse.getD j [] =
      xorBytes ((expandWords table m nk n nk before).reverse.getD (j - nk) [])
        (scheduleCore table m nk j ((expandWords table m nk n nk before).reverse.getD (j - 1) [])) := by
  obtain ⟨a, rfl⟩ := Nat.exists_eq_add_of_le hj
  have hcount : (expandWords table m nk a nk before).length = a + nk := by rw [length_expandWords, hlen]
  have hold : ∀ k < a + nk, (expandWords table m nk n nk before).reverse.getD k [] =
      (expandWords table m nk a nk before).getD (a + nk - 1 - k) [] := by
    intro k hk
    rw [getD_reverse_of_suffix (expandWords_suffix (a := a) (by omega) nk before) (by rwa [hcount]),
      List.getD_reverse _ (by rwa [hcount]), hcount]
  have hnew : (expandWords table m nk n nk before).reverse.getD (nk + a) [] =
      nextWord table m nk (nk + a) (expandWords table m nk a nk before) := by
    rw [getD_reverse_of_suffix (expandWords_suffix (a := a + 1) (by omega) nk before)
        (by rw [length_expandWords]; omega), expandWords_succ, List.reverse_cons,
      List.getD_append_right _ _ _ _ (by rw [List.length_reverse, hcount]; omega), List.length_reverse, hcount,
      Nat.add_comm a nk, Nat.sub_self, List.getD_cons_zero]
  have hback : a + nk - 1 - (nk + a - nk) = nk - 1 := by omega
  have hprev : a + nk - 1 - (nk + a - 1) = 0 := by omega
  rw [hnew, hold _ (by omega), hold _ (by omega), hback, hprev, nextWord_eq, List.headD_eq_getD]

end Expansion
/-! ### The round keys (45_rijndael.md R185) -/

/-- The words of the schedule in their order. -/
def scheduleWords (table key : Bytes) (bs : Nat) (m : Byte) : List Bytes :=
  (expandWords table m (key.length / 4) (bs / 4 * (rijRounds bs key.length + 1) - key.length / 4) (key.length / 4)
    (pieces 4 (key.length / 4) key).reverse).reverse

section Schedule

variable {table key : Bytes} {bs : Nat} {m : Byte}

theorem rijKeygen_eq : rijKeygen table key bs m =
    pieces bs (rijRounds bs key.length + 1) (scheduleWords table key bs m).flatten := rfl

variable (hbs : rijSize bs) (hks : rijSize key.length)
include hks

theorem one_le_keyWords : 1 ≤ key.length / 4 := by rcases hks with h | h | h <;> omega

theorem length_of_mem_scheduleWords : ∀ w ∈ scheduleWords table key bs m, w.length = 4 := by
  intro w hw
  refine (length_of_mem_expandWords (one_le_keyWords hks) _ _ (fun w hw => ?_) (by simp)).1 w (List.mem_reverse.1 hw)
  exact length_of_mem_pieces (by omega) w (List.mem_reverse.1 hw)

include hbs

theorem keyWords_le : key.length / 4 ≤ bs / 4 * (rijRounds bs key.length + 1) := by
  unfold rijRounds
  rcases hbs with h | h | h <;> rcases hks with h' | h' | h' <;> simp [h, h']

theorem length_scheduleWords :
    (scheduleWords table key bs m).length = bs / 4 * (rijRounds bs key.length + 1) := by
  have hle := keyWords_le hbs hks
  rw [scheduleWords, List.length_reverse, length_expandWords, List.length_reverse, length_pieces]
  omega

/-- The round keys are the words, cut at the block size. -/
theorem flatten_rijKeygen : (rijKeygen table key bs m).flatten = (scheduleWords table key bs m).flatten := by
  have hfour : 4 * (bs / 4) = bs := by rw [Nat.mul_comm, rijSize_div_mul hbs]
  have hlen : (scheduleWords table key bs m).flatten.length = bs * (rijRounds bs key.length + 1) := by
    rw [length_flatten_of_forall (length_of_mem_scheduleWords hks), length_scheduleWords hbs hks, ← Nat.mul_assoc, hfour]
  rw [rijKeygen_eq, flatten_pieces hlen.le]

/-- Word `i` of the round keys is word `i` of the schedule. -/
theorem wordAt_flatten_rijKeygen {i : Nat} (hi : i < bs / 4 * (rijRounds bs key.length + 1)) :
    wordAt (rijKeygen table key bs m).flatten i = (scheduleWords table key bs m).getD i [] := by
  rw [flatten_rijKeygen hbs hks, wordAt_flatten (length_of_mem_scheduleWords hks) (by rwa [length_scheduleWords hbs hks])]

/-- R185: the first words are the key. -/
theorem wordAt_rijKeygen_of_lt {i : Nat} (hi : i < key.length / 4) :
    wordAt (rijKeygen table key bs m).flatten i = wordAt key i := by
  rw [wordAt_flatten_rijKeygen hbs hks (hi.trans_le (keyWords_le hbs hks)), scheduleWords,
    getD_reverse_expandWords_of_lt _ _ (by simpa using hi), List.reverse_reverse, getD_pieces_four key hi]

/-- R185, R187: the recurrence. -/
theorem wordAt_rijKeygen_of_le {i : Nat} (hi : key.length / 4 ≤ i) (hlt : i < bs / 4 * (rijRounds bs key.length + 1)) :
    wordAt (rijKeygen table key bs m).flatten i =
      xorBytes (wordAt (rijKeygen table key bs m).flatten (i - key.length / 4))
        (scheduleCore table m (key.length / 4) i (wordAt (rijKeygen table key bs m).flatten (i - 1))) := by
  rw [wordAt_flatten_rijKeygen hbs hks hlt, wordAt_flatten_rijKeygen hbs hks (by omega),
    wordAt_flatten_rijKeygen hbs hks (by omega)]
  exact getD_reverse_expandWords_of_le (one_le_keyWords hks) (by simp) hi (by omega)

end Schedule

/-! ### The three forms of the recurrence (45_rijndael.md R186, R187) -/

/-- RotWord, SubWord and the round constant, where the key length divides the place. -/
theorem scheduleCore_rotated {m : Byte} {nk i : Nat} (h : i % nk = 0) (a0 a1 a2 a3 : Byte) :
    scheduleCore (sboxTable m) m nk i [a0, a1, a2, a3] =
      [sboxAt m a1 ^^^ gfPow 0x02 (i / nk - 1) m, sboxAt m a2, sboxAt m a3, sboxAt m a0] := by
  rw [scheduleCore, if_pos h, subBytes_sboxTable]
  simp [rotWord, roundConstant, xorBytes]

theorem scheduleCore_substituted {m : Byte} {nk i : Nat} (h : i % nk = 4) (hnk : 6 < nk) (t : Bytes) :
    scheduleCore (sboxTable m) m nk i t = t.map (sboxAt m) := by
  rw [scheduleCore, if_neg (by omega), if_pos ⟨hnk, h⟩, subBytes_sboxTable]

theorem scheduleCore_plain {table : Bytes} {m : Byte} {nk i : Nat} (h : i % nk ≠ 0) (h' : ¬(i % nk = 4 ∧ 6 < nk))
    (t : Bytes) : scheduleCore table m nk i t = t := by
  rw [scheduleCore, if_neg h, if_neg fun hc => h' hc.symm]

/-! ### Obligation -/

/-- Settles O47: the schedule is the words of the expansion, whose recurrence has three forms. -/
theorem rijKeyExpansionRecurrence : Obligations.RijKeyExpansionRecurrence := by
  unfold Obligations.RijKeyExpansionRecurrence
  rintro key bs nk nb nr m rk w hbs hks - rfl rfl rfl rfl hw
  obtain rfl : w = wordAt (rijKeygen (sboxTable m) key bs m).flatten := funext hw
  refine ⟨length_rijKeygen _ _ _ _, length_of_mem_rijKeygen hbs hks, fun i hi _ => wordAt_rijKeygen_of_lt hbs hks hi,
    fun i hi hlt => ⟨fun h0 a0 a1 a2 a3 hprev => ?_, fun h4 hnk => ?_, fun h0 h4 => ?_⟩⟩
  · rw [wordAt_rijKeygen_of_le hbs hks hi hlt, hprev, scheduleCore_rotated h0]
  · rw [wordAt_rijKeygen_of_le hbs hks hi hlt, scheduleCore_substituted h4 hnk]
  · rw [wordAt_rijKeygen_of_le hbs hks hi hlt, scheduleCore_plain h0 h4]

end Sys2Proof.Machine
end

section
/-! SUPPORT. The Rijndael commands (45_rijndael.md R191, R195 to R205): what each answers once its checks pass and its operand
bytes hold values. -/

namespace Sys2Proof.Machine

/-! ### Checks that pass and operands that are present -/

/-- A register that holds an extended byte holds that byte. -/
theorem byte_of_eq_setWidth {r : Word} {b : Byte} (h : r = b.setWidth 32) : r.toNat ≤ 0xFF ∧ r.setWidth 8 = b := by
  subst h
  refine ⟨?_, by simp⟩
  have hb := b.isLt
  rw [BitVec.toNat_setWidth, Nat.mod_eq_of_lt (by omega)]
  omega

section Operands

variable {s : State} {m : Byte} (harg : s.arg2 = m.setWidth 32) (hm : irreducible m = true)
include harg

theorem requireSome_byteArg_arg2 (go : Byte → Result) : requireSome (byteArg s.arg2) .invalidArg s go = go m := by
  obtain ⟨hle, hbyte⟩ := byte_of_eq_setWidth harg
  rw [requireSome_byteArg hle, hbyte]

include hm

/-- The checks of a step command, where they all pass. -/
theorem withRijState_completes {st : Bytes} (hlen : rijSize s.len.toNat)
    (hst : s.memRead .ibuf 0 s.len.toNat = some st) (go : Byte → Bytes → Result) : withRijState s go = go m st := by
  rw [withRijState, require_pos hlen, requireSome_byteArg_arg2 harg, requireIrreducible, require_withBytes hm hst]

/-- The checks of a round command, where they all pass. -/
theorem withRijRound_completes {st k : Bytes} (hlen : rijSize s.len.toNat) (hklen : s.klen = s.len)
    (hst : s.memRead .ibuf 0 s.len.toNat = some st) (hk : s.memRead .kbuf 0 s.len.toNat = some k)
    (go : Byte → Bytes → Bytes → Result) : withRijRound s go = go m st k := by
  rw [withRijRound, require_pos ⟨hlen, hklen⟩, requireSome_byteArg_arg2 harg, requireIrreducible,
    require_withBytes_withBytes hm hst hk]

/-- The checks of an S-box lookup, where they all pass. -/
theorem sboxLookup_completes {x : Byte} (hx : s.arg0 = x.setWidth 32) (go : Byte → Byte → Result) :
    (requireSome (byteArg s.arg0) .invalidArg s fun x =>
      requireSome (byteArg s.arg2) .invalidArg s fun m => requireIrreducible m s fun _ => go x m) = go x m := by
  obtain ⟨hle0, rfl⟩ := byte_of_eq_setWidth hx
  obtain ⟨hle2, rfl⟩ := byte_of_eq_setWidth harg
  exact requireSome_byteArg_modulus hle0 hle2 hm go

theorem execRijSetKey_completes {bsc : BitVec 2} {key : Bytes} (hbsc : bsc ≠ 3) (hks : rijSize s.klen.toNat)
    (hkey : s.memRead .kbuf 0 s.klen.toNat = some key) :
    exec (.rijSetKey bsc) s = succeedScalar 0 { s with rij := RijInst.build (16 + 8 * bsc.toNat) m key } := by
  obtain ⟨hle, rfl⟩ := byte_of_eq_setWidth harg
  exact withRijKey_completes hbsc hks hle hm hkey _

end Operands

/-! ### The results -/

/-- The success of RIJ_SETKEY. -/
theorem completed_replace_rij (s : State) (r : RijInst) :
    Completed s ({ s with rij := r }.completed 0 []) 0 [] :=
  completed_of_inputs 0 [] (by constructor <;> intros <;> rfl) fun _ => rfl

theorem zext32_sboxAt (m x : Byte) :
    zext32 (sboxAt m x) = if x = 0 then 0x63 else zext32 (affine (gfInv x m)) := by
  rw [sboxAt, apply_ite zext32]
  rfl

theorem getD_xorBytes {a b : Bytes} {i : Nat} (ha : i < a.length) (hb : i < b.length) :
    (xorBytes a b).getD i 0 = a.getD i 0 ^^^ b.getD i 0 := by
  rw [List.getD_eq_getElem _ _ ha, List.getD_eq_getElem _ _ hb,
    List.getD_eq_getElem _ _ (by rw [length_xorBytes]; exact lt_min ha hb)]
  exact List.getElem_zipWith

/-! ### Obligations -/

/-- Settles O41: the success replaces the Rijndael key state by the built one, whose inverse table undoes its S-box. -/
theorem rijSetKeyBuildsInstance : Obligations.RijSetKeyBuildsInstance := by
  unfold Obligations.RijSetKeyBuildsInstance
  intro bsc s key m hbsc hks harg hm hkey
  have hlen : key.length = s.klen.toNat := Memory.readRange_length hkey
  refine ⟨_, execRijSetKey_completes harg hm hbsc hks hkey, completed_replace_rij s _, rfl, rfl, rfl, rfl, rfl, rfl, hlen,
    rfl, rfl, rfl, length_sboxTable m, length_invSboxTable m, ?_, fun x hx => ?_, fun x y hxy => ?_⟩
  · exact getElem?_sboxTable m 0
  · exact (getElem?_sboxTable m x).trans (by rw [sboxAt, if_neg hx])
  · obtain rfl : sboxAt m x = y := Option.some.inj ((getElem?_sboxTable m x).symm.trans hxy)
    exact getElem?_invSboxTable_sboxAt hm x

/-- Settles O42: the S-box is one to one and onto, so its inverse table holds the one byte asked for. -/
theorem rijSboxLookups : Obligations.RijSboxLookups := by
  unfold Obligations.RijSboxLookups
  intro s x m hx harg hm
  constructor
  · rw [← zext32_sboxAt]
    exact exists_completedPlain_scalar (sboxLookup_completes harg hm hx _)
  · obtain ⟨t, ht, hdone⟩ := exists_completedPlain_scalar (a := exec .rijInvSBox s) (sboxLookup_completes harg hm hx _)
    have hpre := sboxAt_lookupByte_invSboxTable hm x
    exact ⟨t, _, ht, hdone, hpre, fun y' hy' => sboxAt_injective hm (hy'.trans hpre.symm)⟩

/-- Settles O43: both commands map a table over the bytes, and the two tables undo each other. -/
theorem rijSubBytesByteByByte : Obligations.RijSubBytesByteByByte := by
  unfold Obligations.RijSubBytesByteByByte
  intro s st m hlen harg hm hst
  constructor
  · obtain ⟨t, ht, hdone⟩ := exists_completedPlain (r := exec .rijSubBytes s) (withRijState_completes harg hm hlen hst _)
    refine ⟨t, _, ht, hdone, length_subBytes _ _, fun i hi => ?_⟩
    rw [getD_subBytes hi, lookupByte_sboxTable]
  · obtain ⟨t, ht, hdone⟩ := exists_completedPlain (r := exec .rijInvSubBytes s) (withRijState_completes harg hm hlen hst _)
    refine ⟨t, _, ht, hdone, length_subBytes _ _, fun i hi => ?_⟩
    rw [getD_subBytes hi, sboxAt_lookupByte_invSboxTable hm]

/-- Settles O44: a cell of the output is the cell that the shift of its row moves there. -/
theorem rijShiftRowsCellByCell : Obligations.RijShiftRowsCellByCell := by
  unfold Obligations.RijShiftRowsCellByCell
  rintro s st nb hlen rfl hst
  have hbytes : st.length = s.len.toNat := Memory.readRange_length hst
  rw [← hbytes]
  constructor
  · obtain ⟨t, ht, hdone⟩ := exists_completedPlain (r := exec .rijShiftRows s) (require_withBytes hlen hst _ _)
    exact ⟨t, _, ht, hdone, length_shiftRows st, fun r hr c hc => cell_shiftRows hr hc⟩
  · obtain ⟨t, ht, hdone⟩ := exists_completedPlain (r := exec .rijInvShiftRows s) (require_withBytes hlen hst _ _)
    exact ⟨t, _, ht, hdone, length_invShiftRows st, fun r hr c hc => cell_invShiftRows_shifted (hbytes ▸ hlen) hr hc⟩

/-- Settles O45: a cell of the output is one row of the circulant matrix times its column. -/
theorem rijMixColumnsColumnByColumn : Obligations.RijMixColumnsColumnByColumn := by
  unfold Obligations.RijMixColumnsColumnByColumn
  intro s st m hlen harg hm hst
  have hbytes : st.length = s.len.toNat := Memory.readRange_length hst
  have hwhole : st.length / 4 * 4 = st.length := rijSize_div_mul (hbytes ▸ hlen)
  constructor
  · obtain ⟨t, ht, hdone⟩ := exists_completedPlain (r := exec .rijMixColumns s) (withRijState_completes harg hm hlen hst _)
    exact ⟨t, _, ht, hdone, (length_mixColumns m st).trans hwhole, fun c hc r hr => cell_mixColumns m hr (hbytes ▸ hc)⟩
  · obtain ⟨t, ht, hdone⟩ := exists_completedPlain (r := exec .rijInvMixColumns s) (withRijState_completes harg hm hlen hst _)
    exact ⟨t, _, ht, hdone, (length_invMixColumns m st).trans hwhole, fun c hc r hr =>
      cell_invMixColumns m hr (hbytes ▸ hc)⟩

/-- Settles O48: the three commands are the pipelines of the steps, SubBytes being the map of the S-box. -/
theorem rijRoundCommandsComplete : Obligations.RijRoundCommandsComplete := by
  unfold Obligations.RijRoundCommandsComplete
  intro s st k hlen hklen hst hk
  have hbytes : st.length = s.len.toNat := Memory.readRange_length hst
  have hkbytes : k.length = s.len.toNat := Memory.readRange_length hk
  refine ⟨?_, fun m harg hm => ?_⟩
  · obtain ⟨t, ht, hdone⟩ := exists_completedPlain (r := exec .rijAddRoundKey s)
      (require_withBytes_withBytes ⟨hlen, hklen⟩ hst hk _ _)
    refine ⟨t, _, ht, hdone, ?_, fun i hi => getD_xorBytes hi (by omega)⟩
    rw [addRoundKey, length_xorBytes, hbytes, hkbytes, Nat.min_self]
  · rw [← subBytes_sboxTable]
    exact ⟨exists_completedPlain (withRijRound_completes harg hm hlen hklen hst hk _),
      exists_completedPlain (withRijRound_completes harg hm hlen hklen hst hk _)⟩

end Sys2Proof.Machine
end

section
/-! SUPPORT. Byte strings cut into blocks (46_modes_padding.md R216), and the padding unit (R218 to R227): which block a place
holds, which blocks a row of blocks is cut into again, and when a pad is taken off. -/

namespace Sys2Proof.Machine

/-! ### Blocks (46_modes_padding.md R216) -/

theorem getElem?_pieces {size n i : Nat} (d : Bytes) (hi : i < n) :
    (pieces size n d)[i]? = some (blockAt size d i) := by
  induction n generalizing d i with
  | zero => omega
  | succ n ih =>
    rw [pieces]
    cases i with
    | zero => simp [blockAt]
    | succ i =>
      rw [List.getElem?_cons_succ, ih _ (by omega), blockAt, blockAt, List.drop_drop, Nat.succ_mul, Nat.add_comm]

theorem getElem?_blocksOf {bs : Nat} (h : 1 ≤ bs) {d : Bytes} {j : Nat} (hj : j * bs < d.length) :
    (blocksOf bs d)[j]? = some (blockAt bs d j) := by
  refine getElem?_pieces d ((Nat.le_div_iff_mul_le h).2 ?_)
  rw [Nat.succ_mul]
  omega

/-- A block of a string from the block of another one of the same length, where `f` makes the one of the other. -/
theorem blockAt_eq_of_getElem?_blocksOf {bs : Nat} (h : 1 ≤ bs) {d out : Bytes} (hlen : out.length = d.length) {j : Nat}
    (hj : j * bs < d.length) {f : Bytes → Bytes} (hf : (blocksOf bs out)[j]? = (blocksOf bs d)[j]?.map f) :
    blockAt bs out j = f (blockAt bs d j) := by
  rw [getElem?_blocksOf h (hlen ▸ hj), getElem?_blocksOf h hj] at hf
  exact Option.some.inj hf

/-- The block before block `j`, where `iv` stands before the first one. -/
theorem getD_cons_blocksOf {bs : Nat} (h : 1 ≤ bs) {d : Bytes} {j : Nat} (hj : j * bs < d.length) (iv : Bytes) :
    (iv :: blocksOf bs d).getD j [] = if j = 0 then iv else blockAt bs d (j - 1) := by
  cases j with
  | zero => rfl
  | succ j =>
    rw [Nat.succ_mul] at hj
    rw [List.getD_cons_succ, List.getD_eq_getElem?_getD, getElem?_blocksOf h (by omega)]
    rfl

/-- The whole blocks are among the blocks. -/
theorem mul_lt_of_lt_div {j n bs : Nat} (h : j < n / bs) : j * bs < n := by
  contrapose! h
  exact Nat.div_le_of_le_mul (Nat.mul_comm j bs ▸ h)

theorem length_flatten_congr {l l' : List Bytes} (h : l.map List.length = l'.map List.length) :
    l.flatten.length = l'.flatten.length := by
  rw [List.length_flatten, List.length_flatten, h]

/-- A row of strings as long as the pieces of a string is cut into these strings again. -/
theorem pieces_flatten {size n : Nat} {d : Bytes} {l : List Bytes}
    (h : l.map List.length = (pieces size n d).map List.length) : pieces size n l.flatten = l := by
  induction n generalizing d l with
  | zero => exact (List.map_eq_nil_iff.1 h).symm
  | succ n ih =>
    rw [pieces, List.map_cons, List.map_eq_cons_iff] at h
    obtain ⟨b, rest, rfl, hb, hrest⟩ := h
    rw [List.length_take] at hb
    rw [List.flatten_cons, pieces]
    rcases le_total size d.length with hd | hd
    · rw [Nat.min_eq_left hd] at hb
      rw [List.take_left' hb, List.drop_left' hb, ih hrest]
    · have hnil : rest.flatten = [] := by
        rw [← List.length_eq_zero_iff, length_flatten_congr hrest, List.drop_eq_nil_of_le hd, flatten_pieces (by simp)]
        rfl
      have hpieces := ih hrest
      rw [hnil] at hpieces
      rw [hnil, List.append_nil, List.take_of_length_le (by omega), List.drop_eq_nil_of_le (by omega), hpieces]

/-- A row of strings as long as the blocks of a string is as long as that string, and these strings are its blocks. -/
theorem blocksOf_flatten {bs : Nat} (hbs : 1 ≤ bs) {d : Bytes} {l : List Bytes}
    (h : l.map List.length = (blocksOf bs d).map List.length) :
    l.flatten.length = d.length ∧ blocksOf bs l.flatten = l := by
  have hlen : l.flatten.length = d.length := by rw [length_flatten_congr h, flatten_blocksOf hbs]
  exact ⟨hlen, by rw [blocksOf, hlen]; exact pieces_flatten h⟩

/-! ### Pads that end in their length (46_modes_padding.md R219 to R221, R224 to R226) -/

/-- `d` ends in a pad of `n` bytes that passes the check of its scheme. -/
structure EndsInPad (check : Byte → Byte → Bool) (bs : Nat) (d : Bytes) (n : Nat) : Prop where
  pos  : 1 ≤ n
  le   : n ≤ bs
  len  : n ≤ d.length
  last : d.getLast? = some (BitVec.ofNat 8 n)
  body : ((d.drop (d.length - n)).dropLast).all (check (BitVec.ofNat 8 n)) = true

theorem endsInPad_iff_and {check : Byte → Byte → Bool} {bs n : Nat} {d : Bytes} : EndsInPad check bs d n ↔
    1 ≤ n ∧ n ≤ bs ∧ n ≤ d.length ∧ d.getLast? = some (BitVec.ofNat 8 n) ∧
      ((d.drop (d.length - n)).dropLast).all (check (BitVec.ofNat 8 n)) = true :=
  ⟨fun ⟨hpos, hle, hlen, hlast, hbody⟩ => ⟨hpos, hle, hlen, hlast, hbody⟩,
    fun ⟨hpos, hle, hlen, hlast, hbody⟩ => ⟨hpos, hle, hlen, hlast, hbody⟩⟩

section Counted

variable {check : Byte → Byte → Bool} {bs n : Nat} {d : Bytes}

theorem unpadCounted_of_endsInPad (hbs : bs ≤ 255) (h : EndsInPad check bs d n) :
    unpadCounted check bs d = d.take (d.length - n) := by
  obtain ⟨hpos, hle, hlen, hlast, hbody⟩ := h
  have hn : (BitVec.ofNat 8 n).toNat = n := by rw [BitVec.toNat_ofNat, Nat.mod_eq_of_lt (by omega)]
  simp only [unpadCounted, hlast, hn]
  exact if_pos ⟨hpos, hle, hlen, hbody⟩

theorem unpadCounted_of_not_endsInPad (h : ∀ n, ¬EndsInPad check bs d n) : unpadCounted check bs d = d := by
  rw [unpadCounted]
  split
  · rfl
  · next last hlast =>
    refine if_neg fun ⟨hpos, hle, hlen, hbody⟩ => h last.toNat ⟨hpos, hle, hlen, ?_, ?_⟩
    · rw [hlast, BitVec.ofNat_toNat, BitVec.setWidth_eq]
    · rwa [BitVec.ofNat_toNat, BitVec.setWidth_eq]

/-- The check of a pad, byte by byte. -/
theorem all_body_iff (hlen : n ≤ d.length) (p : Byte → Bool) :
    ((d.drop (d.length - n)).dropLast).all p = true ↔
      ∀ i, d.length - n ≤ i → i < d.length - 1 → ∀ b, d[i]? = some b → p b = true := by
  rw [List.all_eq_true]
  constructor
  · intro h i hi hlt b hb
    refine h b (List.mem_of_getElem? (i := i - (d.length - n)) ?_)
    rw [List.getElem?_dropLast, if_pos (by rw [List.length_drop]; omega), List.getElem?_drop, Nat.add_sub_cancel' hi, hb]
  · intro h b hb
    obtain ⟨i, hi⟩ := List.mem_iff_getElem?.1 hb
    rw [List.getElem?_dropLast, List.length_drop] at hi
    split at hi
    · rw [List.getElem?_drop] at hi
      exact h _ (Nat.le_add_right _ _) (by omega) b hi
    · cases hi

/-- A pad of `n` bytes is taken off again. -/
theorem unpadCounted_append {body : Bytes} (hbs : bs ≤ 255) (hpos : 1 ≤ n) (hle : n ≤ bs) (hlen : body.length = n - 1)
    (hbody : body.all (check (BitVec.ofNat 8 n)) = true) :
    unpadCounted check bs (d ++ body ++ [BitVec.ofNat 8 n]) = d := by
  have hcut : (d ++ body ++ [BitVec.ofNat 8 n]).length - n = d.length := by simp; omega
  rw [unpadCounted_of_endsInPad hbs (n := n), hcut, List.append_assoc, List.take_left' rfl]
  refine ⟨hpos, hle, by simp; omega, List.getLast?_concat, ?_⟩
  rw [hcut, List.append_assoc, List.drop_left' rfl, List.dropLast_concat]
  exact hbody

end Counted

/-- The bytes of a pad of `n` bytes before its last one, which is the pad's length. -/
def padBody (scheme : PadScheme) (filler : Nat → Bytes) (n : Nat) : Bytes :=
  match scheme with
  | .zeros | .ansix923 => List.replicate (n - 1) 0
  | .pkcs7 => List.replicate (n - 1) (BitVec.ofNat 8 n)
  | .iso10126 => filler (n - 1)

/-- The check of these bytes, given the last one. -/
def padCheck (scheme : PadScheme) (last b : Byte) : Bool :=
  match scheme with
  | .zeros | .ansix923 => b = 0
  | .pkcs7 => b = last
  | .iso10126 => true

section Schemes

variable {scheme : PadScheme} {bs n : Nat} {filler : Nat → Bytes} {d : Bytes}

theorem length_padBody (hf : ∀ n, (filler n).length = n) : (padBody scheme filler n).length = n - 1 := by
  cases scheme <;> simp [padBody, hf]

theorem all_padBody : (padBody scheme filler n).all (padCheck scheme (BitVec.ofNat 8 n)) = true := by
  cases scheme <;> simp [padBody, padCheck]

/-- Every scheme but Zeros appends the body and the pad's length. -/
theorem padBytes_counted (h : scheme ≠ .zeros) (hbs : 1 ≤ bs) : padBytes scheme bs filler d =
    d ++ padBody scheme filler (padCount bs d.length) ++ [BitVec.ofNat 8 (padCount bs d.length)] := by
  cases scheme with
  | zeros => exact absurd rfl h
  | pkcs7 =>
    obtain ⟨n, hn⟩ := Nat.exists_eq_add_of_le' (padCount_pos hbs d.length).1
    simp only [padBytes, padBody, hn, Nat.add_sub_cancel, List.append_assoc, List.replicate_succ']
  | ansix923 => rfl
  | iso10126 => rfl

/-- Every scheme but Zeros takes off a pad that passes its check. -/
theorem unpadBytes_counted (h : scheme ≠ .zeros) : unpadBytes scheme bs d = unpadCounted (padCheck scheme) bs d := by
  cases scheme with
  | zeros => exact absurd rfl h
  | pkcs7 | ansix923 | iso10126 => rfl

end Schemes

/-! ### Zeros (46_modes_padding.md R218, R223) -/

theorem unpadBytes_zeros_eq (bs : Nat) (d : Bytes) : unpadBytes .zeros bs d = d.rdropWhile fun b => decide (b = 0) := rfl

/-- A run of zero bytes comes off as a whole. -/
theorem unpadBytes_zeros_append_replicate (bs k : Nat) (d : Bytes) :
    unpadBytes .zeros bs (d ++ List.replicate k 0) = unpadBytes .zeros bs d := by
  simp only [unpadBytes, List.reverse_append, List.reverse_replicate]
  rw [List.dropWhile_append_of_pos fun b hb => by simpa using List.eq_of_mem_replicate hb]

theorem unpadBytes_zeros_eq_self (bs : Nat) {d : Bytes} (h : d.getLast? ≠ some 0) : unpadBytes .zeros bs d = d := by
  rw [unpadBytes_zeros_eq, List.rdropWhile_eq_self_iff]
  intro hd hlast
  exact h (by rw [List.getLast?_eq_getLast_of_ne_nil hd, of_decide_eq_true hlast])

/-- Dropping from the end takes off the whole trailing run of what is dropped. -/
theorem exists_rdropWhile_eq_take (p : Byte → Bool) (d : Bytes) :
    ∃ k ≤ d.length, d.rdropWhile p = d.take k ∧ (∀ i, k ≤ i → ∀ b, d[i]? = some b → p b = true) ∧
      (0 < k → ∀ b, d[k - 1]? = some b → p b = false) := by
  have hsplit := List.rdropWhile_append_rtakeWhile (p := p) (l := d)
  have hlast := List.rdropWhile_last_not p d
  have hrun : ∀ b ∈ d.rtakeWhile p, p b = true := fun b => List.mem_rtakeWhile_imp
  generalize d.rdropWhile p = kept, d.rtakeWhile p = run at hsplit hlast hrun
  subst hsplit
  refine ⟨kept.length, by simp, (List.take_left' rfl).symm, fun i hi b hb => ?_, fun hpos b hb => ?_⟩
  · rw [List.getElem?_append_right hi] at hb
    exact hrun b (List.mem_of_getElem? hb)
  · have hne : kept ≠ [] := List.length_pos_iff.1 hpos
    rw [List.getElem?_append_left (by omega), ← List.getLast?_eq_getElem?, List.getLast?_eq_getLast_of_ne_nil hne] at hb
    simpa [Option.some.inj hb] using hlast hne

/-! ### Obligation -/

/-- Settles O59: three schemes append a body and the pad's length, which is the pad that comes off, and Zeros appends a run
of zero bytes, which comes off as a whole. -/
theorem unpadInvertsPad : Obligations.UnpadInvertsPad := by
  unfold Obligations.UnpadInvertsPad
  intro scheme bs filler d hpos hle hfiller hzeros
  by_cases hscheme : scheme = .zeros
  · subst hscheme
    rw [padBytes, unpadBytes_zeros_append_replicate, unpadBytes_zeros_eq_self bs (hzeros rfl)]
  · obtain ⟨hn, hnle⟩ := padCount_pos hpos d.length
    rw [padBytes_counted hscheme hpos, unpadBytes_counted hscheme,
      unpadCounted_append hle hn hnle (length_padBody hfiller) all_padBody]

end Sys2Proof.Machine
end

section
/-! SUPPORT. The chaining modes (46_modes_padding.md R228 to R232) as one loop over the blocks, which a mode's block function and
its feedback make its own: the lengths of the blocks, each block from the one before it, and that decryption undoes
encryption. -/

namespace Sys2Proof.Machine

/-! ### The wrapped cipher (46_modes_padding.md R215) -/

/-- A cipher that maps blocks to blocks, and whose decryption undoes its encryption. -/
structure BlockCipher.WellFormed (c : BlockCipher) : Prop where
  pos     : 1 ≤ c.bs
  le      : c.bs ≤ 32
  encrypt : ∀ b, b.length = c.bs → (c.encrypt b).length = c.bs
  decrypt : ∀ b, b.length = c.bs → (c.decrypt b).length = c.bs
  inverse : ∀ b, b.length = c.bs → c.decrypt (c.encrypt b) = b

theorem cipherOf_wellFormed {s : State} (hs : s.inv) {sel : CipherSel} (hk : (cipherOf s sel).keyed = true) :
    (cipherOf s sel).WellFormed := by
  obtain ⟨hpos, hle, henc, hdec⟩ := cipherOf_ok hs sel hk
  obtain ⟨-, -, -, -, -, hrij, -⟩ := hs
  refine ⟨hpos, hle, henc, hdec, fun b hb => ?_⟩
  cases sel with
  | des => exact desDecrypt_desEncrypt _ hb
  | deal => exact dealDecrypt_dealEncrypt _ _ hb
  | rijndael => exact rijndaelRoundTrip s.rij b hrij hk hb

/-! ### A mode's block function and its feedback -/

/-- What encryption makes of a block `x`, given the feedback `t`. -/
def blockEncrypt (mode : ChainMode) (c : BlockCipher) (t x : Bytes) : Bytes :=
  match mode with
  | .ecb => c.encrypt x
  | .cbc => c.encrypt (xorBytes x t)
  | .cfb | .ofb | .ctr => xorBytes x (c.encrypt t)

/-- What decryption makes of a block `y`, given the feedback `t`. -/
def blockDecrypt (mode : ChainMode) (c : BlockCipher) (t y : Bytes) : Bytes :=
  match mode with
  | .ecb => c.decrypt y
  | .cbc => xorBytes (c.decrypt y) t
  | .cfb | .ofb | .ctr => xorBytes y (c.encrypt t)

/-- The feedback after the ciphertext block `y`. -/
def feedback (mode : ChainMode) (c : BlockCipher) (t y : Bytes) : Bytes :=
  match mode with
  | .ecb => t
  | .cbc | .cfb => y
  | .ofb => c.encrypt t
  | .ctr => counterNext t

/-- The feedback that a mode needs: a block, but for ECB, which looks at none. -/
def IsFeedback (mode : ChainMode) (c : BlockCipher) (t : Bytes) : Prop := mode ≠ .ecb → t.length = c.bs

/-- A block that a mode can process: a whole one, or in the stream modes a short one (46_modes_padding.md R216). -/
def IsBlock (mode : ChainMode) (c : BlockCipher) (x : Bytes) : Prop :=
  x.length ≤ c.bs ∧ (mode.padded = true → x.length = c.bs)

section OneBlock

variable {mode : ChainMode} {c : BlockCipher} {t x : Bytes} (hc : c.WellFormed) (ht : IsFeedback mode c t)
include hc ht

theorem length_blockEncrypt (hx : IsBlock mode c x) : (blockEncrypt mode c t x).length = x.length := by
  obtain ⟨hle, hwhole⟩ := hx
  cases mode with
  | ecb => rw [blockEncrypt, hc.encrypt x (hwhole rfl), hwhole rfl]
  | cbc => rw [blockEncrypt, hc.encrypt _ (by simp [hwhole rfl, ht nofun]), hwhole rfl]
  | cfb | ofb | ctr => simpa [blockEncrypt, hc.encrypt t (ht nofun)] using hle

theorem length_blockDecrypt (hx : IsBlock mode c x) : (blockDecrypt mode c t x).length = x.length := by
  obtain ⟨hle, hwhole⟩ := hx
  cases mode with
  | ecb => rw [blockDecrypt, hc.decrypt x (hwhole rfl), hwhole rfl]
  | cbc => simp [blockDecrypt, hc.decrypt x (hwhole rfl), hwhole rfl, ht nofun]
  | cfb | ofb | ctr => simpa [blockDecrypt, hc.encrypt t (ht nofun)] using hle

theorem isFeedback_feedback (hx : x.length = c.bs) : IsFeedback mode c (feedback mode c t x) := by
  intro hmode
  cases mode with
  | ecb => exact absurd rfl hmode
  | cbc | cfb => exact hx
  | ofb => exact hc.encrypt t (ht hmode)
  | ctr => exact (length_counterNext t).trans (ht hmode)

/-- Decryption of a block undoes its encryption, given the same feedback. -/
theorem blockDecrypt_blockEncrypt (hx : IsBlock mode c x) :
    blockDecrypt mode c t (blockEncrypt mode c t x) = x := by
  obtain ⟨hle, hwhole⟩ := hx
  cases mode with
  | ecb => exact hc.inverse x (hwhole rfl)
  | cbc =>
    have hxt : x.length = t.length := (hwhole rfl).trans (ht nofun).symm
    rw [blockDecrypt, blockEncrypt, hc.inverse _ (by simp [hwhole rfl, ht nofun]), xorBytes_xorBytes_cancel hxt.le]
  | cfb | ofb | ctr => exact xorBytes_xorBytes_cancel (by rwa [hc.encrypt t (ht nofun)])

end OneBlock

/-! ### The loop over the blocks -/

/-- Each block `x` goes through `f` with the feedback `t`, and `next t x` is the feedback of the block after it. -/
def chain (f next : Bytes → Bytes → Bytes) : Bytes → List Bytes → List Bytes
  | _, [] => []
  | t, x :: xs => f t x :: chain f next (next t x) xs

/-- A row of blocks of which only the last may be short (46_modes_padding.md R216). -/
def IsRow (mode : ChainMode) (c : BlockCipher) : List Bytes → Prop
  | [] => True
  | x :: xs => IsBlock mode c x ∧ (xs ≠ [] → x.length = c.bs) ∧ IsRow mode c xs

theorem isRow_pieces {mode : ChainMode} {c : BlockCipher} {n : Nat} {d : Bytes} (hlast : c.bs * n < d.length + c.bs)
    (hwhole : mode.padded = true → ∀ x ∈ pieces c.bs n d, x.length = c.bs) : IsRow mode c (pieces c.bs n d) := by
  induction n generalizing d with
  | zero => trivial
  | succ n ih =>
    rw [pieces, List.forall_mem_cons] at hwhole
    rw [Nat.mul_succ] at hlast
    have hdrop : c.bs * n < (d.drop c.bs).length + c.bs := by
      have hpos : n = 0 ∨ c.bs ≤ c.bs * n := n.eq_zero_or_pos.imp_right (Nat.le_mul_of_pos_right _)
      rw [List.length_drop]
      rcases hpos with rfl | hpos <;> omega
    refine ⟨⟨by simp, fun hm => (hwhole hm).1⟩, fun hrest => ?_, ih hdrop fun hm => (hwhole hm).2⟩
    have hn : 0 < n := by simpa using List.length_pos_iff.2 hrest
    have hbs : c.bs ≤ c.bs * n := Nat.le_mul_of_pos_right _ hn
    rw [List.length_take]
    omega

theorem isRow_blocksOf {mode : ChainMode} {c : BlockCipher} (hpos : 1 ≤ c.bs) {d : Bytes}
    (hd : mode.padded = true → d.length % c.bs = 0) : IsRow mode c (blocksOf c.bs d) := by
  refine isRow_pieces ?_ fun hm => length_of_mem_blocksOf_aligned hpos (hd hm)
  have := Nat.mul_div_le (d.length + c.bs - 1) c.bs
  omega

section Chain

variable {mode : ChainMode} {c : BlockCipher} {f next : Bytes → Bytes → Bytes}
  (hf : ∀ t x, IsFeedback mode c t → IsBlock mode c x → (f t x).length = x.length)
  (hnext : ∀ t x, IsFeedback mode c t → x.length = c.bs → IsBlock mode c x → IsFeedback mode c (next t x))

include hf hnext in
theorem map_length_chain {l : List Bytes} {t : Bytes} (hl : IsRow mode c l) (ht : IsFeedback mode c t) :
    (chain f next t l).map List.length = l.map List.length := by
  induction l generalizing t with
  | nil => rfl
  | cons x xs ih =>
    obtain ⟨hx, hwhole, hxs⟩ := hl
    rw [chain, List.map_cons, List.map_cons, hf t x ht hx]
    by_cases hnil : xs = []
    · rw [hnil]; rfl
    · rw [ih hxs (hnext t x ht (hwhole hnil) hx)]

include hnext in
/-- A loop whose block function undoes another's, and whose feedback is the same, undoes that loop. -/
theorem chain_chain {f' next' : Bytes → Bytes → Bytes}
    (hinv : ∀ t x, IsFeedback mode c t → IsBlock mode c x → f' t (f t x) = x)
    (hsame : ∀ t x, next' t (f t x) = next t x) {l : List Bytes} {t : Bytes} (hl : IsRow mode c l)
    (ht : IsFeedback mode c t) : chain f' next' t (chain f next t l) = l := by
  induction l generalizing t with
  | nil => rfl
  | cons x xs ih =>
    obtain ⟨hx, hwhole, hxs⟩ := hl
    rw [chain, chain, hinv t x ht hx, hsame]
    by_cases hnil : xs = []
    · rw [hnil]; rfl
    · rw [ih hxs (hnext t x ht (hwhole hnil) hx)]

end Chain

/-- The feedback is the block that came out. -/
theorem getElem?_chain_output (f : Bytes → Bytes → Bytes) (t : Bytes) (l : List Bytes) (j : Nat) :
    (chain f f t l)[j]? = l[j]?.map (f ((t :: chain f f t l).getD j [])) := by
  induction l generalizing t j with
  | nil => rfl
  | cons x xs ih =>
    rw [chain]
    cases j with
    | zero => rfl
    | succ j => exact ih _ j

/-- The feedback is the block that went in. -/
theorem getElem?_chain_input (f : Bytes → Bytes → Bytes) (t : Bytes) (l : List Bytes) (j : Nat) :
    (chain f (fun _ x => x) t l)[j]? = l[j]?.map (f ((t :: l).getD j [])) := by
  induction l generalizing t j with
  | nil => rfl
  | cons x xs ih =>
    rw [chain]
    cases j with
    | zero => rfl
    | succ j => exact ih x j

/-- The feedback depends on the feedback alone. -/
theorem getElem?_chain_iterate (f : Bytes → Bytes → Bytes) (g : Bytes → Bytes) (t : Bytes) (l : List Bytes) (j : Nat) :
    (chain f (fun t _ => g t) t l)[j]? = l[j]?.map (f (g^[j] t)) := by
  induction l generalizing t j with
  | nil => rfl
  | cons x xs ih =>
    rw [chain]
    cases j with
    | zero => rfl
    | succ j => exact ih (g t) j

/-- A function with the equations of the loop is the loop. -/
theorem eq_chain {f next : Bytes → Bytes → Bytes} (F : Bytes → List Bytes → List Bytes) (hnil : ∀ t, F t [] = [])
    (hcons : ∀ t x xs, F t (x :: xs) = f t x :: F (next t x) xs) (t : Bytes) (l : List Bytes) :
    F t l = chain f next t l := by
  induction l generalizing t with
  | nil => exact hnil t
  | cons x xs ih => rw [hcons, ih, chain]

/-! ### Encryption and decryption of a byte string -/

/-- Encryption: the feedback after a block comes from the ciphertext block that was made of it. -/
def encryptChain (mode : ChainMode) (c : BlockCipher) : Bytes → List Bytes → List Bytes :=
  chain (blockEncrypt mode c) fun t x => feedback mode c t (blockEncrypt mode c t x)

/-- Decryption: the feedback after a block comes from the ciphertext block itself. -/
def decryptChain (mode : ChainMode) (c : BlockCipher) : Bytes → List Bytes → List Bytes :=
  chain (blockDecrypt mode c) (feedback mode c)

theorem modeEncrypt_eq (mode : ChainMode) (c : BlockCipher) (iv d : Bytes) :
    modeEncrypt mode c iv d = (encryptChain mode c iv (blocksOf c.bs d)).flatten := by
  cases mode with
  | ecb => exact congrArg List.flatten (eq_chain (fun _ l => l.map c.encrypt) (fun _ => rfl) (fun _ _ _ => rfl) iv _)
  | cbc => exact congrArg List.flatten (eq_chain (cbcEncrypt c.encrypt) (fun _ => rfl) (fun _ _ _ => rfl) iv _)
  | cfb => exact congrArg List.flatten (eq_chain (cfbEncrypt c.encrypt) (fun _ => rfl) (fun _ _ _ => rfl) iv _)
  | ofb => exact congrArg List.flatten (eq_chain (ofbCrypt c.encrypt) (fun _ => rfl) (fun _ _ _ => rfl) iv _)
  | ctr => exact congrArg List.flatten (eq_chain (ctrCrypt c.encrypt) (fun _ => rfl) (fun _ _ _ => rfl) iv _)

theorem modeDecrypt_eq (mode : ChainMode) (c : BlockCipher) (iv d : Bytes) :
    modeDecrypt mode c iv d = (decryptChain mode c iv (blocksOf c.bs d)).flatten := by
  cases mode with
  | ecb => exact congrArg List.flatten (eq_chain (fun _ l => l.map c.decrypt) (fun _ => rfl) (fun _ _ _ => rfl) iv _)
  | cbc => exact congrArg List.flatten (eq_chain (cbcDecrypt c.decrypt) (fun _ => rfl) (fun _ _ _ => rfl) iv _)
  | cfb => exact congrArg List.flatten (eq_chain (cfbDecrypt c.encrypt) (fun _ => rfl) (fun _ _ _ => rfl) iv _)
  | ofb => exact congrArg List.flatten (eq_chain (ofbCrypt c.encrypt) (fun _ => rfl) (fun _ _ _ => rfl) iv _)
  | ctr => exact congrArg List.flatten (eq_chain (ctrCrypt c.encrypt) (fun _ => rfl) (fun _ _ _ => rfl) iv _)

section Modes

variable {mode : ChainMode} {c : BlockCipher} {iv d : Bytes} {j : Nat} (hc : c.WellFormed) (hiv : IsFeedback mode c iv)
  (hd : mode.padded = true → d.length % c.bs = 0)
include hc hiv hd

/-- The output of encryption is as long as its input, and its blocks are those of the loop. -/
theorem blocksOf_modeEncrypt : (modeEncrypt mode c iv d).length = d.length ∧
    blocksOf c.bs (modeEncrypt mode c iv d) = encryptChain mode c iv (blocksOf c.bs d) := by
  rw [modeEncrypt_eq]
  exact blocksOf_flatten hc.pos (map_length_chain (fun _ _ ht hx => length_blockEncrypt hc ht hx)
    (fun _ _ ht hwhole hx => isFeedback_feedback hc ht ((length_blockEncrypt hc ht hx).trans hwhole))
    (isRow_blocksOf hc.pos hd) hiv)

theorem blocksOf_modeDecrypt : (modeDecrypt mode c iv d).length = d.length ∧
    blocksOf c.bs (modeDecrypt mode c iv d) = decryptChain mode c iv (blocksOf c.bs d) := by
  rw [modeDecrypt_eq]
  exact blocksOf_flatten hc.pos (map_length_chain (fun _ _ ht hx => length_blockDecrypt hc ht hx)
    (fun _ _ ht hwhole _ => isFeedback_feedback hc ht hwhole) (isRow_blocksOf hc.pos hd) hiv)

/-- Decryption undoes encryption (46_modes_padding.md R238). -/
theorem modeDecrypt_modeEncrypt : modeDecrypt mode c iv (modeEncrypt mode c iv d) = d := by
  have hrow : IsRow mode c (blocksOf c.bs d) := isRow_blocksOf hc.pos hd
  have hundo : decryptChain mode c iv (encryptChain mode c iv (blocksOf c.bs d)) = blocksOf c.bs d :=
    chain_chain (f := blockEncrypt mode c) (f' := blockDecrypt mode c)
      (fun _ _ ht hwhole hx => isFeedback_feedback hc ht ((length_blockEncrypt hc ht hx).trans hwhole))
      (fun _ _ ht hx => blockDecrypt_blockEncrypt hc ht hx) (fun _ _ => rfl) hrow hiv
  rw [modeDecrypt_eq, (blocksOf_modeEncrypt hc hiv hd).2, hundo, flatten_blocksOf hc.pos]

variable (hj : j * c.bs < d.length)
include hj

/-- Modes whose feedback is the ciphertext block. -/
theorem blockAt_modeEncrypt_chained (hfb : feedback mode c = fun _ y => y) :
    blockAt c.bs (modeEncrypt mode c iv d) j = blockEncrypt mode c
      (if j = 0 then iv else blockAt c.bs (modeEncrypt mode c iv d) (j - 1)) (blockAt c.bs d j) := by
  obtain ⟨hlen, hblocks⟩ := blocksOf_modeEncrypt hc hiv hd
  refine blockAt_eq_of_getElem?_blocksOf hc.pos hlen hj ?_
  rw [← getD_cons_blocksOf hc.pos (hlen ▸ hj), hblocks, encryptChain, hfb]
  exact getElem?_chain_output _ _ _ j

theorem blockAt_modeDecrypt_chained (hfb : feedback mode c = fun _ y => y) :
    blockAt c.bs (modeDecrypt mode c iv d) j = blockDecrypt mode c
      (if j = 0 then iv else blockAt c.bs d (j - 1)) (blockAt c.bs d j) := by
  obtain ⟨hlen, hblocks⟩ := blocksOf_modeDecrypt hc hiv hd
  refine blockAt_eq_of_getElem?_blocksOf hc.pos hlen hj ?_
  rw [← getD_cons_blocksOf hc.pos hj, hblocks, decryptChain, hfb]
  exact getElem?_chain_input _ _ _ j

/-- Modes whose feedback looks at no block. -/
theorem blockAt_modeEncrypt_iterate {g : Bytes → Bytes} (hfb : feedback mode c = fun t _ => g t) :
    blockAt c.bs (modeEncrypt mode c iv d) j = blockEncrypt mode c (g^[j] iv) (blockAt c.bs d j) := by
  obtain ⟨hlen, hblocks⟩ := blocksOf_modeEncrypt hc hiv hd
  refine blockAt_eq_of_getElem?_blocksOf hc.pos hlen hj ?_
  rw [hblocks, encryptChain, hfb]
  exact getElem?_chain_iterate _ _ _ _ j

theorem blockAt_modeDecrypt_iterate {g : Bytes → Bytes} (hfb : feedback mode c = fun t _ => g t) :
    blockAt c.bs (modeDecrypt mode c iv d) j = blockDecrypt mode c (g^[j] iv) (blockAt c.bs d j) := by
  obtain ⟨hlen, hblocks⟩ := blocksOf_modeDecrypt hc hiv hd
  refine blockAt_eq_of_getElem?_blocksOf hc.pos hlen hj ?_
  rw [hblocks, decryptChain, hfb]
  exact getElem?_chain_iterate _ _ _ _ j

end Modes

/-! ### The counter (46_modes_padding.md R231) -/

/-- A byte in front of a string adds its value at the place above the string's. -/
theorem beNat_cons (b : Byte) (bs : Bytes) : beNat (b :: bs) = b.toNat * 256 ^ bs.length + beNat bs := by
  have hfrom : ∀ acc, bs.foldl (fun acc x => 256 * acc + x.toNat) acc = acc * 256 ^ bs.length + beNat bs := by
    induction bs with
    | nil => intro acc; simp [beNat]
    | cons x xs ih =>
      intro acc
      rw [beNat, List.foldl_cons, List.foldl_cons, ih, ih, List.length_cons, Nat.pow_succ]
      ring
  simpa [beNat] using hfrom b.toNat

theorem beNat_lt (bs : Bytes) : beNat bs < 256 ^ bs.length := by
  induction bs with
  | nil => simp [beNat]
  | cons b bs ih =>
    have hb : (b.toNat + 1) * 256 ^ bs.length ≤ 256 * 256 ^ bs.length := Nat.mul_le_mul_right _ b.isLt
    rw [beNat_cons, List.length_cons, Nat.pow_succ]
    rw [Nat.succ_mul] at hb
    omega

/-- The big-endian string of a number depends on the number modulo the width alone. -/
theorem bytesBE_congr {v w n : Nat} (h : v % 256 ^ n = w % 256 ^ n) : bytesBE v n = bytesBE w n := by
  induction n with
  | zero => rfl
  | succ n ih =>
    have htop : v / 256 ^ n % 256 = w / 256 ^ n % 256 := by
      rw [← Nat.mod_mul_right_div_self, ← Nat.mod_mul_right_div_self, ← Nat.pow_succ, h]
    have hrest : v % 256 ^ n = w % 256 ^ n := by
      have hdvd : 256 ^ n ∣ 256 ^ (n + 1) := Nat.pow_dvd_pow 256 n.le_succ
      rw [← Nat.mod_mod_of_dvd v hdvd, h, Nat.mod_mod_of_dvd w hdvd]
    have hbyte : BitVec.ofNat 8 (v / 256 ^ n) = BitVec.ofNat 8 (w / 256 ^ n) := BitVec.eq_of_toNat_eq (by simpa using htop)
    rw [bytesBE, bytesBE, ih hrest, hbyte]

theorem beNat_bytesBE (v n : Nat) : beNat (bytesBE v n) = v % 256 ^ n := by
  induction n with
  | zero => simp [bytesBE, beNat, Nat.mod_one]
  | succ n ih =>
    rw [bytesBE, beNat_cons, ih, length_bytesBE, Nat.mod_pow_succ, BitVec.toNat_ofNat]
    ring

theorem bytesBE_beNat (bs : Bytes) : bytesBE (beNat bs) bs.length = bs := by
  induction bs with
  | nil => rfl
  | cons b bs ih =>
    have hlt := beNat_lt bs
    have htop : (b.toNat * 256 ^ bs.length + beNat bs) / 256 ^ bs.length = b.toNat := by
      rw [Nat.mul_comm, Nat.mul_add_div (Nat.pow_pos (by decide)), Nat.div_eq_of_lt hlt, Nat.add_zero]
    have hrest : (b.toNat * 256 ^ bs.length + beNat bs) % 256 ^ bs.length = beNat bs % 256 ^ bs.length :=
      Nat.mul_add_mod_self_right _ _ _
    rw [List.length_cons, bytesBE, beNat_cons, htop, bytesBE_congr hrest, ih, BitVec.ofNat_toNat, BitVec.setWidth_eq]

/-- The counter after `j` blocks, which wraps at the width of a block. -/
theorem counterNext_iterate (iv : Bytes) (j : Nat) :
    counterNext^[j] iv = bytesBE ((beNat iv + j) % 2 ^ (8 * iv.length)) iv.length := by
  have hwidth : 2 ^ (8 * iv.length) = 256 ^ iv.length := Nat.pow_mul 2 8 iv.length
  rw [hwidth, bytesBE_congr (Nat.mod_mod _ _)]
  induction j with
  | zero => exact (bytesBE_beNat iv).symm
  | succ j ih =>
    rw [Function.iterate_succ_apply', ih, counterNext, beNat_bytesBE, length_bytesBE]
    exact bytesBE_congr (Nat.mod_add_mod _ _ _)

/-! ### Padding and unpadding around the loop (46_modes_padding.md R217, R238) -/

section Padded

variable {mode : ChainMode} {scheme : PadScheme} {c : BlockCipher} {iv d : Bytes} {filler : Nat → Bytes}
  (hc : c.WellFormed) (hiv : IsFeedback mode c iv) (hf : ∀ n, (filler n).length = n)
include hc hiv hf

/-- What MODE_ENC outputs is at most a block longer than its input, and whole blocks in ECB and CBC. -/
theorem length_modeEncOutput : (modeEncOutput mode scheme c iv filler d).length ≤ d.length + c.bs ∧
    (mode.padded = true → (modeEncOutput mode scheme c iv filler d).length % c.bs = 0) := by
  rw [modeEncOutput]
  cases hpad : mode.padded with
  | false =>
    rw [if_neg Bool.false_ne_true, (blocksOf_modeEncrypt hc hiv (by simp [hpad])).1]
    exact ⟨Nat.le_add_right _ _, nofun⟩
  | true =>
    have hwhole := length_padBytes_mod scheme hc.pos hf d
    rw [if_pos rfl, (blocksOf_modeEncrypt hc hiv fun _ => hwhole).1]
    exact ⟨length_padBytes_le scheme hc.pos hf d, fun _ => hwhole⟩

/-- MODE_DEC makes the input again of what MODE_ENC outputs. -/
theorem modeDecOutput_modeEncOutput (hzeros : scheme = .zeros → mode.padded = true → d.getLast? ≠ some 0) :
    modeDecOutput mode scheme c iv (modeEncOutput mode scheme c iv filler d) = d := by
  rw [modeEncOutput, modeDecOutput]
  cases hpad : mode.padded with
  | false =>
    rw [if_neg Bool.false_ne_true, if_neg Bool.false_ne_true, modeDecrypt_modeEncrypt hc hiv (by simp [hpad])]
  | true =>
    rw [if_pos rfl, if_pos rfl, modeDecrypt_modeEncrypt hc hiv fun _ => length_padBytes_mod scheme hc.pos hf d]
    exact unpadInvertsPad scheme c.bs filler d hc.pos (hc.le.trans (by decide)) hf fun h => hzeros h hpad

end Padded

end Sys2Proof.Machine
end

section
/-! SUPPORT. The commands PAD and UNPAD (46_modes_padding.md R236, R237): what each answers once its checks pass and its data is
present, and what each scheme asks of a pad, byte by byte. -/

namespace Sys2Proof.Machine

/-! ### The checks of PAD and UNPAD (46_modes_padding.md R236, R237) -/

/-- The code of a scheme (30_encoding.md R76). -/
def PadScheme.code : PadScheme → BitVec 4
  | .zeros => 0
  | .pkcs7 => 1
  | .ansix923 => 2
  | .iso10126 => 3

theorem PadScheme.ofCode_eq_some {padc : BitVec 4} {scheme : PadScheme} :
    PadScheme.ofCode padc = some scheme ↔ padc = scheme.code := by
  revert padc
  cases scheme <;> decide

/-- Codes 0 to 3 are those of the four schemes. -/
theorem PadScheme.exists_code {padc : BitVec 4} (h : padc.toNat ≤ 3) : ∃ scheme : PadScheme, padc = scheme.code := by
  simp only [← PadScheme.ofCode_eq_some]
  rw [← Option.ne_none_iff_exists', ne_eq, PadScheme.ofCode_eq_none]
  omega

theorem exec_pad (padc : BitVec 4) (s : State) : exec (.pad padc) s = execPad padc s := rfl

theorem exec_unpad (padc : BitVec 4) (s : State) : exec (.unpad padc) s = execUnpad padc s := rfl

/-- The success of a command that took free bytes. -/
theorem completed_drew (s : State) (n : Nat) (out : Bytes) : Completed s ((s.drew n).completed 0 out) 0 out :=
  completed_of_inputs 0 out (by constructor <;> intros <;> rfl) fun _ => rfl

section PadChecks

variable {s : State} {d : Bytes} {bs : Nat} (hbs : bs = s.arg0.toNat) (hpos : 1 ≤ bs) (hle : bs ≤ 32)
  (hlen : s.len.toNat ≤ s.params.bufBytes) (hd : s.memRead .ibuf 0 s.len.toNat = some d)
include hbs hpos hle hlen hd

theorem withPad_completes (scheme : PadScheme) (go : PadScheme → Nat → Bytes → Result) :
    withPad scheme.code s go = go scheme bs d := by
  subst hbs
  rw [withPad, PadScheme.ofCode_eq_some.2 rfl, requireSome_some, require_withBytes ⟨hpos, hle, hlen⟩ hd]

theorem execPad_completes (scheme : PadScheme) : exec (.pad scheme.code) s =
    succeedBytes (padBytes scheme bs s.filler d) (s.drew (fillerCount scheme bs d.length)) := by
  rw [exec_pad, execPad, withPad_completes hbs hpos hle hlen hd]

theorem execUnpad_completes (scheme : PadScheme) :
    exec (.unpad scheme.code) s = succeedBytes (unpadBytes scheme bs d) s := by
  rw [exec_unpad, execUnpad, withPad_completes hbs hpos hle hlen hd]

end PadChecks

/-- What each scheme asks of the bytes of a pad before its last one (46_modes_padding.md R224 to R226). -/
theorem padCheck_iff {scheme : PadScheme} (h : scheme ≠ .zeros) (last b : Byte) :
    padCheck scheme last b = true ↔ (scheme.code = 1 → b = last) ∧ (scheme.code = 2 → b = 0) := by
  cases scheme with
  | zeros => exact absurd rfl h
  | pkcs7 | ansix923 | iso10126 => simp [padCheck, PadScheme.code]

/-- When `d` ends in a pad, byte by byte. -/
theorem endsInPad_iff {scheme : PadScheme} (h : scheme ≠ .zeros) {bs n : Nat} {d : Bytes} :
    EndsInPad (padCheck scheme) bs d n ↔
      1 ≤ n ∧ n ≤ bs ∧ n ≤ d.length ∧ d[d.length - 1]? = some (BitVec.ofNat 8 n) ∧
        ∀ i, d.length - n ≤ i → i < d.length - 1 →
          (scheme.code = 1 → d[i]? = some (BitVec.ofNat 8 n)) ∧ (scheme.code = 2 → d[i]? = some 0) := by
  rw [endsInPad_iff_and, ← List.getLast?_eq_getElem?]
  refine and_congr_right fun _ => and_congr_right fun _ => and_congr_right fun hlen => and_congr_right fun _ => ?_
  rw [all_body_iff hlen]
  refine forall_congr' fun i => forall_congr' fun _ => forall_congr' fun hi => ?_
  have hin : i < d.length := by omega
  simp [List.getElem?_eq_getElem hin, padCheck_iff h]

/-! ### Obligations -/

/-- Settles O57: the four outputs are those of the four schemes, and the one of Zeros is a whole number of blocks. -/
theorem padCommandCompletes : Obligations.PadCommandCompletes := by
  unfold Obligations.PadCommandCompletes
  rintro s d bs n hbs hpos hle hlen hd rfl
  have hexec := execPad_completes hbs hpos hle hlen hd
  refine ⟨⟨_, _, hexec .zeros, completedPlain s _ _, Nat.mod_lt _ hpos, ?_⟩, ⟨_, hexec .pkcs7, completedPlain s _ _⟩,
    ⟨_, hexec .ansix923, completedPlain s _ _⟩,
    ⟨_, s.filler _, hexec .iso10126, completed_drew s _ _, length_filler s _, ⟨rfl, rfl, rfl⟩, rfl⟩⟩
  simpa [padBytes] using length_padBytes_mod .zeros hpos (length_filler s) d

/-- Settles O58: Zeros drops the trailing zero bytes, and the other schemes take off a pad exactly where the data ends in one. -/
theorem unpadCommandCompletes : Obligations.UnpadCommandCompletes := by
  unfold Obligations.UnpadCommandCompletes
  intro s d bs hbs hpos hle hlen hd
  have hexec := execUnpad_completes hbs hpos hle hlen hd
  refine ⟨?zeros, fun padc good hlow hhigh hgood => ?counted⟩
  case zeros =>
    obtain ⟨t, ht, hdone⟩ := exists_completedPlain (hexec .zeros)
    obtain ⟨k, hk, hkept, hrun, hbefore⟩ := exists_rdropWhile_eq_take (fun b => decide (b = 0)) d
    rw [unpadBytes_zeros_eq, hkept] at hdone
    refine ⟨t, k, ht, hdone, hk, fun i hi hlt => ?_, fun hkpos hzero => ?_⟩
    · rw [List.getElem?_eq_getElem hlt, of_decide_eq_true (hrun i hi _ (List.getElem?_eq_getElem hlt))]
    · exact of_decide_eq_false (hbefore hkpos 0 hzero) rfl
  case counted =>
    obtain ⟨scheme, rfl⟩ := PadScheme.exists_code hhigh
    have hscheme : scheme ≠ .zeros := by
      rintro rfl
      exact absurd hlow (by decide)
    have hgood' (n : Nat) : good n ↔ EndsInPad (padCheck scheme) bs d n := (hgood n).trans (endsInPad_iff hscheme).symm
    obtain ⟨t, ht, hdone⟩ := exists_completedPlain (hexec scheme)
    rw [unpadBytes_counted hscheme] at hdone
    refine ⟨fun n hn => ⟨t, ht, ?_⟩, fun hnone => ⟨t, ht, ?_⟩⟩
    · rwa [unpadCounted_of_endsInPad (by omega) ((hgood' n).1 hn)] at hdone
    · rwa [unpadCounted_of_not_endsInPad fun n hn => hnone n ((hgood' n).2 hn)] at hdone

end Sys2Proof.Machine
end

section
/-! SUPPORT. The commands MODE_ENC and MODE_DEC (46_modes_padding.md R234, R235): what each answers once its checks pass and its
operand bytes hold values, block by block, and what the PAD field does in a stream mode. -/

namespace Sys2Proof.Machine

/-! ### The checks of MODE_ENC and MODE_DEC (46_modes_padding.md R234, R235) -/

theorem exec_modeEnc (mode padc : BitVec 4) (csel : BitVec 2) (s : State) :
    exec (.modeEnc mode padc csel) s = execModeEnc mode padc csel s := rfl

theorem exec_modeDec (mode padc : BitVec 4) (csel : BitVec 2) (s : State) :
    exec (.modeDec mode padc csel) s = execModeDec mode padc csel s := rfl

section ModeChecks

variable {s : State} {mode padc : BitVec 4} {csel : BitVec 2} {md : ChainMode} {scheme : PadScheme} {sel : CipherSel}
  {d iv : Bytes}

theorem ModeReady.wellFormed (h : ModeReady s md sel d iv) : (cipherOf s sel).WellFormed :=
  cipherOf_wellFormed h.inv h.keyed

theorem ModeReady.length_data (h : ModeReady s md sel d iv) : d.length = s.len.toNat :=
  Memory.readRange_length h.data

theorem ModeReady.isFeedback (h : ModeReady s md sel d iv) : IsFeedback md (cipherOf s sel) iv := fun hmd =>
  Memory.readRange_length (h.iv hmd)

/-- The IV that the command reads: none in ECB (46_modes_padding.md R228). -/
theorem ModeReady.memRead_iv (h : ModeReady s md sel d iv) (hecb : md = .ecb → iv = []) :
    s.memRead .ivbuf 0 (if md = .ecb then 0 else (cipherOf s sel).bs) = some iv := by
  by_cases hmd : md = .ecb
  · rw [if_pos hmd, hecb hmd]
    exact Memory.readRange_zero _ _
  · rw [if_neg hmd, h.iv hmd]

variable (hm : ChainMode.ofCode mode = some md) (hp : PadScheme.ofCode padc = some scheme)
  (hc : CipherSel.ofCode csel = some sel)
include hm hp hc

theorem withMode_completes (h : ModeReady s md sel d iv) (hecb : md = .ecb → iv = [])
    {lastCheck : ChainMode → BlockCipher → Bool} (hlast : lastCheck md (cipherOf s sel) = true)
    (go : ChainMode → PadScheme → BlockCipher → Bytes → Bytes → Result) :
    withMode mode padc csel lastCheck s go = go md scheme (cipherOf s sel) d iv := by
  rw [withMode, hm, hp, hc, requireSome_some, requireSome_some, requireSome_some, require_pos h.keyed, require_pos h.len,
    require_pos (or_iff_not_imp_left.2 h.ivlen), require_withBytes hlast h.data, withBytes_some (h.memRead_iv hecb)]

theorem execModeEnc_completes (h : ModeReady s md sel d iv) (hecb : md = .ecb → iv = []) :
    exec (.modeEnc mode padc csel) s = succeedBytes (modeEncOutput md scheme (cipherOf s sel) iv s.filler d)
      (s.drew (if md.padded then fillerCount scheme (cipherOf s sel).bs d.length else 0)) := by
  rw [exec_modeEnc, execModeEnc, withMode_completes hm hp hc h hecb rfl]

theorem completed_of_execModeEnc {t : State} (h : ModeReady s md sel d iv) (hecb : md = .ecb → iv = [])
    (hexec : exec (.modeEnc mode padc csel) s = .next t) :
    Completed s t 0 (modeEncOutput md scheme (cipherOf s sel) iv s.filler d) := by
  rw [execModeEnc_completes hm hp hc h hecb] at hexec
  obtain rfl := Host.Outcome.next.inj hexec
  exact completed_drew s _ _

theorem execModeDec_completes (h : ModeReady s md sel d iv) (hecb : md = .ecb → iv = [])
    (hd : md.padded = true → d.length % (cipherOf s sel).bs = 0) :
    exec (.modeDec mode padc csel) s = succeedBytes (modeDecOutput md scheme (cipherOf s sel) iv d) s := by
  have hlast : (!md.padded || s.len.toNat % (cipherOf s sel).bs == 0) = true := by
    rw [← h.length_data]
    cases hpad : md.padded with
    | false => rfl
    | true => simpa using hd hpad
  rw [exec_modeDec, execModeDec, withMode_completes hm hp hc h hecb hlast]

end ModeChecks

/-! ### The PAD field of a stream mode (46_modes_padding.md R217) -/

section StreamModes

variable {s : State} {mode padc : BitVec 4} {csel : BitVec 2} {lastCheck : ChainMode → BlockCipher → Bool}
  {go : ChainMode → PadScheme → BlockCipher → Bytes → Bytes → Result}

theorem withMode_unsupported_pad (hp : 4 ≤ padc.toNat) :
    withMode mode padc csel lastCheck s go = .next (s.raised .unsupported) := by
  rw [withMode, PadScheme.ofCode_eq_none.2 hp]
  cases ChainMode.ofCode mode with
  | none => rfl
  | some md => rfl

/-- The outcome is the same under two supported PAD codes, where what follows the checks does not look at the scheme. -/
theorem withMode_congr_pad {padc' : BitVec 4} (hp : padc.toNat ≤ 3) (hp' : padc'.toNat ≤ 3)
    (hgo : ∀ md, ChainMode.ofCode mode = some md → ∀ scheme scheme', go md scheme = go md scheme') :
    withMode mode padc csel lastCheck s go = withMode mode padc' csel lastCheck s go := by
  obtain ⟨scheme, rfl⟩ := PadScheme.exists_code hp
  obtain ⟨scheme', rfl⟩ := PadScheme.exists_code hp'
  rw [withMode, withMode, PadScheme.ofCode_eq_some.2 rfl, PadScheme.ofCode_eq_some.2 rfl]
  cases hm : ChainMode.ofCode mode with
  | none => rfl
  | some md => simp only [requireSome_some, hgo md hm scheme scheme']

end StreamModes

/-! ### Obligations -/

/-- Settles O51: the loop of ECB hands the IV on as it is and looks at it in no block. -/
theorem modeEcbBlockByBlock : Obligations.ModeEcbBlockByBlock := by
  unfold Obligations.ModeEcbBlockByBlock
  rintro s sel padc csel scheme c d hc hp rfl h
  have hwf := h.wellFormed
  have hfill := length_padBytes_mod scheme hwf.pos (length_filler s) d
  refine ⟨?_, fun hd => ?_⟩
  · refine ⟨_, _, _, execModeEnc_completes rfl hp hc h fun _ => rfl, completed_drew s _ _, ⟨rfl, rfl, rfl⟩, rfl, rfl,
      (blocksOf_modeEncrypt hwf h.isFeedback fun _ => hfill).1, fun j hj => ?_⟩
    exact blockAt_modeEncrypt_iterate hwf h.isFeedback (fun _ => hfill) (mul_lt_of_lt_div hj) (g := id) rfl
  · refine ⟨_, _, execModeDec_completes rfl hp hc h (fun _ => rfl) fun _ => hd, completedPlain s _ _,
      (blocksOf_modeDecrypt hwf h.isFeedback fun _ => hd).1, fun j hj => ?_⟩
    exact blockAt_modeDecrypt_iterate hwf h.isFeedback (fun _ => hd) (mul_lt_of_lt_div hj) (g := id) rfl

/-- Settles O52: the feedback is the ciphertext block, which encryption puts out and decryption takes in. -/
theorem modeCbcBlockByBlock : Obligations.ModeCbcBlockByBlock := by
  unfold Obligations.ModeCbcBlockByBlock
  rintro s sel padc csel scheme c d iv hc hp rfl h
  have hwf := h.wellFormed
  have hfill := length_padBytes_mod scheme hwf.pos (length_filler s) d
  refine ⟨?_, fun hd => ?_⟩
  · refine ⟨_, _, _, execModeEnc_completes rfl hp hc h nofun, completed_drew s _ _, ⟨rfl, rfl, rfl⟩, rfl, rfl,
      (blocksOf_modeEncrypt hwf h.isFeedback fun _ => hfill).1, fun j hj => ?_⟩
    exact blockAt_modeEncrypt_chained hwf h.isFeedback (fun _ => hfill) (mul_lt_of_lt_div hj) rfl
  · refine ⟨_, _, execModeDec_completes rfl hp hc h nofun fun _ => hd, completedPlain s _ _,
      (blocksOf_modeDecrypt hwf h.isFeedback fun _ => hd).1, fun j hj => ?_⟩
    exact blockAt_modeDecrypt_chained hwf h.isFeedback (fun _ => hd) (mul_lt_of_lt_div hj) rfl

/-- Settles O53: the feedback is the ciphertext block, and no block is padded. -/
theorem modeCfbBlockByBlock : Obligations.ModeCfbBlockByBlock := by
  unfold Obligations.ModeCfbBlockByBlock
  rintro s sel padc csel scheme c d iv hc hp rfl h
  have hwf := h.wellFormed
  refine ⟨⟨_, _, execModeEnc_completes rfl hp hc h nofun, completedPlain s _ _,
      (blocksOf_modeEncrypt hwf h.isFeedback nofun).1, fun j hj => ?_⟩,
    _, _, execModeDec_completes rfl hp hc h nofun nofun, completedPlain s _ _,
      (blocksOf_modeDecrypt hwf h.isFeedback nofun).1, fun j hj => ?_⟩
  · exact blockAt_modeEncrypt_chained hwf h.isFeedback nofun hj rfl
  · exact blockAt_modeDecrypt_chained hwf h.isFeedback nofun hj rfl

/-- Settles O54: both commands run one loop, whose feedback before block `j` is the IV encrypted `j` times. -/
theorem modeOfbBlockByBlock : Obligations.ModeOfbBlockByBlock := by
  unfold Obligations.ModeOfbBlockByBlock
  rintro s sel padc csel scheme c d iv hc hp rfl h
  have hwf := h.wellFormed
  refine ⟨_, _, execModeEnc_completes rfl hp hc h nofun, execModeDec_completes rfl hp hc h nofun nofun,
    completedPlain s _ _, (blocksOf_modeEncrypt hwf h.isFeedback nofun).1, fun j hj => ?_⟩
  rw [Function.iterate_succ_apply']
  exact blockAt_modeEncrypt_iterate hwf h.isFeedback nofun hj rfl

/-- Settles O55: both commands run one loop, whose feedback before block `j` is the counter after `j` steps. -/
theorem modeCtrBlockByBlock : Obligations.ModeCtrBlockByBlock := by
  unfold Obligations.ModeCtrBlockByBlock
  rintro s sel padc csel scheme c d iv hc hp rfl h
  have hwf := h.wellFormed
  refine ⟨_, _, execModeEnc_completes rfl hp hc h nofun, execModeDec_completes rfl hp hc h nofun nofun,
    completedPlain s _ _, (blocksOf_modeEncrypt hwf h.isFeedback nofun).1, fun j hj => ?_⟩
  have hcounter := counterNext_iterate iv j
  rw [h.isFeedback nofun] at hcounter
  rw [← hcounter]
  exact blockAt_modeEncrypt_iterate hwf h.isFeedback nofun hj rfl

/-- Settles O56: in a stream mode nothing after the checks looks at the scheme, and an unsupported code fails the second
check. -/
theorem streamModesIgnorePad : Obligations.StreamModesIgnorePad := by
  unfold Obligations.StreamModesIgnorePad
  intro s mode padc padc' csel hlow hhigh
  have hstream : ∀ md, ChainMode.ofCode mode = some md → md.padded = false := fun md hm =>
    Bool.eq_false_iff.2 fun hpad => by have := (ChainMode.ofCode_eq_some hm).2.1 hpad; omega
  simp only [exec_modeEnc, exec_modeDec, execModeEnc, execModeDec]
  refine ⟨fun hp hp' => ⟨withMode_congr_pad hp hp' fun md hm _ _ => ?_, withMode_congr_pad hp hp' fun md hm _ _ => ?_⟩,
    fun hp => ⟨withMode_unsupported_pad hp, withMode_unsupported_pad hp⟩⟩
  · simp only [modeEncOutput, hstream md hm, Bool.false_eq_true, if_false]
  · simp only [modeDecOutput, hstream md hm, Bool.false_eq_true, if_false]

end Sys2Proof.Machine
end

section
/-! SUPPORT. The round trip (46_modes_padding.md R238): the host copies what MODE_ENC wrote to IBUF, and MODE_DEC reads the same
IV and uses the same instances. -/

namespace Sys2Proof.Machine

/-! ### What a success says of the checks before it -/

section Inversion

variable {s t : State} {e : ErrCode}

theorem require_eq_next {p : Prop} [Decidable p] {go : Result} (h : require p e s (fun _ => go) = .next t)
    (ht : t.err = .ok) (he : e ≠ .ok) : p ∧ go = .next t := by
  by_cases hp : p
  · rw [require_pos hp] at h
    exact ⟨hp, h⟩
  · rw [require_neg hp] at h
    cases h
    exact absurd ht he

theorem requireSome_eq_next {α : Type} {o : Option α} {go : α → Result} (h : requireSome o e s go = .next t)
    (ht : t.err = .ok) (he : e ≠ .ok) : ∃ a, o = some a ∧ go a = .next t := by
  cases o with
  | none =>
    cases h
    exact absurd ht he
  | some a => exact ⟨a, rfl, h⟩

theorem withBytes_eq_next {b : Buf} {n : Nat} {go : Bytes → Result} (h : withBytes b n s go = .next t) :
    ∃ bs, s.memRead b 0 n = some bs ∧ go bs = .next t := by
  cases hb : s.memRead b 0 n with
  | none =>
    rw [withBytes_none hb] at h
    cases h
  | some bs => exact ⟨bs, rfl, by rwa [withBytes_some hb] at h⟩

/-- A success of MODE_ENC passed every check and read every operand. -/
theorem execModeEnc_eq_next {mode padc : BitVec 4} {csel : BitVec 2} {sel : CipherSel} (hs : s.inv)
    (hc : CipherSel.ofCode csel = some sel) (hnext : exec (.modeEnc mode padc csel) s = .next t) (ht : t.err = .ok) :
    ∃ md scheme d iv, ChainMode.ofCode mode = some md ∧ PadScheme.ofCode padc = some scheme ∧
      ModeReady s md sel d iv ∧ (md = .ecb → iv = []) := by
  rw [exec_modeEnc, execModeEnc, withMode] at hnext
  obtain ⟨md, hm, hnext⟩ := requireSome_eq_next hnext ht (by decide)
  obtain ⟨scheme, hp, hnext⟩ := requireSome_eq_next hnext ht (by decide)
  obtain ⟨sel', hc', hnext⟩ := requireSome_eq_next hnext ht (by decide)
  obtain rfl : sel' = sel := Option.some.inj (hc'.symm.trans hc)
  obtain ⟨hkeyed, hnext⟩ := require_eq_next hnext ht (by decide)
  obtain ⟨hlen, hnext⟩ := require_eq_next hnext ht (by decide)
  obtain ⟨hivlen, hnext⟩ := require_eq_next hnext ht (by decide)
  obtain ⟨-, hnext⟩ := require_eq_next hnext ht (by decide)
  obtain ⟨d, hd, hnext⟩ := withBytes_eq_next hnext
  obtain ⟨iv, hiv, -⟩ := withBytes_eq_next hnext
  refine ⟨md, scheme, d, iv, hm, hp, ⟨hs, hkeyed, hlen, or_iff_not_imp_left.1 hivlen, hd, fun hmd => ?_⟩, fun hmd => ?_⟩
  · rwa [if_neg hmd] at hiv
  · rw [if_pos hmd, State.memRead, Memory.readRange_zero] at hiv
    exact (Option.some.inj hiv).symm

end Inversion

/-! ### The copied output -/

section Copied

variable {s t u : State} {b : Buf}

/-- A copy of an output reads as the output. -/
theorem memRead_of_completed {res : Word} {out : Bytes} (h : Completed s t res out) (hu : u.mem.wf = true)
    (hb : ∀ k < out.length, u.bufByte b k = t.bufByte .obuf k) : u.memRead b 0 out.length = some out :=
  (Memory.readRange_eq_some hu).2 ⟨rfl, fun k hk => (hb k hk).trans (h.output k hk)⟩

/-- Bytes that two states hold alike read alike. -/
theorem memRead_congr {n : Nat} {bs : Bytes} (hs : s.mem.wf = true) (hu : u.mem.wf = true)
    (h : s.memRead b 0 n = some bs) (hb : ∀ k < n, u.bufByte b k = s.bufByte b k) : u.memRead b 0 n = some bs := by
  obtain ⟨hlen, hread⟩ := (Memory.readRange_eq_some hs).1 h
  exact (Memory.readRange_eq_some hu).2 ⟨hlen, fun k hk => (hb k hk).trans (hread k hk)⟩

theorem cipherOf_congr (hparams : u.params = s.params) (hinst : InstancesKept s u) (sel : CipherSel) :
    cipherOf u sel = cipherOf s sel := by
  cases sel <;> simp [cipherOf, hparams, hinst.des, hinst.deal, hinst.rij]

/-- A state with the same parameters, instances and IV is ready for other data that is present and fits. -/
theorem ModeReady.congr {md : ChainMode} {sel : CipherSel} {d iv out : Bytes} (h : ModeReady s md sel d iv) (hu : u.inv)
    (hparams : u.params = s.params) (hinst : InstancesKept s u) (hivlen : u.ivlen = s.ivlen)
    (hiv : ∀ k < 32, u.bufByte .ivbuf k = s.bufByte .ivbuf k) (hlen : u.len.toNat = out.length)
    (hfit : out.length ≤ s.params.bufBytes) (hout : u.memRead .ibuf 0 out.length = some out) :
    ModeReady u md sel out iv := by
  have hcipher := cipherOf_congr hparams hinst sel
  refine ⟨hu, ?_, ?_, ?_, ?_, fun hmd => ?_⟩
  · rw [hcipher, h.keyed]
  · rwa [hlen, hparams]
  · rw [hcipher, hivlen]
    exact h.ivlen
  · rwa [hlen]
  · rw [hcipher]
    exact memRead_congr h.inv.2.1 hu.2.1 (h.iv hmd) fun k hk => hiv k (hk.trans_le h.wellFormed.le)

end Copied

/-! ### Obligation -/

/-- Settles O60: the success of MODE_ENC says that its checks passed; the copy makes MODE_DEC ready for the output with the same
IV; each block of decryption undoes one of encryption, and the pad comes off. -/
theorem modeRoundTrip : Obligations.ModeRoundTrip := by
  unfold Obligations.ModeRoundTrip
  intro s t u mode padc csel sel d hs hu hc hdata hroom hzeros hexec ht hparams hinst hivlen hiv hlen hbytes
  obtain ⟨md, scheme, d', iv, hm, hp, hready, hecb⟩ := execModeEnc_eq_next hs hc hexec ht
  obtain rfl : d' = d := Option.some.inj (hready.data.symm.trans hdata)
  have hwf := hready.wellFormed
  have hlast : scheme = .zeros → md.padded = true → d'.getLast? ≠ some 0 := by
    rintro rfl hpad
    have hmode := (ChainMode.ofCode_eq_some hm).2.1 hpad
    exact (hzeros (PadScheme.ofCode_eq_some.1 hp)).resolve_left (by omega)
  obtain ⟨hle, hwhole⟩ := length_modeEncOutput (scheme := scheme) (d := d') hwf hready.isFeedback (length_filler s)
  have hback := modeDecOutput_modeEncOutput hwf hready.isFeedback (length_filler s) hlast
  have hdone := completed_of_execModeEnc hm hp hc hready hecb hexec
  generalize modeEncOutput md scheme (cipherOf s sel) iv s.filler d' = out at hle hwhole hback hdone
  rw [hready.length_data] at hle
  have houtlen : t.outlen.toNat = out.length := by
    obtain ⟨-, hmax, -⟩ := hs.1
    rw [hdone.outlen, BitVec.toNat_ofNat, Nat.mod_eq_of_lt (by omega)]
  rw [houtlen] at hbytes
  have hready' : ModeReady u md sel out iv := hready.congr hu hparams hinst hivlen hiv (by rw [hlen, houtlen])
    (by omega) (memRead_of_completed hdone hu.2.1 hbytes)
  rw [← cipherOf_congr hparams hinst sel] at hwhole hback
  have hdec := execModeDec_completes hm hp hc hready' hecb hwhole
  rw [hback] at hdec
  exact exists_completedPlain hdec

end Sys2Proof.Machine
end

section
/-! SUPPORT. The three system commands (47_system.md R245 to R247). -/

namespace Sys2Proof.Machine

/-! ### A success and the change it makes -/

/-- What a success becomes keeps the inputs, so whatever it writes it completes (60_exceptions.md R256). -/
theorem completed_of_becomes {i : Instr} {s u : State} (h : Becomes i s u) (res : Word) (out : Bytes) :
    Completed s (u.completed res out) res out :=
  completed_of_inputs res out (becomes_inputsKept h) fun a => by rw [becomes_mem h]

/-! ### The cleared instances (47_system.md R246) -/

/-- The round keys and the tables that ZEROIZE leaves: every one of them is a string of zero bytes. -/
theorem eq_replicate_zero_of_mem_cleared {k : Bytes}
    (h : k ∈ DesInst.cleared.rk ++ DealInst.cleared.rk ++ RijInst.cleared.rk ++
      [RijInst.cleared.sbox, RijInst.cleared.invSbox]) : ∃ n, k = List.replicate n 0 := by
  simp only [List.mem_append, List.mem_cons, List.not_mem_nil, or_false] at h
  rcases h with ((hdes | hdeal) | hrij) | hsbox | hinv
  · exact ⟨_, List.eq_of_mem_replicate hdes⟩
  · exact ⟨_, List.eq_of_mem_replicate hdeal⟩
  · exact ⟨_, List.eq_of_mem_replicate hrij⟩
  · exact ⟨_, hsbox⟩
  · exact ⟨_, hinv⟩

/-! ### Obligation -/

/-- Settles O24: none of the three commands has a check, so each answers its success; the change before it is none for NOP,
the cleared instances for ZEROIZE and the cleared ERRSEEN for CLRERR. -/
theorem systemCommandsComplete : Obligations.SystemCommandsComplete := by
  unfold Obligations.SystemCommandsComplete
  intro s
  refine ⟨exists_completedPlain_scalar rfl, ?zeroize, ?clrerr⟩
  case zeroize =>
    refine ⟨_, rfl, completed_of_becomes (i := .zeroize) rfl 0 [], rfl, rfl, rfl, rfl, rfl, rfl, rfl, rfl, rfl, ?_⟩
    intro k hk b hb
    obtain ⟨n, rfl⟩ := eq_replicate_zero_of_mem_cleared hk
    exact List.eq_of_mem_replicate hb
  case clrerr =>
    exact ⟨_, rfl, completed_of_becomes (i := .clrerr) rfl 0 [], rfl, rfl, rfl, rfl, rfl⟩

end Sys2Proof.Machine
end

section
/-! SUPPORT. The errors of commands (60_exceptions.md R252 to R258): which one a CMD write ends in, what it writes, and that no
command looks at the two flags that the commands before it left. -/

namespace Sys2Proof.Machine

/-! ### The ends of a command -/

/-- A command without an error ends, when it answers a next state, with ERR 0 (60_exceptions.md R256). -/
theorem err_of_firstError_none {i : Instr} {s t : State} (he : firstError i s = none) (h : exec i s = .next t) :
    t.err = .ok := by
  have hans := exec_answers i s
  rw [he, h] at hans
  cases hans with
  | done ht _ => exact ht

/-- A command ends in its first error (60_exceptions.md R253). -/
theorem exec_of_firstError {i : Instr} {s : State} {e : ErrCode} (he : firstError i s = some e) :
    exec i s = .next (s.raised e) := by
  have hans := exec_answers i s
  rw [he] at hans
  generalize exec i s = r at hans
  cases hans with
  | raised _ _ => rfl

/-- What a CMD write does to the state, an illegal word included: it raises an error, or it ends with ERR 0. -/
theorem runCommand_next {w : Word} {s t : State} (h : runCommand w s = .next t) :
    (∃ e, t = s.raised e) ∨ t.err = .ok := by
  cases hd : decode w with
  | error e =>
    rw [runCommand_error hd] at h
    cases h
    exact .inl ⟨.illegal, rfl⟩
  | ok i =>
    rw [runCommand_ok hd] at h
    rcases exec_next h with ⟨e, -, rfl⟩ | ⟨u, res, out, -, rfl⟩
    · exact .inl ⟨e, rfl⟩
    · exact .inr rfl

/-! ### ERR and ERRSEEN in the outcome of a command -/

/-- Both ends of a command overwrite ERR, and nothing before them reads it: with ERR changed, a command unfolds to the same
outcome. -/
theorem exec_withErr (i : Instr) (s : State) (e : ErrCode) : exec i { s with err := e } = exec i s := rfl

/-- The state with another ERRSEEN. -/
def State.withErrSeen (s : State) (b : Bool) : State := { s with errSeen := b }

/-- The ciphers do not depend on ERRSEEN (46_modes_padding.md R215). -/
@[simp] theorem cipherOf_withErrSeen (s : State) (b : Bool) (sel : CipherSel) :
    cipherOf (s.withErrSeen b) sel = cipherOf s sel := by
  cases sel <;> rfl

/-- Two outcomes of a command that differ in ERRSEEN at most. -/
inductive SameButErrSeen : Result → Result → Prop where
  | next (t : State) (b : Bool) : SameButErrSeen (.next t) (.next (t.withErrSeen b))
  | fault (f : Fault) : SameButErrSeen (.fault f) (.fault f)

section Rules

variable {s : State} {b : Bool}

/-- An error sets ERRSEEN, whatever it was. -/
theorem sameBut_require {p : Prop} [Decidable p] {c : ErrCode} {go go' : Result} (h : SameButErrSeen go go') :
    SameButErrSeen (require p c s fun _ => go) (require p c (s.withErrSeen b) fun _ => go') := by
  by_cases hp : p
  · rw [require_pos hp, require_pos hp]
    exact h
  · rw [require_neg hp, require_neg hp]
    exact .next (s.raised c) true

theorem sameBut_requireSome {α : Type} {o : Option α} {c : ErrCode} {go go' : α → Result}
    (h : ∀ a, SameButErrSeen (go a) (go' a)) :
    SameButErrSeen (requireSome o c s go) (requireSome o c (s.withErrSeen b) go') := by
  cases o with
  | none => exact .next (s.raised c) true
  | some a => exact h a

/-- The bytes of a buffer do not depend on ERRSEEN. -/
theorem sameBut_withBytes {buf : Buf} {n : Nat} {go go' : Bytes → Result}
    (h : ∀ bs, SameButErrSeen (go bs) (go' bs)) :
    SameButErrSeen (withBytes buf n s go) (withBytes buf n (s.withErrSeen b) go') := by
  have hread : (s.withErrSeen b).memRead buf 0 n = s.memRead buf 0 n := rfl
  cases hr : s.memRead buf 0 n with
  | none =>
    rw [withBytes_none hr, withBytes_none (hread.trans hr)]
    exact .fault _
  | some bs =>
    rw [withBytes_some hr, withBytes_some (hread.trans hr)]
    exact h bs

/-- A success writes the same result and output whatever ERRSEEN is, and keeps ERRSEEN. -/
theorem sameBut_success {u : State} (res : Word) (out : Bytes) :
    SameButErrSeen (.next (u.completed res out)) (.next ((u.withErrSeen b).completed res out)) :=
  .next (u.completed res out) b

/-- The checks and reads of MODE_ENC and MODE_DEC (46_modes_padding.md R234, R235). -/
theorem sameBut_withMode {mode padc : BitVec 4} {csel : BitVec 2} {lastCheck : ChainMode → BlockCipher → Bool}
    {go go' : ChainMode → PadScheme → BlockCipher → Bytes → Bytes → Result}
    (h : ∀ md scheme c d iv, SameButErrSeen (go md scheme c d iv) (go' md scheme c d iv)) :
    SameButErrSeen (withMode mode padc csel lastCheck s go)
      (withMode mode padc csel lastCheck (s.withErrSeen b) go') := by
  refine sameBut_requireSome fun md => sameBut_requireSome fun scheme =>
    sameBut_requireSome fun sel => ?_
  rw [cipherOf_withErrSeen]
  exact sameBut_require <| sameBut_require <| sameBut_require <| sameBut_require <|
    sameBut_withBytes fun d => sameBut_withBytes fun iv => h md scheme _ d iv

end Rules

theorem execModeEnc_sameButErrSeen (mode padc : BitVec 4) (csel : BitVec 2) (s : State) (b : Bool) :
    SameButErrSeen (execModeEnc mode padc csel s) (execModeEnc mode padc csel (s.withErrSeen b)) :=
  sameBut_withMode fun _ _ _ _ _ => sameBut_success _ _

theorem execModeDec_sameButErrSeen (mode padc : BitVec 4) (csel : BitVec 2) (s : State) (b : Bool) :
    SameButErrSeen (execModeDec mode padc csel s) (execModeDec mode padc csel (s.withErrSeen b)) :=
  sameBut_withMode fun _ _ _ _ _ => sameBut_success _ _

/-- With another ERRSEEN a command passes the same checks, reads the same bytes and ends in the same way. -/
theorem exec_sameButErrSeen (i : Instr) (s : State) (b : Bool) :
    SameButErrSeen (exec i s) (exec i (s.withErrSeen b)) := by
  cases i with
  | nop | zeroize | clrerr | gfListIrred => exact sameBut_success _ _
  | gfAdd => exact sameBut_requireSome fun _ => sameBut_requireSome fun _ => sameBut_success _ _
  | gfMul =>
    exact sameBut_requireSome fun _ => sameBut_requireSome fun _ => sameBut_requireSome fun _ =>
      sameBut_require <| sameBut_success _ _
  | gfInv =>
    exact sameBut_requireSome fun _ => sameBut_requireSome fun _ => sameBut_require <|
      sameBut_require <| sameBut_success _ _
  | gfPow | rijSBox | rijInvSBox =>
    exact sameBut_requireSome fun _ => sameBut_requireSome fun _ => sameBut_require <| sameBut_success _ _
  | gfIsIrred => exact sameBut_requireSome fun _ => sameBut_success _ _
  | desSetKey | dealSetKey | desKeyGen | dealKeyGen | rijShiftRows | rijInvShiftRows =>
    exact sameBut_require <| sameBut_withBytes fun _ => sameBut_success _ _
  | desEnc | desDec | dealEnc | dealDec | rijEnc | rijDec =>
    exact sameBut_require <| sameBut_require <| sameBut_withBytes fun _ => sameBut_success _ _
  | permute _ _ | desRoundF | desRound | dealRoundF | dealRound | rijAddRoundKey =>
    exact sameBut_require <| sameBut_withBytes fun _ => sameBut_withBytes fun _ => sameBut_success _ _
  | rijSetKey _ | rijKeyGen _ =>
    exact sameBut_requireSome fun _ => sameBut_require <| sameBut_requireSome fun _ =>
      sameBut_require <| sameBut_withBytes fun _ => sameBut_success _ _
  | rijSubBytes | rijInvSubBytes | rijMixColumns | rijInvMixColumns =>
    exact sameBut_require <| sameBut_requireSome fun _ => sameBut_require <|
      sameBut_withBytes fun _ => sameBut_success _ _
  | rijRound | rijFinalRound =>
    exact sameBut_require <| sameBut_requireSome fun _ => sameBut_require <|
      sameBut_withBytes fun _ => sameBut_withBytes fun _ => sameBut_success _ _
  | modeEnc mode padc csel => exact execModeEnc_sameButErrSeen mode padc csel s b
  | modeDec mode padc csel => exact execModeDec_sameButErrSeen mode padc csel s b
  | pad _ | unpad _ =>
    exact sameBut_requireSome fun _ => sameBut_require <| sameBut_withBytes fun _ => sameBut_success _ _

/-! ### Obligations -/

/-- Settles O16: a word outside the tables does not decode, and a decoded command answers by its first error. -/
theorem errorsInOrder : Obligations.ErrorsInOrder := by
  unfold Obligations.ErrorsInOrder
  obtain ⟨-, hillegal⟩ := legalWordsAreTheTables
  refine ⟨fun s w hno => (hillegal w hno).2 s, fun s w i hd => ?_⟩
  rw [step_pushCommand, runCommand_ok hd]
  exact ⟨fun _ => exec_of_firstError, fun hnone _ => err_of_firstError_none hnone⟩

/-- Settles O17: a CMD write that does not end with ERR 0 has raised an error, which writes the two flags alone. -/
theorem errorChangesOnlyStatus : Obligations.ErrorChangesOnlyStatus := by
  unfold Obligations.ErrorChangesOnlyStatus
  intro s t w h hne
  rw [step_pushCommand] at h
  obtain ⟨e, rfl⟩ := (runCommand_next h).resolve_right hne
  rfl

/-- Settles O22: ERR is overwritten before anything reads it, and the outcomes for two values of ERRSEEN are of one kind. -/
theorem commandsIgnoreErr : Obligations.CommandsIgnoreErr := by
  unfold Obligations.CommandsIgnoreErr
  intro i s e b
  have hsame : SameButErrSeen (exec i s) (exec i { s with errSeen := b }) := exec_sameButErrSeen i s b
  refine ⟨exec_withErr i s e, fun f hf => ?_, fun t ht => ?_⟩
  · rw [hf] at hsame
    generalize exec i { s with errSeen := b } = r at hsame
    cases hsame with
    | fault _ => rfl
  · rw [ht] at hsame
    generalize exec i { s with errSeen := b } = r at hsame
    cases hsame with
    | next _ b' => exact ⟨b', rfl⟩

end Sys2Proof.Machine
end

section
/-! SUPPORT. Reset from every state (70_reset_and_hazards.md R270), and the known answers of the ciphers (95_test_vectors.md). -/

namespace Sys2Proof.Machine

/-! ### Reset -/

/-- STATUS depends on nothing that reset keeps, so it is that of the reset state (10_state.md R24, R41). -/
theorem wasReset_status (s : State) : s.wasReset.status = 0 := by
  obtain ⟨hstatus, -⟩ := resetValues
  exact hstatus

/-- Every byte of the cleared round keys and tables is 0 (70_reset_and_hazards.md R270). -/
theorem eq_zero_of_mem_cleared {k : Bytes} {b : Byte}
    (hk : k ∈ DesInst.cleared.rk ++ DealInst.cleared.rk ++ RijInst.cleared.rk ++
      [RijInst.cleared.sbox, RijInst.cleared.invSbox]) (hb : b ∈ k) : b = 0 := by
  obtain ⟨n, rfl⟩ := eq_replicate_zero_of_mem_cleared hk
  exact List.eq_of_mem_replicate hb

/-- No byte of any buffer holds a value after reset (10_state.md R34, R41). -/
theorem wasReset_bufByte (s : State) (b : Buf) (k : Nat) : s.wasReset.bufByte b k = none := by
  simp [State.bufByte, Memory.read]

/-! ### Known answers -/

/-- The first round key of DES key 133457799BBCDFF1 (42_des.md R124). -/
theorem desKeygen_vector :
    (desKeygen [0x13, 0x34, 0x57, 0x79, 0x9B, 0xBC, 0xDF, 0xF1])[0]? = some [0x1B, 0x02, 0xEF, 0xFC, 0x70, 0x72] := by
  decide +kernel

/-- A published DES vector (95_test_vectors.md L1-G). -/
theorem desEncrypt_vector :
    desEncrypt (desKeygen [0x13, 0x34, 0x57, 0x79, 0x9B, 0xBC, 0xDF, 0xF1])
      [0x01, 0x23, 0x45, 0x67, 0x89, 0xAB, 0xCD, 0xEF] = [0x85, 0xE8, 0x13, 0x54, 0x0F, 0x0A, 0xB4, 0x05] := by
  decide +kernel

/-- The DEAL round keys of the master key 0123456789ABCDEFFEDCBA9876543210 (95_test_vectors.md L2.3). -/
def vectorDealKeys : List Bytes :=
  [bytesBE 0xF08C57209593FEB3 8, bytesBE 0xC61B7502021B022F 8, bytesBE 0x3B8AB883C18C612B 8,
    bytesBE 0x43B096B4BA29CAAC 8, bytesBE 0x99DB155BD4EF39F5 8, bytesBE 0x4ECB37352125D921 8]

/-- DEAL's key schedule duplicates no half, so these are the keys under both layouts of DEAL_DUP (43_deal.md R142). -/
theorem dealKeygen_vector :
    dealKeygen [0x01, 0x23, 0x45, 0x67, 0x89, 0xAB, 0xCD, 0xEF, 0xFE, 0xDC, 0xBA, 0x98, 0x76, 0x54, 0x32, 0x10] =
      vectorDealKeys := by
  decide +kernel

/-- The DEAL round function under the first of those keys (95_test_vectors.md L2.3). -/
theorem dealF_halfTwice_vector :
    dealF .halfTwice [0x44, 0x55, 0x66, 0x77] [0xF0, 0x8C, 0x57, 0x20, 0x95, 0x93, 0xFE, 0xB3] =
      [0x0F, 0x56, 0x73, 0xB6] := by
  decide +kernel

/-- The default layout of DEAL_DUP (95_test_vectors.md L2.3). -/
theorem dealEncrypt_halfTwice_vector :
    dealEncrypt .halfTwice vectorDealKeys [0x00, 0x11, 0x22, 0x33, 0x44, 0x55, 0x66, 0x77] =
      [0xB3, 0xBF, 0xFC, 0x27, 0xBB, 0xEA, 0x35, 0xA9] := by
  decide +kernel

/-- The OPEN layout of DEAL_DUP (91_not_in_source.md N12). -/
theorem dealEncrypt_byteTwice_vector :
    dealEncrypt .byteTwice vectorDealKeys [0x00, 0x11, 0x22, 0x33, 0x44, 0x55, 0x66, 0x77] =
      [0xEA, 0x17, 0xBA, 0x0D, 0x43, 0xA2, 0x4E, 0x1F] := by
  decide +kernel

/-- The source's AES-128 vector (95_test_vectors.md L1). -/
theorem rijEncrypt_vector :
    rijEncrypt (RijInst.build 16 0x1B (List.replicate 16 0)) (List.replicate 16 0) =
      [0x66, 0xE9, 0x4B, 0xD4, 0xEF, 0x8A, 0x2C, 0x3B, 0x88, 0x4C, 0xFA, 0x59, 0xCA, 0x34, 0x2B, 0x2E] := by
  decide +kernel

/-! ### Obligations -/

/-- Settles O11: the step answers the state after reset, which keeps none of the block's own state. -/
theorem resetClearsEverything : Obligations.ResetClearsEverything := by
  unfold Obligations.ResetClearsEverything
  intro s rest
  have hzero := @eq_zero_of_mem_cleared
  simp only [List.mem_append, List.mem_cons, List.not_mem_nil, or_false] at hzero
  refine ⟨_, step_facing s .reset rest, wasReset_status _, rfl, rfl, rfl, rfl, rfl, rfl, rfl, rfl, rfl, rfl, rfl, rfl, ?des, rfl,
    ?deal, rfl, rfl, rfl, rfl, rfl, ?rij, ?sbox, ?inv, wasReset_bufByte _⟩
  case des => exact fun k hk b => hzero (.inl (.inl (.inl hk)))
  case deal => exact fun k hk b => hzero (.inl (.inl (.inr hk)))
  case rij => exact fun k hk b => hzero (.inl (.inr hk))
  case sbox => exact fun b => hzero (.inr (.inl rfl))
  case inv => exact fun b => hzero (.inr (.inr rfl))

/-- Settles O50: each vector is one evaluation of the cipher, and both DEAL encryptions run under the same round keys. -/
theorem knownAnswers : Obligations.KnownAnswers := by
  unfold Obligations.KnownAnswers
  refine ⟨desKeygen_vector, desEncrypt_vector, dealF_halfTwice_vector, ?_, rijEncrypt_vector⟩
  rw [dealKeygen_vector]
  simp only [List.forall_mem_cons, List.not_mem_nil, false_imp_iff, implies_true, and_true]
  exact ⟨dealEncrypt_halfTwice_vector, dealEncrypt_byteTwice_vector⟩

end Sys2Proof.Machine
end
